-- ==== Sys2Proof/Word.lean ====
section
/-! DEFINITION. The word types of the block: bytes, bus words, 16-bit sample patterns (00_scope.md R8, R9). -/

namespace Sys2Proof

/-- One byte of the block space. -/
abbrev Byte := BitVec 8

/-- One 32-bit bus word or register value (DATA_W of 00_scope.md R6). -/
abbrev Word := BitVec 32

/-- The 16-bit pattern of a sample (00_scope.md R9). -/
abbrev Pattern := BitVec 16

end Sys2Proof
end

