-- ==== Sys2Proof/Config.lean ====
section
/-! DEFINITION. The parameters of 00_scope.md R6, and the free values: constants without a body, of which no
proof can learn anything. -/

namespace Sys2Proof.Config

/-- SF: fractional bits of a sample (Q2.14). -/
def sampleFraction : Nat := 14

/-- ONE: the sample value 1.0, 2^SF. -/
def one : Nat := 16384

/-- SPB_MIN. -/
def spbMin : Nat := 1

/-- SPB_MAX. -/
def spbMax : Nat := 256

/-- SPB_RESET. -/
def spbReset : Nat := 16

/-- PRE: the preamble bits, first transmitted first. -/
def preamble : List Bool := [true, false, true, false, true, false, true, false]

/-- PRE_LEN. -/
def preambleLen : Nat := 8

/-- PAY_CAP: payload buffer size in bytes. -/
def payCap : Nat := 256

/-- BIT_CAP: bit buffer size in bits. -/
def bitCap : Nat := 4096

/-- SAMP_CAP: sample buffer size in samples. -/
def sampCap : Nat := 65536

/-- FRAME_MIN: minimum frame length in bits. -/
def frameMin : Nat := 48

/-- FRAME_MAX: maximum frame length in bits (LEN = 255). -/
def frameMax : Nat := 2088

/-- SYNC_THR_RESET: real threshold 16.0. -/
def syncThrReset : Word := 0x00040000

/-- The value ID always reads (10_state.md R21). -/
def idValue : Word := 0x4D440001

/-- The block space is offsets 0 to 2^18 − 1 (ADDR_W = 18). -/
def blockSpace : Nat := 262144

/-- BASE_ADDR, OPEN: the platform address of block-space offset 0. No rule depends on it (93 U7; log 9). -/
opaque baseAddr : Nat

/-- BUS_PROTOCOL, OPEN: the name of the concrete bus protocol that carries the host's accesses. No rule depends on it
(00_scope.md R6, R16, 93 U6; log 9). -/
opaque busProtocol : String

/-- FREE VALUE (DESIGN CHOICE of form, log 1, log 3): what the byte at block-space offset `off` of a buffer holds
after the buffer became unspecified for the `gen`-th time and before anything writes it (93 U1, U3). -/
opaque drawByte : (gen off : Nat) → Byte

/-- FREE VALUE (log 2): what the `k`-th host read of a running command's write set finds (93 U2); the read keeps a
register's named bits of it, and an access's bytes. -/
opaque drawRead : (k : Nat) → Word

end Sys2Proof.Config
end

