-- ==== Sys2Proof/Syntax.lean ====
section
/-! DEFINITION. The commands of the block, one constructor per row of the opcode table (30_encoding.md R92). -/

namespace Sys2Proof

/-- The nine commands. The command word has no register, immediate or mode field (30_encoding.md R90), so no
constructor has an argument: every operand is a register or buffer that the command's rule names. -/
inductive Instr where
  /-- R174: no operation. -/
  | nop
  /-- R116: modulate the bit buffer, preamble first, into the sample buffer. -/
  | mod
  /-- R117: synchronize and demodulate the sample buffer into the bit buffer. -/
  | demod
  /-- R140: serialize the frame registers and payload into the bit buffer. -/
  | ser
  /-- R141: parse the bit buffer into the frame registers and payload. -/
  | parse
  /-- R161: checksum of the bit buffer. -/
  | cksum
  /-- R162: validate the last 8 bits of the bit buffer as a checksum. -/
  | ckchk
  /-- R175: SER then MOD. -/
  | tx
  /-- R176: DEMOD then PARSE. -/
  | rx
  deriving DecidableEq, Repr

end Sys2Proof
end

