-- ==== Sys2Proof/Machine/HostProgram.lean ====
section
/-! DEFINITION. Host accesses and host programs (20_memory.md R60, 30_encoding.md R102 to R104): what the host,
the one bus master, still has to do. -/

namespace Sys2Proof.Machine

/-- The access sizes n = 1, 2 and 4 of 20_memory.md R60. -/
inductive Size where
  | one
  | two
  | four
  deriving DecidableEq, Repr

/-- n, the number of bytes an access moves. -/
def Size.bytes : Size → Nat
  | .one => 1
  | .two => 2
  | .four => 4

/-- One line of a host program (30_encoding.md R102). An offset is relative to BASE_ADDR. -/
inductive HostOp where
  /-- `RD8`, `RD16`, `RD32`: MemRead(addr, n). -/
  | read (size : Size) (addr : Nat)
  /-- `WR8`, `WR16`, `WR32`: MemWrite(addr, n, v). Only the low 8n bits of `data` are on the bus (log 14). -/
  | write (size : Size) (addr : Nat) (data : Word)
  /-- `POLL a, m, v`: repeat RD32 a until (data and m) = v (log 15). -/
  | poll (addr : Nat) (mask value : Word)
  deriving DecidableEq, Repr

/-- The offset an access names. -/
def HostOp.addr : HostOp → Nat
  | .read _ a => a
  | .write _ a _ => a
  | .poll a _ _ => a

/-- OP of each command (30_encoding.md R92). -/
def opcode : Instr → BitVec 8
  | .nop => 0x00
  | .mod => 0x01
  | .demod => 0x02
  | .ser => 0x10
  | .parse => 0x11
  | .cksum => 0x20
  | .ckchk => 0x21
  | .tx => 0x30
  | .rx => 0x31

/-- The pseudo-instructions of 30_encoding.md R103. -/
inductive Pseudo where
  | run (i : Instr)
  | issue (i : Instr)
  | wait
  | ackDone
  | setCfg (scheme spb : Nat)
  deriving DecidableEq, Repr

/-- The expansions of 30_encoding.md R103: CMD is at 0x00C, STATUS at 0x010, CFG at 0x004. -/
def expand : Pseudo → List HostOp
  | .run i => [.write .four 0x00C ((opcode i).setWidth 32), .poll 0x010 1 0]
  | .issue i => [.write .four 0x00C ((opcode i).setWidth 32)]
  | .wait => [.poll 0x010 1 0]
  | .ackDone => [.write .four 0x010 2]
  | .setCfg scheme spb => [.write .four 0x004 ((BitVec.ofNat 32 spb <<< 16) ||| BitVec.ofNat 32 scheme)]

end Sys2Proof.Machine
end

