-- ==== Sys2Proof/Machine/State.lean ====
section
/-! DEFINITION. The state of the block (10_state.md), its reset value (R46), and the reasons a step can stop. -/

namespace Sys2Proof.Machine

/-- The three legal values of CFG.SCHEME (10_state.md R22, 30_encoding.md R95); code 3 is never held (R23). -/
inductive Scheme where
  | ask
  | fsk
  | bpsk
  deriving DecidableEq, Repr

/-- The sequencer state (10_state.md R43): IDLE, or BUSY with the OP of the accepted command word. Every OP value
is accepted, legal or not (43_sequencing.md R170; log 12). -/
inductive Sequencer where
  | idle
  | busy (op : BitVec 8)
  deriving DecidableEq, Repr

/-- The fourteen registers of the register window (10_state.md R20), register k at offset 4k. -/
inductive RegName where
  | id
  | cfg
  | ctrl
  | cmd
  | status
  | irqEn
  | bitlen
  | samplen
  | frameHdr
  | frameLc
  | syncThr
  | syncLag
  | syncPeak
  | ckResult
  deriving DecidableEq, Repr

/-- The three buffers (10_state.md R40 to R42). -/
inductive Buffer where
  | pay
  | bit
  | samp
  deriving DecidableEq, Repr

/-- A register or a buffer: what a write set is made of (43_sequencing.md R178). -/
inductive Loc where
  | reg (r : RegName)
  | buf (b : Buffer)
  deriving DecidableEq, Repr

/-- The command error codes that are produced (60_exceptions.md R196). -/
inductive CmdError where
  /-- 0: the command completed without error. -/
  | none
  /-- 1: OP not in the opcode map. -/
  | illegalOp
  /-- 2: the waveform would not fit the sample buffer. -/
  | capacity
  deriving DecidableEq, Repr

/-- The causes of a bus error (60_exceptions.md R191). Nothing in the state records them (R193). -/
inductive BusError where
  /-- BE1: offset in a reserved or unmapped range. -/
  | unmapped
  /-- BE2: register access not 4 bytes wide. -/
  | registerWidth
  /-- BE3: misaligned access. -/
  | misaligned
  /-- BE4: write to a read-only register. -/
  | readOnly
  /-- BE5: write to a command input while BUSY. -/
  | inputWhileBusy
  /-- BE6: illegal configuration value. -/
  | illegalConfig
  /-- BE7: length out of range. -/
  | lengthRange
  deriving DecidableEq, Repr

/-- The response of the bus slave to one access (20_memory.md R60): OKAY or ERROR, and the data of a read. -/
inductive Reply where
  | readOkay (data : Word)
  | writeOkay
  /-- The data of a read that ends in a bus error is 0 (20_memory.md R69, 60_exceptions.md R190). -/
  | readError (data : Word)
  | writeError
  deriving DecidableEq, Repr

/-- Who moves next: a choice of the scheduler or the environment (43_sequencing.md R180; log 4, log 8). -/
inductive Turn where
  /-- The host makes its next access. -/
  | host
  /-- The sequencer takes its one enabled step, the completion (43_sequencing.md R172). -/
  | sequencer
  /-- RST_N falls to 0 (70_reset_and_hazards.md R220). -/
  | resetLow
  /-- RST_N rises to 1. -/
  | resetHigh
  deriving DecidableEq, Repr

/-- The stored fields of the register window (10_state.md R20 to R36). STATUS.BUSY is not among them: it is 1
exactly when the sequencer is BUSY (R43). A reserved bit has no storage (R37). -/
structure Regs where
  /-- CFG.SCHEME (R22). -/
  scheme : Scheme
  /-- CFG.SPB, samples per bit N (R22). -/
  spb : BitVec 9
  /-- STATUS.DONE (R26). -/
  done : Bool
  /-- STATUS.ERR (R26). -/
  err : BitVec 3
  /-- STATUS.OVR (R26). -/
  ovr : Bool
  /-- STATUS.SYNC_OK (R26). -/
  syncOk : Bool
  /-- STATUS.PEAK_NEG (R26). -/
  peakNeg : Bool
  /-- STATUS.BIT_OVF (R26). -/
  bitOvf : Bool
  /-- STATUS.FRAME_OK (R26). -/
  frameOk : Bool
  /-- STATUS.CK_OK (R26). -/
  ckOk : Bool
  /-- IRQ_EN.DONE_IE (R28). -/
  doneIe : Bool
  /-- IRQ_EN.OVR_IE (R28). -/
  ovrIe : Bool
  /-- BITLEN (R29). -/
  bitlen : BitVec 13
  /-- SAMPLEN (R30). -/
  samplen : BitVec 17
  /-- FRAME_HDR.SRC (R31). -/
  src : Byte
  /-- FRAME_HDR.DST (R31). -/
  dst : Byte
  /-- FRAME_HDR.TYPE (R31). -/
  typ : Byte
  /-- FRAME_HDR.SEQ (R31). -/
  sqn : Byte
  /-- FRAME_LC.LEN (R32). -/
  len : Byte
  /-- FRAME_LC.CHK (R32). -/
  chk : Byte
  /-- SYNC_THR (R33). -/
  syncThr : Word
  /-- SYNC_LAG (R34). -/
  syncLag : BitVec 16
  /-- SYNC_PEAK (R35). -/
  syncPeak : Word
  /-- CK_RESULT (R36). -/
  ckResult : Byte
  deriving DecidableEq, Repr

/-- The register values after either kind of reset (10_state.md R46, 70_reset_and_hazards.md R221). -/
def Regs.reset : Regs where
  scheme := .ask
  spb := 16
  done := false
  err := 0
  ovr := false
  syncOk := false
  peakNeg := false
  bitOvf := false
  frameOk := false
  ckOk := false
  doneIe := false
  ovrIe := false
  bitlen := 0
  samplen := 0
  src := 0
  dst := 0
  typ := 0
  sqn := 0
  len := 0
  chk := 0
  syncThr := Config.syncThrReset
  syncLag := 0
  syncPeak := 0
  ckResult := 0

/-- The contents of the three buffers: (block-space offset, byte) pairs, offsets strictly rising. A buffer byte
that is not listed is unspecified (10_state.md R46): a read of it takes a free value (log 1). -/
abbrev Memory := List Host.Cell

/-- The state of the block, of its pins and of what its environment still has to do. -/
structure State where
  /-- The register window. -/
  regs : Regs
  /-- The sequencer (10_state.md R43). -/
  seq : Sequencer
  /-- PAY, BIT and SAMP (10_state.md R40 to R42). -/
  mem : Memory
  /-- The input pin RST_N (70_reset_and_hazards.md R220): true is 1. -/
  rstN : Bool
  /-- The MODEL's own: how often PAY became unspecified before this reset's contents (log 1). -/
  payGen : Nat
  /-- The MODEL's own: the same for BIT. -/
  bitGen : Nat
  /-- The MODEL's own: the same for SAMP. -/
  sampGen : Nat
  /-- The MODEL's own: how many reads of a running command's write set were drawn (log 2). -/
  drawCount : Nat
  /-- The MODEL's own: what the host still has to do, first access first (log 5). -/
  host : List HostOp
  /-- The MODEL's own: the scheduler's choices still to be taken, first one first (log 4). -/
  turns : List Turn
  /-- The bus port's response to the last host access, none before the first (20_memory.md R60; log 6). -/
  reply : Option Reply
  deriving DecidableEq, Repr

/-- The block right after a hardware reset (10_state.md R46, 70_reset_and_hazards.md R220 to R222): registers at
their reset values, sequencer IDLE, RST_N = 1, every buffer byte unspecified, and an environment that has nothing
to do yet (log 5). -/
def State.reset : State where
  regs := Regs.reset
  seq := .idle
  mem := []
  rstN := true
  payGen := 0
  bitGen := 0
  sampGen := 0
  drawCount := 0
  host := []
  turns := []
  reply := none

/-- Why the machine stops. No command and no access inside the block space stops it. -/
inductive Fault where
  /-- Raised by a host access at an offset at or above 2^18 (20_memory.md R61, 93 U8): whether the interconnect
  aliases or rejects it is the platform's concern. Safe: the model stops where the platform goes on (log 7). -/
  | outsideBlockSpace (addr : Nat)
  deriving DecidableEq, Repr

/-- Why an instruction has no meaning. No arm of exec answers with this. -/
inductive Refusal where
  /-- Raised by exec for an instruction that has no meaning yet. Safe: the model stops. -/
  | notModelled (mnemonic : String)
  deriving DecidableEq, Repr

/-- How the body of a command ends (00_scope.md R10): `done`, or `raise CmdError(code)`. The state is what the
body has made of it (43_sequencing.md R172). -/
inductive BodyEnd where
  | done (s : State)
  | raise (e : CmdError) (s : State)
  deriving DecidableEq, Repr

/-- The state in which a command body ended. -/
def BodyEnd.state : BodyEnd → State
  | .done s => s
  | .raise _ s => s

/-- The error code a command body ended with. -/
def BodyEnd.error : BodyEnd → CmdError
  | .done _ => .none
  | .raise e _ => e

/-- The outcome of a step of this machine. -/
abbrev Result := Host.Outcome State Fault Refusal

end Sys2Proof.Machine
end

