-- ==== Sys2Proof/Machine/Flags.lean ====
section
/-! DEFINITION. The STATUS flags (10_state.md R26, R39), what sets and clears them, the register words, and the IRQ
line (60_exceptions.md R198). -/

namespace Sys2Proof.Machine

/-- STATUS.BUSY = 1 exactly when the sequencer is BUSY (10_state.md R43). -/
def State.busy (s : State) : Bool := s.seq != .idle

/-- One bit of a register word. -/
def flag (b : Bool) : BitVec 1 := BitVec.ofBool b

/-- CFG.SCHEME's code (30_encoding.md R95). -/
def Scheme.code : Scheme → BitVec 2
  | .ask => 0
  | .fsk => 1
  | .bpsk => 2

/-- The scheme of a CFG.SCHEME code; 3 is illegal (30_encoding.md R95). -/
def schemeOf (code : BitVec 2) : Option Scheme :=
  if code = 0 then some .ask else if code = 1 then some .fsk else if code = 2 then some .bpsk else none

/-- STATUS.ERR's code (60_exceptions.md R196). -/
def CmdError.code : CmdError → BitVec 3
  | .none => 0
  | .illegalOp => 1
  | .capacity => 2

/-- The word CFG reads as: SPB in [24:16], SCHEME in [1:0] (10_state.md R22). -/
def Regs.cfgWord (r : Regs) : Word := (0 : BitVec 7) ++ r.spb ++ (0 : BitVec 14) ++ r.scheme.code

/-- The word STATUS reads as (10_state.md R26), BUSY given by the sequencer. -/
def Regs.statusWord (r : Regs) (busy : Bool) : Word :=
  (0 : BitVec 19) ++ flag r.ckOk ++ flag r.frameOk ++ flag r.bitOvf ++ flag r.peakNeg ++ flag r.syncOk
    ++ (0 : BitVec 2) ++ flag r.ovr ++ r.err ++ flag r.done ++ flag busy

/-- The word IRQ_EN reads as (10_state.md R28). -/
def Regs.irqEnWord (r : Regs) : Word := (0 : BitVec 30) ++ flag r.ovrIe ++ flag r.doneIe

/-- The word FRAME_HDR reads as (10_state.md R31). -/
def Regs.frameHdrWord (r : Regs) : Word := r.sqn ++ r.typ ++ r.dst ++ r.src

/-- The word FRAME_LC reads as (10_state.md R32). -/
def Regs.frameLcWord (r : Regs) : Word := (0 : BitVec 16) ++ r.chk ++ r.len

/-- The flag clears of acceptance (43_sequencing.md R173): OVR is not cleared. -/
def Regs.acceptClears (r : Regs) : Regs :=
  { r with done := false, err := 0, syncOk := false, peakNeg := false, bitOvf := false, frameOk := false,
           ckOk := false }

/-- The flag writes of completion (43_sequencing.md R172): ERR takes the code, DONE is set. -/
def Regs.completeFlags (r : Regs) (e : CmdError) : Regs := { r with done := true, err := e.code }

/-- A host write to STATUS (10_state.md R27): bit 1 clears DONE, bit 5 clears OVR, nothing else changes. -/
def Regs.writeOneToClear (r : Regs) (d : Word) : Regs :=
  { r with done := r.done && !d.getLsbD 1, ovr := r.ovr && !d.getLsbD 5 }

/-- The IRQ output (10_state.md R44, 60_exceptions.md R198), 0 while RST_N = 0 (70_reset_and_hazards.md R220). -/
def State.irq (s : State) : Bool :=
  s.rstN && ((s.regs.done && s.regs.doneIe) || (s.regs.ovr && s.regs.ovrIe))

end Sys2Proof.Machine
end

