-- ==== Sys2Proof/Machine/Ops.lean ====
section
/-! DEFINITION. The named operations over the buffers and the sequencer: reading and writing buffer bytes, a buffer
becoming unspecified, acceptance and completion of a command. -/

namespace Sys2Proof.Machine

/-- First block-space offset of a buffer's window (20_memory.md R61). -/
def Buffer.base : Buffer → Nat
  | .pay => 0x100
  | .bit => 0x200
  | .samp => 0x20000

/-- Bytes in a buffer's window (20_memory.md R61). -/
def Buffer.size : Buffer → Nat
  | .pay => 256
  | .bit => 512
  | .samp => 131072

/-- An offset lies in a buffer's window. -/
def Buffer.holds (b : Buffer) (a : Nat) : Bool := decide (b.base ≤ a) && decide (a < b.base + b.size)

/-- An offset lies in one of the three windows. -/
def inBuffers (a : Nat) : Bool := Buffer.pay.holds a || Buffer.bit.holds a || Buffer.samp.holds a

/-- The byte listed at an offset, none where the byte is unspecified. -/
def Memory.lookup (a : Nat) : Memory → Option Byte
  | [] => none
  | (k, v) :: rest => if k = a then some v else Memory.lookup a rest

/-- Every offset is above `lo`, strictly rising, and in a buffer. -/
def Memory.wfFrom : (lo : Nat) → Memory → Bool
  | _, [] => true
  | lo, (k, _) :: rest => decide (lo ≤ k) && inBuffers k && Memory.wfFrom (k + 1) rest

/-- The canonical form: offsets strictly rising, each in a buffer's window. An unlisted byte has no value (it is
unspecified), so no entry can equal what an unlisted offset holds. -/
def Memory.wf (m : Memory) : Bool := Memory.wfFrom 0 m

/-- The entries of consecutive bytes from offset `a`. -/
def Memory.cells : (a : Nat) → List Byte → Memory
  | _, [] => []
  | a, v :: vs => (a, v) :: Memory.cells (a + 1) vs

/-- Write consecutive bytes from offset `a`. -/
def Memory.store (a : Nat) (vs : List Byte) (m : Memory) : Memory :=
  m.filter (fun c => decide (c.1 < a)) ++ Memory.cells a vs
    ++ m.filter (fun c => decide (a + vs.length ≤ c.1))

/-- Remove every entry of a buffer. -/
def Memory.forget (b : Buffer) (m : Memory) : Memory := m.filter (fun c => !b.holds c.1)

/-- One walk over entries that start at or above `a`: the `n` bytes from offset `a`, `draw` giving the bytes that
are not listed. -/
def Memory.walk (draw : Nat → Byte) : (n a : Nat) → Memory → List Byte
  | 0, _, _ => []
  | n + 1, a, [] => draw a :: Memory.walk draw n (a + 1) []
  | n + 1, a, (k, v) :: rest =>
    if k = a then v :: Memory.walk draw n (a + 1) rest else draw a :: Memory.walk draw n (a + 1) ((k, v) :: rest)

/-- The free value an unspecified byte holds: one draw per byte and per time its buffer became unspecified
(93 U1, U3; log 1, log 3). -/
def State.draw (s : State) (a : Nat) : Byte :=
  Config.drawByte (if a < 0x200 then s.payGen else if a < 0x20000 then s.bitGen else s.sampGen) a

/-- The buffer byte at a block-space offset. -/
def State.byteAt (s : State) (a : Nat) : Byte := (s.mem.lookup a).getD (s.draw a)

/-- The `n` buffer bytes from a block-space offset. -/
def State.bytesAt (s : State) (a n : Nat) : List Byte :=
  Memory.walk s.draw n a (s.mem.dropWhile (fun c => decide (c.1 < a)))

/-- Write consecutive buffer bytes. -/
def State.storeBytes (s : State) (a : Nat) (vs : List Byte) : State := { s with mem := s.mem.store a vs }

/-- A buffer becomes unspecified (70_reset_and_hazards.md R222, R224): no byte is listed, and a new draw holds for
each of them. -/
def State.unspecify (s : State) (b : Buffer) : State :=
  { s with
    mem := s.mem.forget b
    payGen := if b = .pay then s.payGen + 1 else s.payGen
    bitGen := if b = .bit then s.bitGen + 1 else s.bitGen
    sampGen := if b = .samp then s.sampGen + 1 else s.sampGen }

/-- Acceptance of a command word's OP (43_sequencing.md R170, R173): BUSY(op), and the flag clears. -/
def State.accept (s : State) (op : BitVec 8) : State :=
  { s with seq := .busy op, regs := s.regs.acceptClears }

/-- Completion with an error code (43_sequencing.md R172): ERR, BUSY <- 0, DONE <- 1, IDLE. -/
def State.finish (s : State) (e : CmdError) : State :=
  { s with seq := .idle, regs := s.regs.completeFlags e }

/-- Completion of a command whose body has ended (43_sequencing.md R172, 60_exceptions.md R194). This is the
block's only counterpart of taking an exception: a command error is reported here and nowhere else (R201). -/
def complete (b : BodyEnd) : State := b.state.finish b.error

end Sys2Proof.Machine
end

