-- ==== Sys2Proof/Machine/Operands.lean ====
section
/-! DEFINITION. The operand views of 00_scope.md R10 over the buffers' bytes: Pay(k), Bit(i), Byte(i), Samp(j), and
the sequences the commands read and write. -/

namespace Sys2Proof.Machine

/-- `msb8(v)`: the 8 bits of a byte, bit 7 first (00_scope.md R8). -/
def msb8 (v : Byte) : List Bool :=
  [v.getLsbD 7, v.getLsbD 6, v.getLsbD 5, v.getLsbD 4, v.getLsbD 3, v.getLsbD 2, v.getLsbD 1, v.getLsbD 0]

/-- The number a bit sequence renders, first bit most significant. -/
def msbNat (bs : List Bool) : Nat := bs.foldl (fun acc b => 2 * acc + b.toNat) 0

/-- The byte whose MSB-first rendering the 8 bits are (30_encoding.md R99). -/
def byteOfBits (bs : List Bool) : Byte := BitVec.ofNat 8 (msbNat bs)

/-- Cut a bit sequence into `n` bytes. -/
def packBytes : (n : Nat) → List Bool → List Byte
  | 0, _ => []
  | n + 1, bs => byteOfBits (bs.take 8) :: packBytes n (bs.drop 8)

/-- Pay(k), at offset 0x100 + k (20_memory.md R66). -/
def State.pay (s : State) (k : Nat) : Byte := s.byteAt (0x100 + k)

/-- Pay(0), ..., Pay(n − 1). -/
def State.pays (s : State) (n : Nat) : List Byte := s.bytesAt 0x100 n

/-- Pay(0), ... <- vs. -/
def State.writePays (s : State) (vs : List Byte) : State := s.storeBytes 0x100 vs

/-- Byte(i) of the bit buffer, at offset 0x200 + i (30_encoding.md R99, 20_memory.md R67). -/
def State.bitByte (s : State) (i : Nat) : Byte := s.byteAt (0x200 + i)

/-- Bit(i): bit 7 − (i mod 8) of Byte(i div 8) (20_memory.md R67). -/
def State.bit (s : State) (i : Nat) : Bool := (s.bitByte (i / 8)).getLsbD (7 - i % 8)

/-- Bits(0, n): the first n bits of the bit buffer (00_scope.md R10). -/
def State.bits (s : State) (n : Nat) : List Bool := ((s.bytesAt 0x200 ((n + 7) / 8)).flatMap msb8).take n

/-- Bit(0), ... <- bs. The bits of the last byte beyond `bs` keep their values. -/
def State.writeBits (s : State) (bs : List Bool) : State :=
  let n := (bs.length + 7) / 8
  s.storeBytes 0x200 (packBytes n (bs ++ (s.bits (8 * n)).drop bs.length))

/-- The pattern of two bytes, low byte first (20_memory.md R68). -/
def patternOf (lo hi : Byte) : Pattern := hi ++ lo

/-- Samp(j): sext_16 of the pattern at offsets 0x20000 + 2j and 0x20000 + 2j + 1 (20_memory.md R68, 00_scope.md R9). -/
def State.samp (s : State) (j : Nat) : Int :=
  (patternOf (s.byteAt (0x20000 + 2 * j)) (s.byteAt (0x20000 + 2 * j + 1))).toInt

/-- The samples of `n` byte pairs. -/
def pairSamples : (n : Nat) → List Byte → List Int
  | n + 1, lo :: hi :: rest => (patternOf lo hi).toInt :: pairSamples n rest
  | _, _ => []

/-- Samp(0), ..., Samp(n − 1). -/
def State.samps (s : State) (n : Nat) : List Int := pairSamples n (s.bytesAt 0x20000 (2 * n))

/-- The two bytes of a sample, low byte first. -/
def sampleBytes (v : Int) : List Byte :=
  [(BitVec.ofInt 16 v).extractLsb' 0 8, (BitVec.ofInt 16 v).extractLsb' 8 8]

/-- Samp(0), ... <- vs. -/
def State.writeSamps (s : State) (vs : List Int) : State := s.storeBytes 0x20000 (vs.flatMap sampleBytes)

/-- N = zext_9(CFG.SPB) (30_encoding.md R100). -/
def State.n (s : State) : Nat := s.regs.spb.toNat

/-- `BITLEN <- n`, for n at most BIT_CAP. -/
def State.setBitlen (s : State) (n : Nat) : State :=
  { s with regs := { s.regs with bitlen := BitVec.ofNat 13 n } }

/-- `SAMPLEN <- n`, for n at most SAMP_CAP. -/
def State.setSamplen (s : State) (n : Nat) : State :=
  { s with regs := { s.regs with samplen := BitVec.ofNat 17 n } }

end Sys2Proof.Machine
end

