-- ==== Sys2Proof/WellFormed.lean ====
section
/-! DEFINITION. Which commands and host accesses are well formed. -/

namespace Sys2Proof

/-- A command has no operand field (30_encoding.md R90), so every command is well formed. -/
def Instr.wellFormed (_ : Instr) : Bool := true

end Sys2Proof

namespace Sys2Proof.Machine

/-- The access lies in the block space (20_memory.md R60). -/
def HostOp.inBlockSpace (op : HostOp) : Bool := decide (op.addr < Config.blockSpace)

/-- The data of an n-byte write fits n bytes (30_encoding.md R102). -/
def HostOp.dataFits : HostOp → Bool
  | .write size _ data => decide (data.toNat < 2 ^ (8 * size.bytes))
  | _ => true

/-- A POLL can end: its value has no bit outside its mask (30_encoding.md R102). -/
def HostOp.pollCanEnd : HostOp → Bool
  | .poll _ mask value => decide (value &&& mask = value)
  | _ => true

/-- A well-formed host access passes the three checks. -/
def HostOp.wellFormed (op : HostOp) : Bool :=
  HostOp.inBlockSpace op && HostOp.dataFits op && HostOp.pollCanEnd op

end Sys2Proof.Machine
end

