-- ==== Sys2Proof/Decode.lean ====
section
/-! DEFINITION. Decoding and encoding of command words (30_encoding.md R90 to R94). -/

namespace Sys2Proof

/-- Why a command is not decoded. -/
inductive Reject where
  /-- OP is not in the opcode map (30_encoding.md R93). -/
  | illegalOp (op : BitVec 8)
  /-- A command is exactly one 32-bit word (30_encoding.md R94). -/
  | notOneWord (bytes : Nat)
  deriving DecidableEq, Repr

/-- One row of the opcode table. -/
structure OpRow where
  instr : Instr
  bits : Word
  mask : Word
  deriving DecidableEq, Repr

/-- The opcode table (30_encoding.md R91, R92). -/
def opcodeTable : List OpRow :=
  [⟨.nop, 0x00000000, 0x000000FF⟩, ⟨.mod, 0x00000001, 0x000000FF⟩, ⟨.demod, 0x00000002, 0x000000FF⟩,
   ⟨.ser, 0x00000010, 0x000000FF⟩, ⟨.parse, 0x00000011, 0x000000FF⟩,
   ⟨.cksum, 0x00000020, 0x000000FF⟩, ⟨.ckchk, 0x00000021, 0x000000FF⟩,
   ⟨.tx, 0x00000030, 0x000000FF⟩, ⟨.rx, 0x00000031, 0x000000FF⟩]

/-- Decode a command word: the row whose masked bits the word has. Bits [31:8] take no part (R91). -/
def decode (w : Word) : Except Reject Instr :=
  match opcodeTable.find? (fun row => w &&& row.mask == row.bits) with
  | some row => .ok row.instr
  | none => .error (.illegalOp (w.setWidth 8))

/-- Decode the 8-bit OP that the sequencer holds (10_state.md R43). -/
def decodeOp (op : BitVec 8) : Except Reject Instr := decode (op.setWidth 32)

/-- Decode the four bytes of a command word, lowest address first (20_memory.md R65); reject by name anything
that is not one word. -/
def decodeBytes : List Byte → Except Reject Instr
  | [b0, b1, b2, b3] => decode (b3 ++ b2 ++ b1 ++ b0)
  | bytes => .error (.notOneWord bytes.length)

/-- The word a host writes to CMD for a command: OP in [7:0], zeros above (30_encoding.md R103). -/
def encode (i : Instr) : Word := (Machine.opcode i).setWidth 32

/-- Every word of a command: OP in [7:0] and any value in the ignored bits [31:8] (30_encoding.md R90). -/
def encodeWith (ignored : BitVec 24) (i : Instr) : Word := ignored ++ Machine.opcode i

/-- The four bytes of a word in the bus's byte order, lowest address first (20_memory.md R65). -/
def wordBytes (w : Word) : List Byte :=
  [w.extractLsb' 0 8, w.extractLsb' 8 8, w.extractLsb' 16 8, w.extractLsb' 24 8]

/-- The instruction the decoder reads from table bits `w`, every bit at or above `nbits` zero. -/
def decodeTableWord (nbits w : Nat) : Option Instr :=
  match decodeBytes (wordBytes (BitVec.ofNat 32 (w % 2 ^ nbits))) with
  | .ok i => some i
  | .error _ => none

end Sys2Proof
end

