-- ==== Sys2Proof/Machine/Reset.lean ====
section
/-! DEFINITION. The write sets of the commands, and the two resets (43_sequencing.md R178, 70_reset_and_hazards.md
R220 to R224). -/

namespace Sys2Proof.Machine

/-- The registers and buffers a command may change at its completion (43_sequencing.md R178). -/
def writeSet : Instr → List Loc
  | .nop => []
  | .mod => [.buf .samp, .reg .samplen]
  | .demod => [.buf .bit, .reg .bitlen, .reg .syncLag, .reg .syncPeak]
  | .ser => [.buf .bit, .reg .bitlen, .reg .frameLc]
  | .parse => [.reg .frameHdr, .reg .frameLc, .buf .pay]
  | .cksum => [.reg .ckResult]
  | .ckchk => [.reg .ckResult]
  | .tx => [.buf .bit, .reg .bitlen, .reg .frameLc, .buf .samp, .reg .samplen]
  | .rx => [.buf .bit, .reg .bitlen, .reg .syncLag, .reg .syncPeak, .reg .frameHdr, .reg .frameLc, .buf .pay]

/-- The write set of an OP; an illegal one has none (43_sequencing.md R178). -/
def opWriteSet (op : BitVec 8) : List Loc :=
  match decodeOp op with
  | .ok i => writeSet i
  | .error _ => []

/-- The write set of the running command; none when IDLE. -/
def State.runningWriteSet (s : State) : List Loc :=
  match s.seq with
  | .idle => []
  | .busy op => opWriteSet op

/-- A buffer becomes unspecified if the running command's write set holds it. -/
def State.unspecifyIfWritten (s : State) (b : Buffer) : State :=
  if Loc.buf b ∈ s.runningWriteSet then s.unspecify b else s

/-- The buffers of the running command's write set become unspecified (70_reset_and_hazards.md R224). -/
def State.abortBuffers (s : State) : State :=
  ((s.unspecifyIfWritten .pay).unspecifyIfWritten .bit).unspecifyIfWritten .samp

/-- Soft reset (70_reset_and_hazards.md R223): a running command is aborted (R224), every register takes its reset
value, the sequencer becomes IDLE, the other buffers keep their contents. -/
def State.softReset (s : State) : State := { s.abortBuffers with regs := Regs.reset, seq := .idle }

/-- The state of 10_state.md R46 for a hardware reset (70_reset_and_hazards.md R220, R222), RST_N at `level`: every
buffer byte is unspecified. The host's pending accesses and the scheduler's turns are not the block's. -/
def State.hardReset (s : State) (level : Bool) : State :=
  { ((s.unspecify .pay).unspecify .bit).unspecify .samp with regs := Regs.reset, seq := .idle, rstN := level }

end Sys2Proof.Machine
end

