-- ==== Sys2Proof/Machine/Bus.lean ====
section
/-! DEFINITION. Host accesses: the address map, the bus errors, register and buffer reads and writes
(20_memory.md, 10_state.md R20 to R37, 60_exceptions.md R190 to R193). -/

namespace Sys2Proof.Machine

/-- The registers in the order of their offsets (10_state.md R20). -/
def registers : List RegName :=
  [.id, .cfg, .ctrl, .cmd, .status, .irqEn, .bitlen, .samplen, .frameHdr, .frameLc, .syncThr, .syncLag, .syncPeak,
   .ckResult]

/-- The address map (20_memory.md R61): the register or buffer at an offset, none where it is reserved or
unmapped. Register k is at offset 4k. -/
def locate (a : Nat) : Option Loc :=
  if a < 0x38 then (registers[a / 4]?).map Loc.reg
  else if Buffer.pay.holds a then some (.buf .pay)
  else if Buffer.bit.holds a then some (.buf .bit)
  else if Buffer.samp.holds a then some (.buf .samp)
  else none

/-- The bus-error causes of any access, in the order BE1, BE2, BE3 (60_exceptions.md R191, R192). -/
def accessCause (size : Size) (a : Nat) : Option BusError :=
  match locate a with
  | none => some .unmapped
  | some (.reg _) =>
    if size ≠ .four then some .registerWidth else if a % size.bytes ≠ 0 then some .misaligned else none
  | some (.buf _) => if a % size.bytes ≠ 0 then some .misaligned else none

/-- The registers no host write reaches: BE4 (10_state.md R37). -/
def RegName.readOnly : RegName → Bool
  | .id | .syncLag | .syncPeak | .ckResult => true
  | .cfg | .ctrl | .cmd | .status | .irqEn | .bitlen | .samplen | .frameHdr | .frameLc | .syncThr => false

/-- The registers that are inputs of a command, refused to the host while BUSY: BE5 (20_memory.md R74). -/
def RegName.input : RegName → Bool
  | .cfg | .bitlen | .samplen | .frameHdr | .frameLc | .syncThr => true
  | .id | .ctrl | .cmd | .status | .irqEn | .syncLag | .syncPeak | .ckResult => false

/-- The bits of a register that the fields column of 10_state.md R20 names; every other bit is reserved and reads as 0
(R37, 93 V1). -/
def RegName.fields : RegName → Word
  | .id => 0xFFFFFFFF
  | .cfg => 0x01FF0003
  | .ctrl => 0x00000001
  | .cmd => 0x000000FF
  | .status => 0x00001F3F
  | .irqEn => 0x00000003
  | .bitlen => 0x00001FFF
  | .samplen => 0x0001FFFF
  | .frameHdr => 0xFFFFFFFF
  | .frameLc => 0x0000FFFF
  | .syncThr => 0xFFFFFFFF
  | .syncLag => 0x0000FFFF
  | .syncPeak => 0xFFFFFFFF
  | .ckResult => 0x000000FF

/-- CFG data with a legal SCHEME and SPB (10_state.md R23). -/
def cfgLegal (d : Word) : Bool :=
  (schemeOf (d.extractLsb' 0 2)).isSome && decide (Config.spbMin ≤ (d.extractLsb' 16 9).toNat)
    && decide ((d.extractLsb' 16 9).toNat ≤ Config.spbMax)

/-- The causes of a register write beyond those of any access: BE4, BE5, then BE6 and BE7 (60_exceptions.md R192). -/
def regWriteCause (s : State) (r : RegName) (d : Word) : Option BusError :=
  if r.readOnly then some .readOnly
  else if r.input && s.busy then some .inputWhileBusy
  else match r with
    | .cfg => if cfgLegal d then none else some .illegalConfig
    | .bitlen => if (d.extractLsb' 0 13).toNat ≤ Config.bitCap then none else some .lengthRange
    | .samplen => if (d.extractLsb' 0 17).toNat ≤ Config.sampCap then none else some .lengthRange
    | _ => none

/-- The cause with which a write ends in a bus error, none if it ends OKAY (60_exceptions.md R191, R192). -/
def writeCause (s : State) (size : Size) (a : Nat) (d : Word) : Option BusError :=
  match accessCause size a with
  | some e => some e
  | none =>
    match locate a with
    | some (.reg r) => regWriteCause s r d
    | some (.buf _) => if s.busy then some .inputWhileBusy else none
    | none => none

/-- The word a register reads as (10_state.md R20 to R37); CTRL and CMD read 0. -/
def State.readReg (s : State) : RegName → Word
  | .id => Config.idValue
  | .cfg => s.regs.cfgWord
  | .ctrl => 0
  | .cmd => 0
  | .status => s.regs.statusWord s.busy
  | .irqEn => s.regs.irqEnWord
  | .bitlen => s.regs.bitlen.setWidth 32
  | .samplen => s.regs.samplen.setWidth 32
  | .frameHdr => s.regs.frameHdrWord
  | .frameLc => s.regs.frameLcWord
  | .syncThr => s.regs.syncThr
  | .syncLag => s.regs.syncLag.setWidth 32
  | .syncPeak => s.regs.syncPeak
  | .ckResult => s.regs.ckResult.setWidth 32

/-- CFG takes a legal SCHEME and SPB (10_state.md R23). -/
def Regs.writeCfg (r : Regs) (d : Word) : Regs :=
  match schemeOf (d.extractLsb' 0 2) with
  | some sch => { r with scheme := sch, spb := d.extractLsb' 16 9 }
  | none => r

/-- A host write to CMD (10_state.md R25): accepted when IDLE (43_sequencing.md R170), dropped with OVR set when
BUSY (R179). -/
def State.writeCmd (s : State) (d : Word) : State :=
  match s.seq with
  | .idle => s.accept (d.extractLsb' 0 8)
  | .busy _ => { s with regs := { s.regs with ovr := true } }

/-- The effect of a register write that ends OKAY (10_state.md R22 to R33). -/
def State.writeReg (s : State) (r : RegName) (d : Word) : State :=
  match r with
  | .cfg => { s with regs := s.regs.writeCfg d }
  | .ctrl => if d.getLsbD 0 then s.softReset else s
  | .cmd => s.writeCmd d
  | .status => { s with regs := s.regs.writeOneToClear d }
  | .irqEn => { s with regs := { s.regs with doneIe := d.getLsbD 0, ovrIe := d.getLsbD 1 } }
  | .bitlen => { s with regs := { s.regs with bitlen := d.extractLsb' 0 13 } }
  | .samplen => { s with regs := { s.regs with samplen := d.extractLsb' 0 17 } }
  | .frameHdr =>
    { s with regs := { s.regs with src := d.extractLsb' 0 8, dst := d.extractLsb' 8 8, typ := d.extractLsb' 16 8,
                                   sqn := d.extractLsb' 24 8 } }
  | .frameLc => { s with regs := { s.regs with len := d.extractLsb' 0 8 } }
  | .syncThr => { s with regs := { s.regs with syncThr := d } }
  | .id | .syncLag | .syncPeak | .ckResult => s

/-- The `n` low bytes of bus data, byte t being bits [8t+7 : 8t] (20_memory.md R65). -/
def dataBytes (n : Nat) (d : Word) : List Byte := (List.range n).map (fun t => d.extractLsb' (8 * t) 8)

/-- The bus data of some bytes, the first in bits [7:0]; the bits above them are 0 (20_memory.md R65; log 14). -/
def wordOfBytes : List Byte → Word
  | [] => 0
  | b :: bs => (wordOfBytes bs <<< 8) ||| b.setWidth 32

/-- The low 8n bits of a word. -/
def lowBytes (size : Size) (d : Word) : Word := wordOfBytes (dataBytes size.bytes d)

/-- The data of a read that ends OKAY (20_memory.md R62, R63). -/
def State.readLoc (s : State) (size : Size) (a : Nat) : Loc → Word
  | .reg r => s.readReg r
  | .buf _ => wordOfBytes (s.bytesAt a size.bytes)

/-- The data of a read of the running command's write set: a free value (20_memory.md R73; log 2), of which a
register's reserved bits read as 0 (10_state.md R37). -/
def State.drawLoc (s : State) (size : Size) : Loc → Word
  | .reg r => Config.drawRead s.drawCount &&& r.fields
  | .buf _ => lowBytes size (Config.drawRead s.drawCount)

/-- One host read: the response, and the state, in which no more than the draw counter changes (20_memory.md R70).
A read of the running command's write set takes a free value (R73; log 2). -/
def hostRead (s : State) (size : Size) (a : Nat) : Reply × State :=
  match accessCause size a, locate a with
  | none, some l =>
    if l ∈ s.runningWriteSet then
      (.readOkay (s.drawLoc size l), { s with drawCount := s.drawCount + 1 })
    else (.readOkay (s.readLoc size a l), s)
  | _, _ => (.readError 0, s)

/-- One host write: the response, and the state, unchanged if the write ends in a bus error (60_exceptions.md
R190). -/
def hostWrite (s : State) (size : Size) (a : Nat) (d : Word) : Reply × State :=
  match writeCause s size a d, locate a with
  | none, some (.reg r) => (.writeOkay, s.writeReg r d)
  | none, some (.buf _) => (.writeOkay, s.storeBytes a (dataBytes size.bytes d))
  | _, _ => (.writeError, s)

/-- The data a reply carries to the host; an error reads as 0 (20_memory.md R69). -/
def Reply.data : Reply → Word
  | .readOkay d => d
  | .readError d => d
  | .writeOkay => 0
  | .writeError => 0

/-- The host's move on one line of its program: the access, its response, and what is left of the program. A POLL
makes one read and stays until the read ends it (30_encoding.md R102; log 15). -/
def hostAccess (s : State) (op : HostOp) (rest : List HostOp) : State :=
  match op with
  | .read size a => { (hostRead s size a).2 with reply := some (hostRead s size a).1, host := rest }
  | .write size a d => { (hostWrite s size a d).2 with reply := some (hostWrite s size a d).1, host := rest }
  | .poll a mask value =>
    { (hostRead s .four a).2 with
      reply := some (hostRead s .four a).1
      host := if (hostRead s .four a).1.data &&& mask = value then rest else op :: rest }

end Sys2Proof.Machine
end

