-- ==== Sys2Proof/Machine/Agents.lean ====
section
/-! DEFINITION. Who moves and what the move is (00_scope.md R12, 43_sequencing.md R172, R180). -/

namespace Sys2Proof.Machine

/-- What the next step of the machine does. -/
inductive Move where
  /-- The sequencer completes the command `i` from the state `s` (43_sequencing.md R172). -/
  | command (i : Instr) (s : State)
  /-- Any other move, already made. -/
  | made (r : Result)
  deriving Repr

/-- The sequencer's turn: its one enabled step while BUSY, the completion (43_sequencing.md R172). An illegal OP
completes with ILLEGAL_OP and no other effect (R177). IDLE, it has no step. -/
def sequencerMove (s : State) : Move :=
  match s.seq with
  | .idle => .made (.next s)
  | .busy op =>
    match decodeOp op with
    | .ok i => .command i s
    | .error _ => .made (.next (complete (.raise .illegalOp s)))

/-- The host's turn: its next access. While RST_N = 0 the platform keeps the host off the bus
(70_reset_and_hazards.md R220; log 8). A host with nothing to do makes no access (60_exceptions.md R209). -/
def hostMove (s : State) : Move :=
  match s.host with
  | [] => .made (.next s)
  | op :: rest =>
    if !s.rstN then .made (.next s)
    else if op.inBlockSpace then .made (.next (hostAccess s op rest))
    else .made (.fault (.outsideBlockSpace op.addr))

/-- The move of a turn. RST_N at 0 holds the block in reset, and its rise leaves the state of a hardware reset
(70_reset_and_hazards.md R220). -/
def moveOf (t : Turn) (s : State) : Move :=
  match t with
  | .host => hostMove s
  | .sequencer => sequencerMove s
  | .resetLow => .made (.next (s.hardReset false))
  | .resetHigh => .made (.next (if s.rstN then s else s.hardReset true))

/-- Whose turn it is: the scheduler's next choice; when it has none left, the sequencer if BUSY, else the host
(43_sequencing.md R180; log 4). -/
def turnOf (s : State) : Turn :=
  match s.turns with
  | t :: _ => t
  | [] => if s.busy then .sequencer else .host

/-- The next move, the scheduler's choice taken off its list. -/
def nextMove (s : State) : Move := moveOf (turnOf s) { s with turns := s.turns.tail }

/-- The state in which a CMD write of the word has just been accepted (43_sequencing.md R170) and the scheduler
lets the sequencer move next, RST_N being 1. -/
def placeCommand (s : State) (w : Word) : State :=
  { s.accept (w.extractLsb' 0 8) with rstN := true, turns := .sequencer :: s.turns }

end Sys2Proof.Machine
end

