-- ==== Sys2Proof/Machine/Checksum.lean ====
section
/-! DEFINITION. The additive checksum and the commands CKSUM and CKCHK (42_checksum.md). -/

namespace Sys2Proof.Machine

/-- Checksum(s) = popcount(s) mod 256 (42_checksum.md R160). -/
def checksum (bs : List Bool) : Byte := BitVec.ofNat 8 (bs.count true)

/-- `CK_RESULT <- c`. -/
def State.setCkResult (s : State) (c : Byte) : State := { s with regs := { s.regs with ckResult := c } }

/-- `STATUS.CK_OK <- ok`. -/
def State.setCkOk (s : State) (ok : Bool) : State := { s with regs := { s.regs with ckOk := ok } }

/-- The body of CKSUM (42_checksum.md R161). -/
def cksumBody (s : State) : State := s.setCkResult (checksum (s.bits s.regs.bitlen.toNat))

/-- The body of CKCHK (42_checksum.md R162). -/
def ckchkBody (s : State) : State :=
  let n := s.regs.bitlen.toNat
  if n < 8 then s.setCkResult 0
  else
    let c := checksum ((s.bits n).take (n - 8))
    (s.setCkResult c).setCkOk (c == byteOfBits ((s.bits n).drop (n - 8)))

/-- CKSUM (0x20), 42_checksum.md R161. -/
def execCksum (s : State) : Result := .next (complete (.done (cksumBody s)))

/-- CKCHK (0x21), 42_checksum.md R162. -/
def execCkchk (s : State) : Result := .next (complete (.done (ckchkBody s)))

end Sys2Proof.Machine
end

