-- ==== Sys2Proof/Machine/Frame.lean ====
section
/-! DEFINITION. The frame formatter and deserializer: SER and PARSE (41_frame.md), over the layout of
30_encoding.md R96. -/

namespace Sys2Proof.Machine

/-- Header and payload of the frame in the frame registers, 40 + 8·LEN bits (41_frame.md R140). -/
def frameBody (s : State) : List Bool :=
  msb8 s.regs.src ++ msb8 s.regs.dst ++ msb8 s.regs.typ ++ msb8 s.regs.sqn ++ msb8 s.regs.len
    ++ (s.pays s.regs.len.toNat).flatMap msb8

/-- `FRAME_LC.CHK <- c`. -/
def State.setChk (s : State) (c : Byte) : State := { s with regs := { s.regs with chk := c } }

/-- The body of SER (41_frame.md R140). -/
def serBody (s : State) : State :=
  let body := frameBody s
  let ck := checksum body
  ((s.writeBits (body ++ msb8 ck)).setBitlen (48 + 8 * s.regs.len.toNat)).setChk ck

/-- The declared payload length of the frame in the bit buffer, Byte(4). -/
def declaredLen (s : State) : Byte := s.bitByte 4

/-- Checksum(Bits(0, 40 + 8·len)) for the declared length. -/
def bodyChecksum (s : State) : Byte := checksum (s.bits (40 + 8 * (declaredLen s).toNat))

/-- The three checks of PARSE (41_frame.md R141, R142): long enough, the declared payload inside the available
bits, and the checksum field. -/
def frameGood (s : State) : Bool :=
  decide (48 ≤ s.regs.bitlen.toNat)
    && decide (48 + 8 * (declaredLen s).toNat ≤ s.regs.bitlen.toNat)
    && bodyChecksum s == s.bitByte (5 + (declaredLen s).toNat)

/-- The registers loaded from a well-formed frame (41_frame.md R141). -/
def Regs.loadFrame (r : Regs) (src dst typ sqn len chk : Byte) : Regs :=
  { r with src := src, dst := dst, typ := typ, sqn := sqn, len := len, chk := chk, frameOk := true }

/-- What PARSE does with a well-formed frame (41_frame.md R141). -/
def loadFrame (s : State) : State :=
  ({ s with
      regs := s.regs.loadFrame (s.bitByte 0) (s.bitByte 1) (s.bitByte 2) (s.bitByte 3) (declaredLen s)
                (bodyChecksum s) }).writePays (s.bytesAt 0x205 (declaredLen s).toNat)

/-- The body of PARSE (41_frame.md R141): a frame that fails a check changes nothing (R144). -/
def parseBody (s : State) : State := if frameGood s then loadFrame s else s

/-- SER (0x10), 41_frame.md R140. -/
def execSer (s : State) : Result := .next (complete (.done (serBody s)))

/-- PARSE (0x11), 41_frame.md R141. -/
def execParse (s : State) : Result := .next (complete (.done (parseBody s)))

end Sys2Proof.Machine
end

