-- ==== Sys2Proof/Machine/Carrier.lean ====
section
/-! DEFINITION. The carrier tables of 40_modem.md R112 in exact integer arithmetic (log 10).

An entry is rnd14 of sin or cos of 2π·m/D. The turn is cut into eight parts; on the part from 0 to π/4 the value is
a Taylor polynomial (degree 11 for sin, 12 for cos) at π/2·r/D with π taken to 20 decimals. Its distance from the
exact value, below 10^-11, is far smaller than the distance of any entry to a rounding tie (93 K1). -/

namespace Sys2Proof.Machine

/-- π · 10^20, rounded down. -/
def piScaled : Nat := 314159265358979323846

/-- The numerator of the angle π/2·r/D over the denominator `angleDen D`. -/
def angleNum (r : Nat) : Int := piScaled * r

/-- 2·D·10^20. -/
def angleDen (D : Nat) : Int := 2 * D * 100000000000000000000

/-- 11!·b^11 · (x − x^3/3! + x^5/5! − x^7/7! + x^9/9! − x^11/11!) for x = a/b. -/
def sinNum (a b : Int) : Int :=
  let A := a * a
  let B := b * b
  a * (39916800 * (B * B * B * B * B) - A * (6652800 * (B * B * B * B) - A * (332640 * (B * B * B)
    - A * (7920 * (B * B) - A * (110 * B - A)))))

/-- 11!·b^11. -/
def sinDen (b : Int) : Int := 39916800 * (b * b * b * b * b * b * b * b * b * b * b)

/-- 12!·b^12 · (1 − x^2/2! + x^4/4! − x^6/6! + x^8/8! − x^10/10! + x^12/12!) for x = a/b. -/
def cosNum (a b : Int) : Int :=
  let A := a * a
  let B := b * b
  479001600 * (B * B * B * B * B * B) - A * (239500800 * (B * B * B * B * B) - A * (19958400 * (B * B * B * B)
    - A * (665280 * (B * B * B) - A * (11880 * (B * B) - A * (132 * B - A)))))

/-- 12!·b^12. -/
def cosDen (b : Int) : Int := 479001600 * (b * b * b * b * b * b * b * b * b * b * b * b)

/-- rnd14 of a nonnegative fraction: floor(num/den · 2^14 + 1/2) (40_modem.md R111). -/
def rnd14 (num den : Int) : Int := (32768 * num + den) / (2 * den)

/-- rnd14 of sin(π/2·r/D), for 2r ≤ D. -/
def sinPart (r D : Nat) : Int := rnd14 (sinNum (angleNum r) (angleDen D)) (sinDen (angleDen D))

/-- rnd14 of cos(π/2·r/D), for 2r ≤ D. -/
def cosPart (r D : Nat) : Int := rnd14 (cosNum (angleNum r) (angleDen D)) (cosDen (angleDen D))

/-- rnd14 of sin(π/2·r/D), for r ≤ D. -/
def sinQuarter (r D : Nat) : Int := if 2 * r ≤ D then sinPart r D else cosPart (D - r) D

/-- rnd14 of cos(π/2·r/D), for r ≤ D. -/
def cosQuarter (r D : Nat) : Int := if 2 * r ≤ D then cosPart r D else sinPart (D - r) D

/-- rnd14 of sin(2π·m/D): 4m = q·D + r puts the angle in quarter q at π/2·r/D. rnd14 is odd (40_modem.md R111). -/
def sinTurn (m D : Nat) : Int :=
  match 4 * m / D % 4 with
  | 0 => sinQuarter (4 * m % D) D
  | 1 => cosQuarter (4 * m % D) D
  | 2 => -sinQuarter (4 * m % D) D
  | _ => -cosQuarter (4 * m % D) D

/-- rnd14 of cos(2π·m/D). -/
def cosTurn (m D : Nat) : Int :=
  match 4 * m / D % 4 with
  | 0 => cosQuarter (4 * m % D) D
  | 1 => -sinQuarter (4 * m % D) D
  | 2 => -cosQuarter (4 * m % D) D
  | _ => sinQuarter (4 * m % D) D

/-- Sin_c[k] at N samples per bit (40_modem.md R112). -/
def sinEntry (c N k : Nat) : Int := sinTurn (c * k) N

/-- Cos_c[k] at N samples per bit (40_modem.md R112). -/
def cosEntry (c N k : Nat) : Int := cosTurn (c * k) N

/-- Sin_c[0..N−1]. -/
def sinTable (c N : Nat) : List Int := (List.range N).map (sinEntry c N)

/-- Cos_c[0..N−1]. -/
def cosTable (c N : Nat) : List Int := (List.range N).map (cosEntry c N)

end Sys2Proof.Machine
end

