-- ==== Sys2Proof/Machine/Modem.lean ====
section
/-! DEFINITION. The modem commands MOD and DEMOD (40_modem.md). -/

namespace Sys2Proof.Machine

/-- Seg(sch, b): the N samples of one bit (40_modem.md R113). -/
def seg (sch : Scheme) (N : Nat) (b : Bool) : List Int :=
  match sch, b with
  | .ask, true => List.replicate N (Config.one : Int)
  | .ask, false => List.replicate N (-(Config.one : Int))
  | .fsk, true => sinTable 2 N
  | .fsk, false => sinTable 1 N
  | .bpsk, true => sinTable 2 N
  | .bpsk, false => (sinTable 2 N).map (fun v => -v)

/-- Segments one after another, given the two segments of a scheme. -/
def joinSegs (one zero : List Int) (bs : List Bool) : List Int := bs.flatMap (fun b => if b then one else zero)

/-- Wave(sch, bits) (40_modem.md R115). -/
def wave (sch : Scheme) (N : Nat) (bs : List Bool) : List Int := joinSegs (seg sch N true) (seg sch N false) bs

/-- P = Wave(sch, PRE) (40_modem.md R114). -/
def preambleWave (sch : Scheme) (N : Nat) : List Int := wave sch N Config.preamble

/-- The body of MOD (40_modem.md R116): CAPACITY before any write, else the waveform and its length. -/
def modBody (s : State) : BodyEnd :=
  let len := (Config.preambleLen + s.regs.bitlen.toNat) * s.n
  if Config.sampCap < len then .raise .capacity s
  else .done ((s.writeSamps (wave s.regs.scheme s.n (Config.preamble ++ s.bits s.regs.bitlen.toNat))).setSamplen len)

/-- The sum of products of two sequences, over the length of the shorter one. -/
def dot : List Int → List Int → Int
  | x :: xs, y :: ys => x * y + dot xs ys
  | _, _ => 0

/-- C(0), ..., C(lags − 1): the correlations of `P` with the received samples (40_modem.md R118). -/
def correlations (P : List Int) : (lags : Nat) → (r : List Int) → List Int
  | 0, _ => []
  | lags + 1, r => dot r P :: correlations P lags r.tail

/-- The best (lag, correlation) of a list that starts at `lag`, `best` being the best before it: a later lag wins
only by a larger magnitude (40_modem.md R119). -/
def peakFrom : (lag : Nat) → (best : Nat × Int) → List Int → Nat × Int
  | _, best, [] => best
  | lag, best, c :: cs => peakFrom (lag + 1) (if best.2.natAbs < c.natAbs then (lag, c) else best) cs

/-- (Ls, C(Ls)): the smallest lag of the largest magnitude (40_modem.md R119). -/
def peak : List Int → Nat × Int
  | [] => (0, 0)
  | c :: cs => peakFrom 1 (0, c) cs

/-- Σ s[k] (40_modem.md R122). -/
def sumSamples (xs : List Int) : Int := xs.foldr (fun x acc => x + acc) 0

/-- E_c = I_c^2 + Q_c^2 (40_modem.md R124). -/
def energy (c N : Nat) (xs : List Int) : Int :=
  dot xs (sinTable c N) * dot xs (sinTable c N) + dot xs (cosTable c N) * dot xs (cosTable c N)

/-- Decide(sch, s) for one segment (40_modem.md R122 to R124); a tie decides 0. -/
def decideBit (sch : Scheme) (N : Nat) (xs : List Int) : Bool :=
  match sch with
  | .ask => decide (0 < sumSamples xs)
  | .bpsk => decide (0 < dot xs (sinTable 2 N))
  | .fsk => decide (energy 1 N xs < energy 2 N xs)

/-- The first `nb` whole segments of N samples (40_modem.md R121). -/
def segments (N : Nat) : (nb : Nat) → List Int → List (List Int)
  | 0, _ => []
  | nb + 1, xs => xs.take N :: segments N nb (xs.drop N)

/-- The global polarity correction (40_modem.md R125): BPSK with a negative peak inverts every bit. -/
def correctPolarity (sch : Scheme) (neg : Bool) (bs : List Bool) : List Bool :=
  if sch = .bpsk ∧ neg then bs.map not else bs

/-- The decided bits of the `nb` segments of `data` (40_modem.md R121 to R125). -/
def demodBits (sch : Scheme) (N : Nat) (neg : Bool) (nb : Nat) (data : List Int) : List Bool :=
  correctPolarity sch neg ((segments N nb data).map (decideBit sch N))

/-- The registers after a DEMOD that finds no preamble: SYNC_LAG 0, SYNC_PEAK `p` (40_modem.md R117). -/
def Regs.syncFailed (r : Regs) (p : Nat) : Regs :=
  { r with syncLag := 0, syncPeak := BitVec.ofNat 32 p }

/-- The registers after a DEMOD that finds the preamble (40_modem.md R117). -/
def Regs.synced (r : Regs) (p lag : Nat) (neg ovf : Bool) : Regs :=
  { r with syncLag := BitVec.ofNat 16 lag, syncPeak := BitVec.ofNat 32 p, syncOk := true, peakNeg := neg,
           bitOvf := ovf }

/-- DEMOD's result when the preamble is located at `lag` with correlation `c` in the samples `r`
(40_modem.md R117, R121 to R126). -/
def demodAt (s : State) (r : List Int) (lag : Nat) (c : Int) : State :=
  let start := lag + Config.preambleLen * s.n
  let nb := (s.regs.samplen.toNat - start) / s.n
  let d := demodBits s.regs.scheme s.n (decide (c < 0)) nb (r.drop start)
  (({ s with regs := s.regs.synced (c.natAbs / 2 ^ Config.sampleFraction) lag (decide (c < 0))
                                    (decide (Config.bitCap < nb)) }).writeBits (d.take Config.bitCap)).setBitlen
    (min nb Config.bitCap)

/-- DEMOD's result when synchronization fails with SYNC_PEAK `p` (40_modem.md R117). -/
def demodFailed (s : State) (p : Nat) : State := ({ s with regs := s.regs.syncFailed p }).setBitlen 0

/-- The body of DEMOD (40_modem.md R117). It never raises. -/
def demodBody (s : State) : State :=
  let M := s.regs.samplen.toNat
  let r := s.samps M
  if M < Config.preambleLen * s.n then demodFailed s 0
  else
    let best := peak (correlations (preambleWave s.regs.scheme s.n) (M - Config.preambleLen * s.n + 1) r)
    if best.2.natAbs < s.regs.syncThr.toNat * 2 ^ Config.sampleFraction then
      demodFailed s (best.2.natAbs / 2 ^ Config.sampleFraction)
    else demodAt s r best.1 best.2

/-- MOD (0x01), 40_modem.md R116. -/
def execMod (s : State) : Result := .next (complete (modBody s))

/-- DEMOD (0x02), 40_modem.md R117. -/
def execDemod (s : State) : Result := .next (complete (.done (demodBody s)))

end Sys2Proof.Machine
end

