-- ==== Sys2Proof/Machine/Sequencing.lean ====
section
/-! DEFINITION. NOP and the composite commands TX and RX (43_sequencing.md). -/

namespace Sys2Proof.Machine

/-- NOP (0x00), 43_sequencing.md R174. -/
def execNop (s : State) : Result := .next (complete (.done s))

/-- TX (0x30), 43_sequencing.md R175: the body of SER, then the body of MOD on the BITLEN just written. On CAPACITY
the SER part's writes stand. -/
def execTx (s : State) : Result := .next (complete (modBody (serBody s)))

/-- RX (0x31), 43_sequencing.md R176: the body of DEMOD, then always the body of PARSE. -/
def execRx (s : State) : Result := .next (complete (.done (parseBody (demodBody s))))

end Sys2Proof.Machine
end

