-- ==== Sys2Proof/Machine/Dispatch.lean ====
section
/-! DEFINITION. One arm per command: its completion step (43_sequencing.md R172). -/

namespace Sys2Proof.Machine

def exec (i : Instr) (s : State) : Host.Outcome State Fault Refusal :=
  match i with
  | .nop => Sys2Proof.Machine.execNop s
  | .mod => Sys2Proof.Machine.execMod s
  | .demod => Sys2Proof.Machine.execDemod s
  | .ser => Sys2Proof.Machine.execSer s
  | .parse => Sys2Proof.Machine.execParse s
  | .cksum => Sys2Proof.Machine.execCksum s
  | .ckchk => Sys2Proof.Machine.execCkchk s
  | .tx => Sys2Proof.Machine.execTx s
  | .rx => Sys2Proof.Machine.execRx s

end Sys2Proof.Machine
end

