-- ==== Sys2Proof/Machine/Step.lean ====
section
/-! DEFINITION. One step of the block and its environment, and placing a command where the next step runs it. -/

namespace Sys2Proof.Machine

/-- One step: a host access, a completion, or an edge of RST_N (20_memory.md R72, R77). -/
def step (s : State) : Host.Outcome State Fault Refusal :=
  match nextMove s with
  | .command i s' => exec i s'
  | .made r => r

/-- `s` with the instruction of the table bits `w` accepted and about to complete: the sequencer holds its OP
(10_state.md R43), acceptance has been made (43_sequencing.md R170, R173), and it is the sequencer's turn (log 5). -/
def State.withFetchWord (s : State) (nbits w : Nat) : State := placeCommand s (BitVec.ofNat 32 (w % 2 ^ nbits))

end Sys2Proof.Machine
end

