-- ==== Sys2Proof/Safety.lean ====
section
/-! DEFINITION. The terms the statements use: legal states, the invariant, and the spec's modem formulas written
sample by sample. -/

namespace Sys2Proof.Machine

/-! Legal states. -/

/-- The buffers are in canonical form. -/
abbrev State.MemWf (s : State) : Prop := s.mem.wf = true

/-- The registers hold only legal values: N (10_state.md R23), BITLEN (R29), SAMPLEN (R30), the produced error
codes (60_exceptions.md R196), the largest lag and peak (10_state.md R34, R35), and PEAK_NEG and BIT_OVF only beside
SYNC_OK (40_modem.md R117). -/
abbrev Regs.Legal (r : Regs) : Prop :=
  1 ≤ r.spb.toNat ∧ r.spb.toNat ≤ 256 ∧ r.bitlen.toNat ≤ 4096 ∧ r.samplen.toNat ≤ 65536 ∧ r.err.toNat ≤ 2 ∧
    r.syncLag.toNat ≤ 65528 ∧ r.syncPeak.toNat ≤ 67108864 ∧ (r.peakNeg = true → r.syncOk = true) ∧
    (r.bitOvf = true → r.syncOk = true)

/-- The flags that acceptance clears are 0 (43_sequencing.md R173). -/
abbrev Regs.FlagsClear (r : Regs) : Prop :=
  r.done = false ∧ r.err = 0 ∧ r.syncOk = false ∧ r.peakNeg = false ∧ r.bitOvf = false ∧ r.frameOk = false ∧
    r.ckOk = false

/-- The invariant of the block: canonical buffers, legal registers, cleared flags while BUSY (20_memory.md R73), and
no command while RST_N = 0 (70_reset_and_hazards.md R220). -/
abbrev State.Inv (s : State) : Prop :=
  s.MemWf ∧ s.regs.Legal ∧ (s.busy = true → s.regs.FlagsClear) ∧ (s.rstN = false → s.busy = false)

/-- Every access the host still has to make lies in the block space (20_memory.md R60). -/
abbrev State.HostInSpace (s : State) : Prop := s.host.all HostOp.inBlockSpace = true

/-- The host is about to make the access `op`, and has `rest` left after it. -/
abbrev State.HostAbout (s : State) (op : HostOp) (rest : List HostOp) : Prop :=
  turnOf s = .host ∧ s.rstN = true ∧ s.host = op :: rest

/-- The state after a host access that leaves the block itself as `s` has it: the access is done, and answered. -/
def State.answered (s : State) (rest : List HostOp) (r : Reply) : State :=
  { s with turns := s.turns.tail, host := rest, reply := some r }

/-! The modem, sample by sample. -/

/-- Seg(sch, b)[k] at N samples per bit (40_modem.md R113). -/
def segSample (sch : Scheme) (N : Nat) (b : Bool) (k : Nat) : Int :=
  match sch, b with
  | .ask, true => 16384
  | .ask, false => -16384
  | .fsk, true => sinEntry 2 N k
  | .fsk, false => sinEntry 1 N k
  | .bpsk, true => sinEntry 2 N k
  | .bpsk, false => -sinEntry 2 N k

/-- P[k], the preamble 1,0,1,0,1,0,1,0 (40_modem.md R114, R115). -/
def refSample (sch : Scheme) (N k : Nat) : Int := segSample sch N (k / N % 2 == 0) (k % N)

/-- C(L) of the sample buffer (40_modem.md R118). -/
def State.corr (s : State) (L : Nat) : Int :=
  ∑ k ∈ Finset.range (8 * s.n), s.samp (L + k) * refSample s.regs.scheme s.n k

/-- L is the smallest lag of the largest |C| (40_modem.md R119). -/
def State.IsPeak (s : State) (L : Nat) : Prop :=
  L + 8 * s.n ≤ s.regs.samplen.toNat ∧
    (∀ m, m + 8 * s.n ≤ s.regs.samplen.toNat → (s.corr m).natAbs ≤ (s.corr L).natAbs) ∧
    ∀ m, m < L → (s.corr m).natAbs < (s.corr L).natAbs

/-- Σ over the N samples from `a` of s[k]·w(k). -/
def State.inner (s : State) (a : Nat) (w : Nat → Int) : Int := ∑ k ∈ Finset.range s.n, s.samp (a + k) * w k

/-- E_c of the N samples from `a` (40_modem.md R124). -/
def State.energyAt (s : State) (a c : Nat) : Int :=
  s.inner a (sinEntry c s.n) ^ 2 + s.inner a (cosEntry c s.n) ^ 2

/-- The bit of the N samples from `a`, `neg` being C(Ls) < 0 (40_modem.md R122 to R125). -/
def State.bitAt (s : State) (neg : Bool) (a : Nat) : Bool :=
  match s.regs.scheme with
  | .ask => decide (0 < s.inner a (fun _ => 1))
  | .fsk => decide (s.energyAt a 1 < s.energyAt a 2)
  | .bpsk => decide (0 < s.inner a (sinEntry 2 s.n)) != neg

/-- The number of 1 bits among Bit(0), ..., Bit(n − 1). -/
def State.ones (s : State) (n : Nat) : Nat := (List.range n).countP s.bit

end Sys2Proof.Machine
end

