-- ==== Sys2Proof/Certificates/Slice0/Obligations.lean ====
section
/-! DEFINITION. The statements about the block. Every free value (the draws of Config) stays free in them. -/

open Sys2Proof Sys2Proof.Machine

/-! Encoding. -/

/-- A word decodes to a command exactly when its bits [7:0] are that command's OP, whatever bits [31:8] are, and the
bytes of every such word, in the bus's order, decode to it (30_encoding.md R90 to R92). -/
def Obligations.DecodeReadsExactlyTheOpByte : Prop :=
  (∀ (w : Word) (i : Instr), decode w = .ok i ↔ w.extractLsb' 0 8 = opcode i) ∧
    ∀ (i : Instr) (ignored : BitVec 24), i.wellFormed = true →
      decode (encodeWith ignored i) = .ok i ∧ decodeBytes (wordBytes (encodeWith ignored i)) = .ok i

/-- The rejected words are those whose OP is one of the 247 values of 30_encoding.md R93. -/
def Obligations.IllegalOpcodesAreTheOtherValues : Prop :=
  ∀ w : Word, (∃ r, decode w = .error r) ↔
    (0x03 ≤ w.toNat % 256 ∧ w.toNat % 256 ≤ 0x0F) ∨ (0x12 ≤ w.toNat % 256 ∧ w.toNat % 256 ≤ 0x1F) ∨
      (0x22 ≤ w.toNat % 256 ∧ w.toNat % 256 ≤ 0x2F) ∨ 0x32 ≤ w.toNat % 256

/-- A few command words, bits [31:8] set among them, decode to the commands of 30_encoding.md R92. -/
def Obligations.SampleCommandWordsDecode : Prop :=
  decode 0x00000000 = .ok .nop ∧ decode 0xFFFFFF01 = .ok .mod ∧ decode 0x00000010 = .ok .ser ∧
    decode 0x12345621 = .ok .ckchk ∧ decode 0x00000031 = .ok .rx

/-! Sequencing. -/

/-- At the sequencer's turn a step runs the command whose OP it holds, the scheduler's choice taken off
(43_sequencing.md R172). -/
def Obligations.StepRunsDecodedCommand : Prop :=
  ∀ (s : State) (op : BitVec 8) (i : Instr), s.seq = .busy op → decodeOp op = .ok i → i.wellFormed = true →
    turnOf s = .sequencer → step s = exec i { s with turns := s.turns.tail }

/-- An illegal OP completes with ERR = 1 and DONE = 1 and changes nothing else; with the flags acceptance leaves,
STATUS reads 0x6, or 0x26 with OVR (43_sequencing.md R177). -/
def Obligations.IllegalCommandCompletesWithError : Prop :=
  ∀ (s : State) (op : BitVec 8) (r : Reject), s.seq = .busy op → decodeOp op = .error r →
    turnOf s = .sequencer → ∃ t, step s = .next t ∧
      t = { s with turns := s.turns.tail, seq := .idle, regs := { s.regs with done := true, err := 1 } } ∧
      (s.regs.FlagsClear → t.readReg .status = if s.regs.ovr then 0x26 else 0x6)

/-- A CMD write while IDLE is accepted: OKAY, BUSY(w[7:0]), the flag clears, and nothing else (43_sequencing.md
R170, R173). -/
def Obligations.CommandWriteAcceptedWhenIdle : Prop :=
  ∀ (s : State) (w : Word) (rest : List HostOp), s.HostAbout (.write .four 0x00C w) rest → s.seq = .idle →
    ∃ t, step s = .next t ∧
      t = { s.answered rest .writeOkay with
              seq := .busy (w.extractLsb' 0 8)
              regs := { s.regs with done := false, err := 0, syncOk := false, peakNeg := false, bitOvf := false,
                                    frameOk := false, ckOk := false } } ∧
      t.readReg .status = if s.regs.ovr then 0x21 else 0x1

/-- A CMD write while BUSY ends OKAY, is dropped, and sets OVR; the running command stays (43_sequencing.md R179). -/
def Obligations.CommandWriteDroppedWhileBusy : Prop :=
  ∀ (s : State) (op : BitVec 8) (w : Word) (rest : List HostOp),
    s.HostAbout (.write .four 0x00C w) rest → s.seq = .busy op →
    step s = .next { s.answered rest .writeOkay with regs := { s.regs with ovr := true } }

/-- A running command is over within as many steps as the scheduler has choices left, and one more: weak fairness of
the sequencer is the finite list of turns (43_sequencing.md R180; log 4). -/
def Obligations.RunningCommandEnds : Prop :=
  ∀ (s : State) (op : BitVec 8), s.seq = .busy op → s.HostInSpace →
    ∃ k, k ≤ s.turns.length + 1 ∧ ∃ t : State, Sys2Proof.core.run k s = .next t ∧ t.seq = .idle

/-- A step stops exactly when the host names an offset outside the block space, and it never refuses
(20_memory.md R61; log 7). -/
def Obligations.StepStopsOnlyOutsideBlockSpace : Prop :=
  ∀ s : State, (∀ r, step s ≠ .refused r) ∧
    ∀ a, step s = .fault (.outsideBlockSpace a) ↔
      ∃ op rest, s.HostAbout op rest ∧ op.addr = a ∧ 262144 ≤ a

/-- Reset meets the invariant. -/
def Obligations.ResetMeetsInvariant : Prop := State.reset.Inv

/-- Every step keeps the invariant: buffers in canonical form, N in 1..256, BITLEN at most 4096, SAMPLEN at most
65536, ERR at most 2, SYNC_LAG at most 65528, SYNC_PEAK at most 2^26, PEAK_NEG and BIT_OVF only beside SYNC_OK,
cleared flags while BUSY, no command while RST_N = 0. -/
def Obligations.StepKeepsInvariant : Prop := ∀ s t : State, s.Inv → step s = .next t → t.Inv

/-- Every command completes, is IDLE afterwards, and changes no register but STATUS and no buffer that are not in its
write set; OVR and everything outside registers and buffers stay (43_sequencing.md R172, R178). -/
def Obligations.CommandChangesOnlyItsWriteSet : Prop :=
  ∀ (i : Instr) (s : State), ∃ t, exec i s = .next t ∧ t.seq = .idle ∧ t.regs.done = true ∧
    t.regs.ovr = s.regs.ovr ∧
    (∀ r : RegName, r ≠ .status → Loc.reg r ∉ writeSet i → t.readReg r = s.readReg r) ∧
    (∀ (b : Buffer) (a : Nat), Loc.buf b ∉ writeSet i → b.holds a = true → t.byteAt a = s.byteAt a) ∧
    t = { s with seq := .idle, regs := t.regs, mem := t.mem }

/-- The error code of a completion: 1 exactly for an illegal OP, 2 exactly for a MOD or TX whose waveform does not fit,
else 0 (60_exceptions.md R196). -/
def Obligations.CommandErrorCodesAreTheThree : Prop :=
  ∀ (s t : State) (op : BitVec 8), s.seq = .busy op → turnOf s = .sequencer → step s = .next t →
    (t.regs.err = 1 ↔ ∃ r, decodeOp op = .error r) ∧
    (t.regs.err = 2 ↔ (op = 0x01 ∧ 65536 < (8 + s.regs.bitlen.toNat) * s.n) ∨
      (op = 0x30 ∧ 65536 < (56 + 8 * s.regs.len.toNat) * s.n)) ∧
    (t.regs.err = 0 ∨ t.regs.err = 1 ∨ t.regs.err = 2)

/-- A command reads no more than its operands: from two states with the same registers that agree on Pay(0..LEN−1),
Bit(0..BITLEN−1) and Samp(0..SAMPLEN−1), every command leaves the same registers, and agreement on those ranges under
the new lengths. So no result depends on a byte that nothing has written and no length covers
(70_reset_and_hazards.md R222, R231). -/
def Obligations.CommandsReadOnlyTheirOperands : Prop :=
  ∀ (i : Instr) (s s' t t' : State), s.MemWf → s'.MemWf → s'.regs = s.regs →
    (∀ k, k < s.regs.len.toNat → s'.pay k = s.pay k) → (∀ j, j < s.regs.bitlen.toNat → s'.bit j = s.bit j) →
    (∀ j, j < s.regs.samplen.toNat → s'.samp j = s.samp j) → exec i s = .next t → exec i s' = .next t' →
    t'.regs = t.regs ∧ (∀ k, k < t.regs.len.toNat → t'.pay k = t.pay k) ∧
      (∀ j, j < t.regs.bitlen.toNat → t'.bit j = t.bit j) ∧ ∀ j, j < t.regs.samplen.toNat → t'.samp j = t.samp j

/-- No step that leaves the running command running changes what a command reads: the configuration, the lengths, the
frame registers, the threshold and the buffers (43_sequencing.md R171). -/
def Obligations.RunningCommandInputsStay : Prop :=
  ∀ s t : State, s.busy = true → step s = .next t → t.seq = s.seq →
    t.regs.scheme = s.regs.scheme ∧ t.regs.spb = s.regs.spb ∧ t.regs.bitlen = s.regs.bitlen ∧
      t.regs.samplen = s.regs.samplen ∧ t.regs.frameHdrWord = s.regs.frameHdrWord ∧
      t.regs.frameLcWord = s.regs.frameLcWord ∧ t.regs.syncThr = s.regs.syncThr ∧ ∀ a, t.byteAt a = s.byteAt a

/-! Host accesses. -/

/-- A write inside the block space ends in a bus error exactly for the causes BE1 to BE7, written with their offsets
and data (60_exceptions.md R191). -/
def Obligations.WriteBusErrorsAreTheSevenCauses : Prop :=
  ∀ (s : State) (size : Size) (a : Nat) (d : Word), a < 262144 →
    ((hostWrite s size a d).1 = .writeError ↔
      ((0x038 ≤ a ∧ a ≤ 0x0FF) ∨ (0x00400 ≤ a ∧ a ≤ 0x1FFFF)) ∨
      (a ≤ 0x037 ∧ size ≠ .four) ∨
      a % size.bytes ≠ 0 ∨
      (a = 0x000 ∨ a = 0x02C ∨ a = 0x030 ∨ a = 0x034) ∨
      (s.busy = true ∧ (a = 0x004 ∨ a = 0x018 ∨ a = 0x01C ∨ a = 0x020 ∨ a = 0x024 ∨ a = 0x028 ∨ 0x100 ≤ a)) ∨
      (a = 0x004 ∧ (d.toNat % 4 = 3 ∨ d.toNat / 2 ^ 16 % 512 = 0 ∨ 256 < d.toNat / 2 ^ 16 % 512)) ∨
      (a = 0x018 ∧ 4096 < d.toNat % 8192) ∨ (a = 0x01C ∧ 65536 < d.toNat % 131072))

/-- A read inside the block space ends in a bus error exactly for BE1, BE2 and BE3, and its data is then 0
(60_exceptions.md R191, 20_memory.md R69). -/
def Obligations.ReadBusErrorsAreTheThreeCauses : Prop :=
  ∀ (s : State) (size : Size) (a : Nat), a < 262144 →
    ((∃ d, (hostRead s size a).1 = .readError d) ↔
      ((0x038 ≤ a ∧ a ≤ 0x0FF) ∨ (0x00400 ≤ a ∧ a ≤ 0x1FFFF)) ∨ (a ≤ 0x037 ∧ size ≠ .four) ∨
        a % size.bytes ≠ 0) ∧
    ∀ d, (hostRead s size a).1 = .readError d → d = 0

/-- An access that ends in a bus error changes nothing: the step leaves the block as it was (60_exceptions.md R190). -/
def Obligations.BusErrorChangesNothing : Prop :=
  (∀ (s : State) (size : Size) (a : Nat) (d : Word) (rest : List HostOp), s.HostAbout (.write size a d) rest →
    a < 262144 → (hostWrite s size a d).1 = .writeError → step s = .next (s.answered rest .writeError)) ∧
  ∀ (s : State) (size : Size) (a : Nat) (d : Word) (rest : List HostOp), s.HostAbout (.read size a) rest →
    a < 262144 → (hostRead s size a).1 = .readError d → step s = .next (s.answered rest (.readError 0))

/-- No read has a side effect on the block, OKAY or ERROR: registers, sequencer, buffers and their draws stay; only
the model's own draw counter may advance (20_memory.md R70; log 2). -/
def Obligations.ReadsChangeNoBlockState : Prop :=
  ∀ (s : State) (size : Size) (a : Nat) (rest : List HostOp), s.HostAbout (.read size a) rest → a < 262144 →
    ∃ t, step s = .next t ∧ (∃ r, t = { s.answered rest r with drawCount := t.drawCount }) ∧
      t.byteAt = s.byteAt ∧ ∀ r, t.readReg r = s.readReg r

/-- Reads of a register or of a buffer: in the running command's write set they end OKAY with a draw, of which a
register's reserved bits read 0, elsewhere with the current value, the byte at the lowest offset in bits [7:0]
(20_memory.md R73, R65, 10_state.md R37). IDLE, the write set is empty. The model's choices: the draw's form (log 2), and
the bits above 8n of an n-byte buffer read at 0 (log 14). -/
def Obligations.ReadsAreExactOutsideTheWriteSet : Prop :=
  (∀ (s : State) (r : RegName) (k : Nat) (rest : List HostOp), registers[k]? = some r →
    s.HostAbout (.read .four (4 * k)) rest →
    if Loc.reg r ∈ s.runningWriteSet then
      step s = .next { s.answered rest (.readOkay (Config.drawRead s.drawCount &&& r.fields)) with
                         drawCount := s.drawCount + 1 }
    else step s = .next (s.answered rest (.readOkay (s.readReg r)))) ∧
  ∀ (s : State) (b : Buffer) (size : Size) (a : Nat) (rest : List HostOp), s.MemWf → b.holds a = true →
    a % size.bytes = 0 → s.HostAbout (.read size a) rest →
    if Loc.buf b ∈ s.runningWriteSet then
      step s = .next { s.answered rest (.readOkay (lowBytes size (Config.drawRead s.drawCount))) with
                         drawCount := s.drawCount + 1 }
    else ∃ d, step s = .next (s.answered rest (.readOkay d)) ∧
      d.toNat = ∑ k ∈ Finset.range size.bytes, (s.byteAt (a + k)).toNat * 2 ^ (8 * k)

/-- While BUSY STATUS reads BUSY = 1, DONE = 0, ERR = 0, result flags 0, and OVR as it stands (20_memory.md R73). -/
def Obligations.StatusWhileBusyIsExact : Prop :=
  ∀ (s : State) (rest : List HostOp), s.Inv → s.busy = true → s.HostAbout (.read .four 0x010) rest →
    step s = .next (s.answered rest (.readOkay (if s.regs.ovr then 0x21 else 0x1)))

/-- Writes while BUSY to a command input or a buffer are refused and change nothing (20_memory.md R74). -/
def Obligations.BusyInputWritesRefused : Prop :=
  ∀ (s : State) (size : Size) (a : Nat) (d : Word) (rest : List HostOp), s.busy = true →
    s.HostAbout (.write size a d) rest → a < 262144 →
    (a = 0x004 ∨ a = 0x018 ∨ a = 0x01C ∨ a = 0x020 ∨ a = 0x024 ∨ a = 0x028 ∨ (0x100 ≤ a ∧ a ≤ 0x3FF) ∨
      0x20000 ≤ a) →
    step s = .next (s.answered rest .writeError)

/-- What a naturally aligned write stores in a buffer, a read of the same size and offset returns: the low n bytes of
the data, in the bus's byte order; every other byte of the three buffers stays (20_memory.md R63, R65). The bits above 8n
of an n-byte read at 0 are the model's choice (log 14). -/
def Obligations.BufferReadAfterWrite : Prop :=
  ∀ (s : State) (size : Size) (a : Nat) (d : Word) (rest : List HostOp), s.MemWf → s.seq = .idle →
    s.HostAbout (.write size a d) rest → a % size.bytes = 0 →
    ((0x100 ≤ a ∧ a < 0x400) ∨ (0x20000 ≤ a ∧ a < 0x40000)) →
    ∃ t, step s = .next t ∧ t = { s.answered rest .writeOkay with mem := t.mem } ∧
      (hostRead t size a).1 = .readOkay (BitVec.ofNat 32 (d.toNat % 2 ^ (8 * size.bytes))) ∧
      (∀ k, k < size.bytes → t.byteAt (a + k) = BitVec.ofNat 8 (d.toNat / 2 ^ (8 * k))) ∧
      ∀ b, b < a ∨ a + size.bytes ≤ b → t.byteAt b = s.byteAt b

/-- BITBUF: a byte read at 0x200 + i returns Byte(i), whose bit 7 − t is Bit(8i+t); a byte write there sets Bit(8i+t)
to bit 7 − t of the byte and no other bit (20_memory.md R67). Bits [31:8] of the byte read at 0 are the model's choice
(log 14). -/
def Obligations.BitBufferByteMapping : Prop :=
  ∀ (s : State) (i : Nat) (d : Word) (rest : List HostOp), s.MemWf → s.seq = .idle → i < 512 →
    (hostRead s .one (0x200 + i)).1 = .readOkay ((s.bitByte i).setWidth 32) ∧
    s.bitByte i = byteOfBits ((List.range 8).map (fun k => s.bit (8 * i + k))) ∧
    (s.HostAbout (.write .one (0x200 + i) d) rest →
      ∃ t, step s = .next t ∧ t = { s.answered rest .writeOkay with mem := t.mem } ∧
        (∀ k, k < 8 → t.bit (8 * i + k) = d.getLsbD (7 - k)) ∧
        (∀ j, j / 8 ≠ i → t.bit j = s.bit j) ∧
        ∀ b, b ≠ 0x200 + i → t.byteAt b = s.byteAt b)

/-- Samples in SAMPBUF: a 2-byte write moves one whole pattern, a 4-byte write moves Samp(2m) in data[15:0] and
Samp(2m+1) in data[31:16], a 1-byte write changes only its half of the pattern (20_memory.md R68). -/
def Obligations.SampleBufferMapping : Prop :=
  (∀ (s : State) (j : Nat) (d : Word) (rest : List HostOp), s.seq = .idle → j < 65536 →
    s.HostAbout (.write .two (0x20000 + 2 * j) d) rest →
    ∃ t, step s = .next t ∧ t = { s.answered rest .writeOkay with mem := t.mem } ∧
      t.samp j = (d.extractLsb' 0 16).toInt ∧ ∀ k, k ≠ j → t.samp k = s.samp k) ∧
  (∀ (s : State) (m : Nat) (d : Word) (rest : List HostOp), s.seq = .idle → m < 32768 →
    s.HostAbout (.write .four (0x20000 + 4 * m) d) rest →
    ∃ t, step s = .next t ∧ t = { s.answered rest .writeOkay with mem := t.mem } ∧
      t.samp (2 * m) = (d.extractLsb' 0 16).toInt ∧ t.samp (2 * m + 1) = (d.extractLsb' 16 16).toInt ∧
      ∀ k, k / 2 ≠ m → t.samp k = s.samp k) ∧
  ∀ (s : State) (j : Nat) (high : Bool) (d : Word) (rest : List HostOp), s.seq = .idle → j < 65536 →
    s.HostAbout (.write .one (0x20000 + 2 * j + high.toNat) d) rest →
    ∃ t, step s = .next t ∧ t = { s.answered rest .writeOkay with mem := t.mem } ∧
      t.samp j = (if high then patternOf (s.byteAt (0x20000 + 2 * j)) (d.extractLsb' 0 8)
        else patternOf (d.extractLsb' 0 8) (s.byteAt (0x20000 + 2 * j + 1))).toInt ∧
      ∀ k, k ≠ j → t.samp k = s.samp k

/-- A byte write at 0x100 + k sets Pay(k) and nothing else, and a byte read there returns Pay(k) (20_memory.md R66).
Bits [31:8] of the byte read at 0 are the model's choice (log 14). -/
def Obligations.PayloadByteMapping : Prop :=
  ∀ (s : State) (k : Nat) (d : Word) (rest : List HostOp), s.MemWf → s.seq = .idle → k < 256 →
    (hostRead s .one (0x100 + k)).1 = .readOkay ((s.pay k).setWidth 32) ∧
    (s.HostAbout (.write .one (0x100 + k) d) rest →
      ∃ t, step s = .next t ∧ t = { s.answered rest .writeOkay with mem := t.mem } ∧
        t.pay k = d.extractLsb' 0 8 ∧ (∀ j, j ≠ k → t.pay j = s.pay j) ∧
        ∀ b, b ≠ 0x100 + k → t.byteAt b = s.byteAt b)

/-- A CFG write while IDLE: with SCHEME = 3, SPB = 0 or SPB > 256 a bus error and no change, else both fields are
stored and CFG reads the data with its reserved bits 0 (10_state.md R23). -/
def Obligations.ConfigWriteChecked : Prop :=
  ∀ (s : State) (d : Word) (rest : List HostOp), s.seq = .idle → s.HostAbout (.write .four 0x004 d) rest →
    if d.toNat % 4 = 3 ∨ d.toNat / 65536 % 512 = 0 ∨ 256 < d.toNat / 65536 % 512 then
      step s = .next (s.answered rest .writeError)
    else ∃ t, step s = .next t ∧ t.readReg .cfg = d &&& 0x01FF0003 ∧
      t = { s.answered rest .writeOkay with regs := { s.regs with scheme := t.regs.scheme, spb := t.regs.spb } }

/-- BITLEN and SAMPLEN writes while IDLE: above 4096 or 65536 a bus error and no change, else the field is stored
(10_state.md R29, R30). -/
def Obligations.LengthWritesChecked : Prop :=
  (∀ (s : State) (d : Word) (rest : List HostOp), s.seq = .idle → s.HostAbout (.write .four 0x018 d) rest →
    if 4096 < d.toNat % 8192 then step s = .next (s.answered rest .writeError)
    else ∃ t, step s = .next t ∧ t.readReg .bitlen = d &&& 0x1FFF ∧
      t = { s.answered rest .writeOkay with regs := { s.regs with bitlen := t.regs.bitlen } }) ∧
  ∀ (s : State) (d : Word) (rest : List HostOp), s.seq = .idle → s.HostAbout (.write .four 0x01C d) rest →
    if 65536 < d.toNat % 131072 then step s = .next (s.answered rest .writeError)
    else ∃ t, step s = .next t ∧ t.readReg .samplen = d &&& 0x1FFFF ∧
      t = { s.answered rest .writeOkay with regs := { s.regs with samplen := t.regs.samplen } }

/-- A STATUS write, BUSY or not, clears DONE where bit 1 is 1 and OVR where bit 5 is 1, and changes no other bit
(10_state.md R27). -/
def Obligations.StatusWriteClearsDoneAndOvr : Prop :=
  ∀ (s : State) (d : Word) (rest : List HostOp), s.HostAbout (.write .four 0x010 d) rest →
    ∃ t, step s = .next t ∧ t.readReg .status = s.readReg .status &&& ~~~(d &&& 0x22) ∧
      t = { s.answered rest .writeOkay with regs := { s.regs with done := t.regs.done, ovr := t.regs.ovr } }

/-- IRQ_EN, FRAME_HDR, FRAME_LC and SYNC_THR writes: the writable bits are stored, reserved bits read 0, FRAME_LC.CHK
stays (10_state.md R28, R31 to R33). IRQ_EN is writable while BUSY too. -/
def Obligations.PlainRegisterWritesReadBack : Prop :=
  (∀ (s : State) (d : Word) (rest : List HostOp), s.HostAbout (.write .four 0x014 d) rest →
    ∃ t, step s = .next t ∧ t.readReg .irqEn = d &&& 3 ∧
      t = { s.answered rest .writeOkay with
              regs := { s.regs with doneIe := t.regs.doneIe, ovrIe := t.regs.ovrIe } }) ∧
  (∀ (s : State) (d : Word) (rest : List HostOp), s.seq = .idle → s.HostAbout (.write .four 0x020 d) rest →
    ∃ t, step s = .next t ∧ t.readReg .frameHdr = d ∧
      t = { s.answered rest .writeOkay with
              regs := { s.regs with src := t.regs.src, dst := t.regs.dst, typ := t.regs.typ, sqn := t.regs.sqn } }) ∧
  (∀ (s : State) (d : Word) (rest : List HostOp), s.seq = .idle → s.HostAbout (.write .four 0x024 d) rest →
    ∃ t, step s = .next t ∧
      t.readReg .frameLc = (d &&& 0xFF) ||| (s.readReg .frameLc &&& 0xFF00) ∧
      t = { s.answered rest .writeOkay with regs := { s.regs with len := t.regs.len } }) ∧
  ∀ (s : State) (d : Word) (rest : List HostOp), s.seq = .idle → s.HostAbout (.write .four 0x028 d) rest →
    step s = .next { s.answered rest .writeOkay with regs := { s.regs with syncThr := d } }

/-- ID always reads 0x4D44_0001, CTRL and CMD read 0, and a write to ID, SYNC_LAG, SYNC_PEAK or CK_RESULT is refused
and changes nothing (10_state.md R21, R24, R25, R37). -/
def Obligations.ReadOnlyAndWriteOnlyRegisters : Prop :=
  (∀ s : State, (hostRead s .four 0x000).1 = .readOkay 0x4D440001 ∧ (hostRead s .four 0x008).1 = .readOkay 0 ∧
    (hostRead s .four 0x00C).1 = .readOkay 0) ∧
  ∀ (s : State) (a : Nat) (d : Word) (rest : List HostOp), s.HostAbout (.write .four a d) rest →
    (a = 0x000 ∨ a = 0x02C ∨ a = 0x030 ∨ a = 0x034) → step s = .next (s.answered rest .writeError)

/-- IRQ is (DONE and DONE_IE) or (OVR and OVR_IE), read from the words of STATUS and IRQ_EN, and 0 while RST_N = 0
(60_exceptions.md R198, 70_reset_and_hazards.md R220). -/
def Obligations.IrqLineFollowsStatusAndEnable : Prop :=
  ∀ s : State, s.irq = (s.rstN &&
    (((s.readReg .status).getLsbD 1 && (s.readReg .irqEn).getLsbD 0) ||
      ((s.readReg .status).getLsbD 5 && (s.readReg .irqEn).getLsbD 1)))

/-! Reset. -/

/-- The fourteen registers as the host reads them after either kind of reset and in the reset state, and the IRQ line
(70_reset_and_hazards.md R221). -/
def Obligations.ResetRegisterValues : Prop :=
  ∀ s t : State, t = State.reset ∨ t = s.softReset ∨ t = s.hardReset true →
    ((List.range 14).map (fun k => (hostRead t .four (4 * k)).1)) =
      [.readOkay 0x4D440001, .readOkay 0x00100000, .readOkay 0, .readOkay 0, .readOkay 0, .readOkay 0, .readOkay 0,
       .readOkay 0, .readOkay 0, .readOkay 0, .readOkay 0x00040000, .readOkay 0, .readOkay 0, .readOkay 0] ∧
    t.irq = false ∧ t.seq = .idle

/-- A CTRL write with bit 0 = 1 resets every register, makes the sequencer IDLE and IRQ 0, in any sequencer state; a
buffer outside the running command's write set keeps its bytes, a buffer in it becomes unspecified (no byte listed, a
new draw); a CTRL write with bit 0 = 0 does nothing (70_reset_and_hazards.md R223, R224, 10_state.md R24). -/
def Obligations.SoftResetEffect : Prop :=
  (∀ (s : State) (d : Word) (rest : List HostOp), s.HostAbout (.write .four 0x008 d) rest → d.getLsbD 0 = true →
    ∃ t, step s = .next t ∧
      t = { s.answered rest .writeOkay with regs := Regs.reset, seq := .idle, mem := t.mem, payGen := t.payGen,
                                            bitGen := t.bitGen, sampGen := t.sampGen } ∧
      t.irq = false ∧
      (∀ (b : Buffer) (a : Nat), b.holds a = true → Loc.buf b ∉ s.runningWriteSet → t.byteAt a = s.byteAt a) ∧
      ∀ (b : Buffer) (a : Nat), b.holds a = true → Loc.buf b ∈ s.runningWriteSet →
        t.mem.lookup a = none ∧
          t.byteAt a = Config.drawByte
            ((match b with | .pay => s.payGen | .bit => s.bitGen | .samp => s.sampGen) + 1) a) ∧
  ∀ (s : State) (d : Word) (rest : List HostOp), s.HostAbout (.write .four 0x008 d) rest → d.getLsbD 0 = false →
    step s = .next (s.answered rest .writeOkay)

/-- RST_N falling ends any command and holds IRQ at 0; while it is 0 no host access is made; when it rises the
registers have their reset values, the sequencer is IDLE and every buffer byte is unspecified
(70_reset_and_hazards.md R220, R222, R224). -/
def Obligations.HardwareResetEffect : Prop :=
  (∀ (s : State) (more : List Turn), s.turns = .resetLow :: more →
    ∃ t, step s = .next t ∧ t.rstN = false ∧ t.seq = .idle ∧ t.irq = false ∧ t.turns = more ∧ t.host = s.host) ∧
  (∀ (s : State) (more : List Turn), s.rstN = false → s.turns = .host :: more →
    s.irq = false ∧ step s = .next { s with turns := more }) ∧
  ∀ (s : State) (more : List Turn), s.rstN = false → s.turns = .resetHigh :: more →
    ∃ t, step s = .next t ∧ t.rstN = true ∧ t.regs = Regs.reset ∧ t.seq = .idle ∧ t.irq = false ∧
      t.turns = more ∧ t.host = s.host ∧
      ∀ (b : Buffer) (a : Nat), b.holds a = true → t.mem.lookup a = none ∧
        t.byteAt a = Config.drawByte
          ((match b with | .pay => s.payGen | .bit => s.bitGen | .samp => s.sampGen) + 1) a

/-! The commands. -/

/-- NOP sets DONE and ERR = 0 and does nothing else; from the flags acceptance leaves, STATUS then reads 0x2, or 0x22
with OVR (43_sequencing.md R174). -/
def Obligations.NopOnlyCompletes : Prop :=
  ∀ s : State, ∃ t, exec .nop s = .next t ∧
    t = { s with seq := .idle, regs := { s.regs with done := true, err := 0 } } ∧
    (s.regs.FlagsClear → t.readReg .status = if s.regs.ovr then 0x22 else 0x2)

/-- MOD. Where the waveform fits, Samp(i·N + k) is sample k of the segment of bit i of the preamble and Bits(0,
BITLEN), SAMPLEN is (8 + BITLEN)·N, nothing else changes; where it does not fit, ERR = 2 is the only effect
(40_modem.md R116). -/
def Obligations.ModWritesTheWaveform : Prop :=
  (∀ s : State, s.MemWf → (8 + s.regs.bitlen.toNat) * s.n ≤ 65536 → ∃ t, exec .mod s = .next t ∧
    t = { s with seq := .idle, mem := t.mem,
                 regs := { s.regs with done := true, err := 0, samplen := t.regs.samplen } } ∧
    t.regs.samplen.toNat = (8 + s.regs.bitlen.toNat) * s.n ∧
    (∀ i k, i < 8 → k < s.n → t.samp (i * s.n + k) = segSample s.regs.scheme s.n (i % 2 == 0) k) ∧
    (∀ i k, i < s.regs.bitlen.toNat → k < s.n →
      t.samp ((8 + i) * s.n + k) = segSample s.regs.scheme s.n (s.bit i) k) ∧
    ∀ a, a < 0x20000 ∨ 0x20000 + 2 * ((8 + s.regs.bitlen.toNat) * s.n) ≤ a → t.byteAt a = s.byteAt a) ∧
  ∀ s : State, 65536 < (8 + s.regs.bitlen.toNat) * s.n →
    exec .mod s = .next { s with seq := .idle, regs := { s.regs with done := true, err := 2 } }

/-- DEMOD. Of fewer than 8N samples: BITLEN, SYNC_LAG and SYNC_PEAK are 0, nothing else changes. Of at least 8N
samples: Ls is the smallest lag of the largest |C|; SYNC_PEAK is |C(Ls)| div 2^14; below the threshold BITLEN and
SYNC_LAG are 0 and no buffer changes; otherwise SYNC_OK, SYNC_LAG = Ls, PEAK_NEG, and the decided bits of the whole
segments after the preamble, at most 4096 of them, BIT_OVF saying whether some were dropped (40_modem.md R117, R122 to
R126). -/
def Obligations.DemodLocatesAndDecides : Prop :=
  (∀ s : State, s.regs.samplen.toNat < 8 * s.n →
    exec .demod s = .next { s with
      seq := .idle
      regs := { s.regs with done := true, err := 0, bitlen := 0, syncLag := 0, syncPeak := 0 } }) ∧
  ∀ s : State, s.MemWf → s.regs.Legal → 8 * s.n ≤ s.regs.samplen.toNat →
    ∃ L t, s.IsPeak L ∧ exec .demod s = .next t ∧
      t.regs.syncPeak.toNat = (s.corr L).natAbs / 2 ^ 14 ∧
      ((s.corr L).natAbs < s.regs.syncThr.toNat * 2 ^ 14 →
        t = { s with seq := .idle, regs := { s.regs with
                done := true, err := 0, bitlen := 0, syncLag := 0, syncPeak := t.regs.syncPeak } }) ∧
      (s.regs.syncThr.toNat * 2 ^ 14 ≤ (s.corr L).natAbs →
        t = { s with seq := .idle, mem := t.mem, regs := { s.regs with
                done := true, err := 0, bitlen := t.regs.bitlen, syncLag := t.regs.syncLag,
                syncPeak := t.regs.syncPeak, syncOk := true, peakNeg := decide (s.corr L < 0),
                bitOvf := decide (4096 < (s.regs.samplen.toNat - (L + 8 * s.n)) / s.n) } } ∧
        t.regs.syncLag.toNat = L ∧
        t.regs.bitlen.toNat = min ((s.regs.samplen.toNat - (L + 8 * s.n)) / s.n) 4096 ∧
        (∀ i, i < t.regs.bitlen.toNat →
          t.bit i = s.bitAt (decide (s.corr L < 0)) (L + 8 * s.n + i * s.n)) ∧
        (∀ i, t.regs.bitlen.toNat ≤ i → t.bit i = s.bit i) ∧
        ∀ a, a < 0x200 ∨ 0x400 ≤ a → t.byteAt a = s.byteAt a)

/-- With at least 8N samples and legal registers, DEMOD sets SYNC_OK exactly when SYNC_PEAK ≥ SYNC_THR
(10_state.md R35). -/
def Obligations.SyncPassesAtThePeakThreshold : Prop :=
  ∀ s : State, s.MemWf → s.regs.Legal → s.regs.syncOk = false → 8 * s.n ≤ s.regs.samplen.toNat →
    ∃ t, exec .demod s = .next t ∧ (t.regs.syncOk = true ↔ s.regs.syncThr.toNat ≤ t.regs.syncPeak.toNat) ∧
      t.regs.syncPeak.toNat ≤ 2 ^ 26

/-- The peak search returns an entry of the largest magnitude, the one at the smallest index, with its sign
(40_modem.md R119). -/
def Obligations.PeakIsSmallestLagOfLargestMagnitude : Prop :=
  ∀ cs : List Int, cs ≠ [] → ∀ (L : Nat) (c : Int), peak cs = (L, c) ↔
    ∃ h : L < cs.length, c = cs[L] ∧ (∀ j, ∀ hj : j < cs.length, (cs[j]).natAbs ≤ (cs[L]).natAbs) ∧
      ∀ j, ∀ hj : j < L, (cs[j]'(Nat.lt_trans hj h)).natAbs < (cs[L]).natAbs

/-- SER: the bytes of the bit buffer are SRC, DST, TYPE, SEQ, LEN, the payload, and the number of 1 bits before the
checksum field modulo 256, which CHK takes too; BITLEN is 48 + 8·LEN; nothing else changes (41_frame.md R140). -/
def Obligations.SerBuildsTheFrame : Prop :=
  ∀ s : State, s.MemWf → ∃ t, exec .ser s = .next t ∧
    t = { s with seq := .idle, mem := t.mem, regs := { s.regs with
            done := true, err := 0, bitlen := t.regs.bitlen, chk := t.regs.chk } } ∧
    t.regs.bitlen.toNat = 48 + 8 * s.regs.len.toNat ∧
    t.bitByte 0 = s.regs.src ∧ t.bitByte 1 = s.regs.dst ∧ t.bitByte 2 = s.regs.typ ∧ t.bitByte 3 = s.regs.sqn ∧
    t.bitByte 4 = s.regs.len ∧ (∀ k, k < s.regs.len.toNat → t.bitByte (5 + k) = s.pay k) ∧
    t.bitByte (5 + s.regs.len.toNat) = t.regs.chk ∧
    t.regs.chk.toNat = t.ones (40 + 8 * s.regs.len.toNat) % 256 ∧
    ∀ a, a < 0x200 ∨ 0x206 + s.regs.len.toNat ≤ a → t.byteAt a = s.byteAt a

/-- PARSE, its checks written with the bit count. Of a well-formed frame: the frame registers and the payload take the
frame's fields, FRAME_OK is set, nothing else changes. Of anything else (too short, the declared payload past the
available bits, or a checksum that disagrees) it only completes: FRAME_HDR, FRAME_LC, PAY and every other register and
byte keep their values (41_frame.md R141, R144). -/
def Obligations.ParseChecksAndLoads : Prop :=
  (∀ s : State, s.MemWf → 48 + 8 * (s.bitByte 4).toNat ≤ s.regs.bitlen.toNat →
    s.ones (40 + 8 * (s.bitByte 4).toNat) % 256 = (s.bitByte (5 + (s.bitByte 4).toNat)).toNat →
    ∃ t, exec .parse s = .next t ∧
      t = { s with seq := .idle, mem := t.mem, regs := { s.regs with
              done := true, err := 0, frameOk := true, src := s.bitByte 0, dst := s.bitByte 1, typ := s.bitByte 2,
              sqn := s.bitByte 3, len := s.bitByte 4, chk := s.bitByte (5 + (s.bitByte 4).toNat) } } ∧
      (∀ k, k < (s.bitByte 4).toNat → t.pay k = s.bitByte (5 + k)) ∧
      ∀ a, a < 0x100 ∨ 0x100 + (s.bitByte 4).toNat ≤ a → t.byteAt a = s.byteAt a) ∧
  ∀ s : State, s.MemWf →
    (s.regs.bitlen.toNat < 48 ∨ s.regs.bitlen.toNat < 48 + 8 * (s.bitByte 4).toNat ∨
      s.ones (40 + 8 * (s.bitByte 4).toNat) % 256 ≠ (s.bitByte (5 + (s.bitByte 4).toNat)).toNat) →
    exec .parse s = .next { s with seq := .idle, regs := { s.regs with done := true, err := 0 } }

/-- CKSUM: CK_RESULT is the number of 1 bits among Bits(0, BITLEN) modulo 256; nothing else changes
(42_checksum.md R160, R161). -/
def Obligations.CksumCountsOneBits : Prop :=
  ∀ s : State, s.MemWf → ∃ t, exec .cksum s = .next t ∧
    t = { s with seq := .idle, regs := { s.regs with done := true, err := 0, ckResult := t.regs.ckResult } } ∧
    t.regs.ckResult.toNat = s.ones s.regs.bitlen.toNat % 256

/-- CKCHK: with fewer than 8 bits CK_RESULT is 0 and CK_OK stays; otherwise CK_RESULT is the number of 1 bits before
the last 8 modulo 256 and CK_OK says whether the last 8 bits, first bit most significant, are that number; nothing
else changes (42_checksum.md R162). -/
def Obligations.CkchkComparesTheLastEightBits : Prop :=
  (∀ s : State, s.regs.bitlen.toNat < 8 →
    exec .ckchk s = .next { s with seq := .idle, regs := { s.regs with done := true, err := 0, ckResult := 0 } }) ∧
  ∀ s : State, s.MemWf → 8 ≤ s.regs.bitlen.toNat → ∃ t, exec .ckchk s = .next t ∧
    t = { s with seq := .idle, regs := { s.regs with
            done := true, err := 0, ckResult := t.regs.ckResult, ckOk := t.regs.ckOk } } ∧
    t.regs.ckResult.toNat = s.ones (s.regs.bitlen.toNat - 8) % 256 ∧
    (t.regs.ckOk = true ↔ t.regs.ckResult.toNat =
      ∑ j ∈ Finset.range 8, (s.bit (s.regs.bitlen.toNat - 8 + j)).toNat * 2 ^ (7 - j))

/-- TX is SER, then MOD on what SER left, in one step: with ERR = 2 and SER's writes standing where the waveform does
not fit (43_sequencing.md R175). -/
def Obligations.TxIsSerThenMod : Prop :=
  ∀ s : State, ∃ u t, exec .ser s = .next u ∧ exec .mod u = .next t ∧ exec .tx s = .next t ∧
    (65536 < (56 + 8 * s.regs.len.toNat) * s.n →
      t = { u with regs := { u.regs with err := 2 } }) ∧
    ((56 + 8 * s.regs.len.toNat) * s.n ≤ 65536 →
      t.regs.err = 0 ∧ t.regs.samplen.toNat = (56 + 8 * s.regs.len.toNat) * s.n)

/-- RX is DEMOD, then always PARSE on what DEMOD left, in one step; where DEMOD leaves fewer than 48 bits, as after a
failed synchronization, PARSE leaves the registers as DEMOD did (43_sequencing.md R176). -/
def Obligations.RxIsDemodThenParse : Prop :=
  ∀ s : State, ∃ u t, exec .demod s = .next u ∧ exec .parse u = .next t ∧ exec .rx s = .next t ∧
    (s.regs.samplen.toNat < 8 * s.n → u.regs.bitlen = 0) ∧ (u.regs.bitlen.toNat < 48 → t = u)

/-! Whole paths. -/

/-- What SER builds PARSE accepts, and finds the same frame: only FRAME_OK differs, and no byte (41_frame.md R140,
R141). -/
def Obligations.ParseAcceptsWhatSerBuilt : Prop :=
  ∀ s t : State, s.MemWf → exec .ser s = .next t →
    ∃ u, exec .parse t = .next u ∧ u = { t with mem := u.mem, regs := { t.regs with frameOk := true } } ∧
      ∀ a, u.byteAt a = t.byteAt a

/-- After a PARSE that set FRAME_OK, CHK is the checksum of the loaded header and payload, and a SER issued next
writes exactly the bits PARSE read (41_frame.md R146). -/
def Obligations.SerRebuildsWhatParseAccepted : Prop :=
  ∀ s t : State, s.MemWf → s.regs.frameOk = false → exec .parse s = .next t → t.regs.frameOk = true →
    t.regs.chk = checksum (frameBody t) ∧
    ∃ u, exec .ser t = .next u ∧ u.regs.bitlen.toNat = 48 + 8 * t.regs.len.toNat ∧
      (∀ i, i < 48 + 8 * t.regs.len.toNat → u.bit i = s.bit i) ∧ ∀ i, u.bit i = t.bit i

/-- Bits after the checksum field take no part in PARSE: two bit buffers that agree on the declared frame give the
same registers, BITLEN apart, and the same payload (41_frame.md R145). -/
def Obligations.TrailingBitsTakeNoPart : Prop :=
  ∀ s s' t t' : State, s.MemWf → s'.MemWf →
    48 + 8 * (s.bitByte 4).toNat ≤ s.regs.bitlen.toNat → 48 + 8 * (s.bitByte 4).toNat ≤ s'.regs.bitlen.toNat →
    s'.regs = { s.regs with bitlen := s'.regs.bitlen } →
    (∀ i, i < 48 + 8 * (s.bitByte 4).toNat → s'.bit i = s.bit i) → (∀ k, k < 256 → s'.pay k = s.pay k) →
    exec .parse s = .next t → exec .parse s' = .next t' →
    t'.regs = { t.regs with bitlen := s'.regs.bitlen } ∧ ∀ k, k < 256 → t'.pay k = t.pay k

/-- A change of exactly one of the checked bits, checksum field included, turns a CKCHK success into a failure
(42_checksum.md R163). -/
def Obligations.CkchkDetectsEverySingleBitError : Prop :=
  ∀ (s s' t t' : State) (j : Nat), s.MemWf → s'.MemWf → 8 ≤ s.regs.bitlen.toNat → s'.regs = s.regs →
    j < s.regs.bitlen.toNat → s'.bit j = !s.bit j →
    (∀ i, i < s.regs.bitlen.toNat → i ≠ j → s'.bit i = s.bit i) →
    exec .ckchk s = .next t → exec .ckchk s' = .next t' → t.regs.ckOk = true → t'.regs.ckOk = false

/-- ASK over a noiseless channel: what MOD wrote DEMOD decodes exactly, with lag 0, the peak 8N·2^14, no polarity
and no overflow, whenever the threshold is at most that peak (95_test_vectors.md S8; 40_modem.md R116 to R122). -/
def Obligations.AskDemodRecoversModulatedBits : Prop :=
  ∀ s t : State, s.MemWf → s.regs.scheme = .ask → 1 ≤ s.n → s.regs.bitlen.toNat ≤ 4096 →
    (8 + s.regs.bitlen.toNat) * s.n ≤ 65536 → s.regs.syncThr.toNat ≤ 8 * s.n * 2 ^ 14 →
    exec .mod s = .next t →
    ∃ u, exec .demod t = .next u ∧ u.regs.syncOk = true ∧ u.regs.peakNeg = false ∧ u.regs.bitOvf = false ∧
      u.regs.syncLag = 0 ∧ u.regs.syncPeak.toNat = 8 * s.n * 2 ^ 14 ∧ u.regs.bitlen = s.regs.bitlen ∧
      ∀ i, i < s.regs.bitlen.toNat → u.bit i = s.bit i

/-- ASK round trip of a frame: RX of what TX left in the sample buffer sets SYNC_OK and FRAME_OK and restores the same
frame registers and payload (95_test_vectors.md S1; 43_sequencing.md R175, R176). -/
def Obligations.AskRxRecoversTransmittedFrame : Prop :=
  ∀ s t : State, s.MemWf → s.regs.scheme = .ask → 1 ≤ s.n → (56 + 8 * s.regs.len.toNat) * s.n ≤ 65536 →
    s.regs.syncThr.toNat ≤ 8 * s.n * 2 ^ 14 → exec .tx s = .next t →
    ∃ u, exec .rx t = .next u ∧ u.regs.syncOk = true ∧ u.regs.frameOk = true ∧
      u.regs.frameHdrWord = s.regs.frameHdrWord ∧ u.regs.len = s.regs.len ∧ u.regs.chk = t.regs.chk ∧
      ∀ k, k < 256 → u.pay k = s.pay k

/-- The computed carrier tables are the spec's: sgn(x)·floor(|x|·2^14 + 1/2) of the real sine and cosine, for every N
and every entry (40_modem.md R111, R112). -/
def Obligations.CarrierTablesAreRoundedSinusoids : Prop :=
  ∀ c N k : Nat, (c = 1 ∨ c = 2) → 1 ≤ N → N ≤ 256 → k < N →
    sinEntry c N k = (SignType.sign (Real.sin (2 * Real.pi * c * k / N)) : ℤ) *
      ⌊|Real.sin (2 * Real.pi * c * k / N)| * 2 ^ 14 + 1 / 2⌋ ∧
    cosEntry c N k = (SignType.sign (Real.cos (2 * Real.pi * c * k / N)) : ℤ) *
      ⌊|Real.cos (2 * Real.pi * c * k / N)| * 2 ^ 14 + 1 / 2⌋

/-- The tables that vanish: Sin_2 for N = 1, 2 and 4, Sin_1 for N = 1 and 2, and no other (40_modem.md R128). -/
def Obligations.ZeroCarrierTables : Prop :=
  ∀ N : Nat, 1 ≤ N → N ≤ 256 →
    ((∀ k, k < N → sinEntry 2 N k = 0) ↔ N = 1 ∨ N = 2 ∨ N = 4) ∧
    ((∀ k, k < N → sinEntry 1 N k = 0) ↔ N = 1 ∨ N = 2)

/-- Placing a table word runs exactly its command: the step after it is exec of the decoded command on the state in
which the sequencer has accepted the word (43_sequencing.md R170, R173; log 5). -/
def Obligations.PlacedCommandRunsNext : Prop :=
  ∀ (s : State) (w : Nat) (i : Instr), decodeTableWord 32 w = some i →
    step (s.withFetchWord 32 w) = exec i { s with
      seq := .busy (opcode i), rstN := true
      regs := { s.regs with done := false, err := 0, syncOk := false, peakNeg := false, bitOvf := false,
                            frameOk := false, ckOk := false } }

/-- A POLL reads one word a step and stays the host's next access until the data and the mask give the value
(30_encoding.md R102; log 15). -/
def Obligations.PollRepeatsUntilMatched : Prop :=
  ∀ (s : State) (a : Nat) (mask value : Word) (rest : List HostOp), s.HostAbout (.poll a mask value) rest →
    a < 262144 → ∃ (r : Reply) (k : Nat), (hostRead s .four a).1 = r ∧ step s = .next { s with
      turns := s.turns.tail
      drawCount := k
      reply := some r
      host := if r.data &&& mask = value then rest else s.host }

/-- `RUN op` on an IDLE block, the scheduler leaving the choice to the empty list's rule, takes three steps: the CMD
write accepted, the command completed, one read of STATUS that finds BUSY = 0 and ends the POLL (30_encoding.md R103;
log 4). -/
def Obligations.RunCompletesTheCommand : Prop :=
  ∀ (s : State) (i : Instr) (rest : List HostOp), s.seq = .idle → s.rstN = true → s.turns = [] →
    s.host = expand (.run i) ++ rest →
    ∃ u, exec i { s.answered (.poll 0x010 1 0 :: rest) .writeOkay with
                    seq := .busy (opcode i), regs := s.regs.acceptClears } = .next u ∧
      Sys2Proof.core.run 3 s = .next { u with host := rest, reply := some (.readOkay (u.readReg .status)) }

/-- Register bits that no field of 10_state.md R20 names read as 0, in the running command's write set too, and a write
has the same response and effect whatever they are (10_state.md R20, R37). The list holds the named bits of the
fourteen registers in the order of their offsets. -/
def Obligations.ReservedBitsReadZeroAndIgnoreWrites : Prop :=
  ∀ (s : State) (k : Nat) (named : Word),
    ([0xFFFFFFFF, 0x01FF0003, 0x00000001, 0x000000FF, 0x00001F3F, 0x00000003, 0x00001FFF, 0x0001FFFF, 0xFFFFFFFF,
      0x0000FFFF, 0xFFFFFFFF, 0x0000FFFF, 0xFFFFFFFF, 0x000000FF] : List Word)[k]? = some named →
    (∃ d, (hostRead s .four (4 * k)).1 = .readOkay d ∧ d &&& named = d) ∧
      ∀ d, hostWrite s .four (4 * k) d = hostWrite s .four (4 * k) (d &&& named)
end

