-- ==== Sys2Proof/Laws/State.lean ====
section
/-! SUPPORT. One lemma per field per named update of the state and of the registers, so that no later proof unfolds
a record update. -/

namespace Sys2Proof.Machine

/-! `Regs.acceptClears`. -/

@[simp] theorem Regs.acceptClears_scheme (r : Regs) : (r.acceptClears).scheme = r.scheme := rfl
@[simp] theorem Regs.acceptClears_spb (r : Regs) : (r.acceptClears).spb = r.spb := rfl
@[simp] theorem Regs.acceptClears_done (r : Regs) : (r.acceptClears).done = false := rfl
@[simp] theorem Regs.acceptClears_err (r : Regs) : (r.acceptClears).err = 0 := rfl
@[simp] theorem Regs.acceptClears_ovr (r : Regs) : (r.acceptClears).ovr = r.ovr := rfl
@[simp] theorem Regs.acceptClears_syncOk (r : Regs) : (r.acceptClears).syncOk = false := rfl
@[simp] theorem Regs.acceptClears_peakNeg (r : Regs) : (r.acceptClears).peakNeg = false := rfl
@[simp] theorem Regs.acceptClears_bitOvf (r : Regs) : (r.acceptClears).bitOvf = false := rfl
@[simp] theorem Regs.acceptClears_frameOk (r : Regs) : (r.acceptClears).frameOk = false := rfl
@[simp] theorem Regs.acceptClears_ckOk (r : Regs) : (r.acceptClears).ckOk = false := rfl
@[simp] theorem Regs.acceptClears_doneIe (r : Regs) : (r.acceptClears).doneIe = r.doneIe := rfl
@[simp] theorem Regs.acceptClears_ovrIe (r : Regs) : (r.acceptClears).ovrIe = r.ovrIe := rfl
@[simp] theorem Regs.acceptClears_bitlen (r : Regs) : (r.acceptClears).bitlen = r.bitlen := rfl
@[simp] theorem Regs.acceptClears_samplen (r : Regs) : (r.acceptClears).samplen = r.samplen := rfl
@[simp] theorem Regs.acceptClears_src (r : Regs) : (r.acceptClears).src = r.src := rfl
@[simp] theorem Regs.acceptClears_dst (r : Regs) : (r.acceptClears).dst = r.dst := rfl
@[simp] theorem Regs.acceptClears_typ (r : Regs) : (r.acceptClears).typ = r.typ := rfl
@[simp] theorem Regs.acceptClears_sqn (r : Regs) : (r.acceptClears).sqn = r.sqn := rfl
@[simp] theorem Regs.acceptClears_len (r : Regs) : (r.acceptClears).len = r.len := rfl
@[simp] theorem Regs.acceptClears_chk (r : Regs) : (r.acceptClears).chk = r.chk := rfl
@[simp] theorem Regs.acceptClears_syncThr (r : Regs) : (r.acceptClears).syncThr = r.syncThr := rfl
@[simp] theorem Regs.acceptClears_syncLag (r : Regs) : (r.acceptClears).syncLag = r.syncLag := rfl
@[simp] theorem Regs.acceptClears_syncPeak (r : Regs) : (r.acceptClears).syncPeak = r.syncPeak := rfl
@[simp] theorem Regs.acceptClears_ckResult (r : Regs) : (r.acceptClears).ckResult = r.ckResult := rfl

/-! `Regs.completeFlags`. -/

@[simp] theorem Regs.completeFlags_scheme (r : Regs) (e : CmdError) : (r.completeFlags e).scheme = r.scheme := rfl
@[simp] theorem Regs.completeFlags_spb (r : Regs) (e : CmdError) : (r.completeFlags e).spb = r.spb := rfl
@[simp] theorem Regs.completeFlags_done (r : Regs) (e : CmdError) : (r.completeFlags e).done = true := rfl
@[simp] theorem Regs.completeFlags_err (r : Regs) (e : CmdError) : (r.completeFlags e).err = e.code := rfl
@[simp] theorem Regs.completeFlags_ovr (r : Regs) (e : CmdError) : (r.completeFlags e).ovr = r.ovr := rfl
@[simp] theorem Regs.completeFlags_syncOk (r : Regs) (e : CmdError) : (r.completeFlags e).syncOk = r.syncOk := rfl
@[simp] theorem Regs.completeFlags_peakNeg (r : Regs) (e : CmdError) : (r.completeFlags e).peakNeg = r.peakNeg := rfl
@[simp] theorem Regs.completeFlags_bitOvf (r : Regs) (e : CmdError) : (r.completeFlags e).bitOvf = r.bitOvf := rfl
@[simp] theorem Regs.completeFlags_frameOk (r : Regs) (e : CmdError) : (r.completeFlags e).frameOk = r.frameOk := rfl
@[simp] theorem Regs.completeFlags_ckOk (r : Regs) (e : CmdError) : (r.completeFlags e).ckOk = r.ckOk := rfl
@[simp] theorem Regs.completeFlags_doneIe (r : Regs) (e : CmdError) : (r.completeFlags e).doneIe = r.doneIe := rfl
@[simp] theorem Regs.completeFlags_ovrIe (r : Regs) (e : CmdError) : (r.completeFlags e).ovrIe = r.ovrIe := rfl
@[simp] theorem Regs.completeFlags_bitlen (r : Regs) (e : CmdError) : (r.completeFlags e).bitlen = r.bitlen := rfl
@[simp] theorem Regs.completeFlags_samplen (r : Regs) (e : CmdError) : (r.completeFlags e).samplen = r.samplen := rfl
@[simp] theorem Regs.completeFlags_src (r : Regs) (e : CmdError) : (r.completeFlags e).src = r.src := rfl
@[simp] theorem Regs.completeFlags_dst (r : Regs) (e : CmdError) : (r.completeFlags e).dst = r.dst := rfl
@[simp] theorem Regs.completeFlags_typ (r : Regs) (e : CmdError) : (r.completeFlags e).typ = r.typ := rfl
@[simp] theorem Regs.completeFlags_sqn (r : Regs) (e : CmdError) : (r.completeFlags e).sqn = r.sqn := rfl
@[simp] theorem Regs.completeFlags_len (r : Regs) (e : CmdError) : (r.completeFlags e).len = r.len := rfl
@[simp] theorem Regs.completeFlags_chk (r : Regs) (e : CmdError) : (r.completeFlags e).chk = r.chk := rfl
@[simp] theorem Regs.completeFlags_syncThr (r : Regs) (e : CmdError) : (r.completeFlags e).syncThr = r.syncThr := rfl
@[simp] theorem Regs.completeFlags_syncLag (r : Regs) (e : CmdError) : (r.completeFlags e).syncLag = r.syncLag := rfl
@[simp] theorem Regs.completeFlags_syncPeak (r : Regs) (e : CmdError) : (r.completeFlags e).syncPeak = r.syncPeak := rfl
@[simp] theorem Regs.completeFlags_ckResult (r : Regs) (e : CmdError) : (r.completeFlags e).ckResult = r.ckResult := rfl

/-! `Regs.writeOneToClear`. -/

@[simp] theorem Regs.writeOneToClear_scheme (r : Regs) (d : Word) : (r.writeOneToClear d).scheme = r.scheme := rfl
@[simp] theorem Regs.writeOneToClear_spb (r : Regs) (d : Word) : (r.writeOneToClear d).spb = r.spb := rfl
@[simp] theorem Regs.writeOneToClear_done (r : Regs) (d : Word) : (r.writeOneToClear d).done = (r.done && !d.getLsbD 1) := rfl
@[simp] theorem Regs.writeOneToClear_err (r : Regs) (d : Word) : (r.writeOneToClear d).err = r.err := rfl
@[simp] theorem Regs.writeOneToClear_ovr (r : Regs) (d : Word) : (r.writeOneToClear d).ovr = (r.ovr && !d.getLsbD 5) := rfl
@[simp] theorem Regs.writeOneToClear_syncOk (r : Regs) (d : Word) : (r.writeOneToClear d).syncOk = r.syncOk := rfl
@[simp] theorem Regs.writeOneToClear_peakNeg (r : Regs) (d : Word) : (r.writeOneToClear d).peakNeg = r.peakNeg := rfl
@[simp] theorem Regs.writeOneToClear_bitOvf (r : Regs) (d : Word) : (r.writeOneToClear d).bitOvf = r.bitOvf := rfl
@[simp] theorem Regs.writeOneToClear_frameOk (r : Regs) (d : Word) : (r.writeOneToClear d).frameOk = r.frameOk := rfl
@[simp] theorem Regs.writeOneToClear_ckOk (r : Regs) (d : Word) : (r.writeOneToClear d).ckOk = r.ckOk := rfl
@[simp] theorem Regs.writeOneToClear_doneIe (r : Regs) (d : Word) : (r.writeOneToClear d).doneIe = r.doneIe := rfl
@[simp] theorem Regs.writeOneToClear_ovrIe (r : Regs) (d : Word) : (r.writeOneToClear d).ovrIe = r.ovrIe := rfl
@[simp] theorem Regs.writeOneToClear_bitlen (r : Regs) (d : Word) : (r.writeOneToClear d).bitlen = r.bitlen := rfl
@[simp] theorem Regs.writeOneToClear_samplen (r : Regs) (d : Word) : (r.writeOneToClear d).samplen = r.samplen := rfl
@[simp] theorem Regs.writeOneToClear_src (r : Regs) (d : Word) : (r.writeOneToClear d).src = r.src := rfl
@[simp] theorem Regs.writeOneToClear_dst (r : Regs) (d : Word) : (r.writeOneToClear d).dst = r.dst := rfl
@[simp] theorem Regs.writeOneToClear_typ (r : Regs) (d : Word) : (r.writeOneToClear d).typ = r.typ := rfl
@[simp] theorem Regs.writeOneToClear_sqn (r : Regs) (d : Word) : (r.writeOneToClear d).sqn = r.sqn := rfl
@[simp] theorem Regs.writeOneToClear_len (r : Regs) (d : Word) : (r.writeOneToClear d).len = r.len := rfl
@[simp] theorem Regs.writeOneToClear_chk (r : Regs) (d : Word) : (r.writeOneToClear d).chk = r.chk := rfl
@[simp] theorem Regs.writeOneToClear_syncThr (r : Regs) (d : Word) : (r.writeOneToClear d).syncThr = r.syncThr := rfl
@[simp] theorem Regs.writeOneToClear_syncLag (r : Regs) (d : Word) : (r.writeOneToClear d).syncLag = r.syncLag := rfl
@[simp] theorem Regs.writeOneToClear_syncPeak (r : Regs) (d : Word) : (r.writeOneToClear d).syncPeak = r.syncPeak := rfl
@[simp] theorem Regs.writeOneToClear_ckResult (r : Regs) (d : Word) : (r.writeOneToClear d).ckResult = r.ckResult := rfl

/-! `Regs.syncFailed`. -/

@[simp] theorem Regs.syncFailed_scheme (r : Regs) (p : Nat) : (r.syncFailed p).scheme = r.scheme := rfl
@[simp] theorem Regs.syncFailed_spb (r : Regs) (p : Nat) : (r.syncFailed p).spb = r.spb := rfl
@[simp] theorem Regs.syncFailed_done (r : Regs) (p : Nat) : (r.syncFailed p).done = r.done := rfl
@[simp] theorem Regs.syncFailed_err (r : Regs) (p : Nat) : (r.syncFailed p).err = r.err := rfl
@[simp] theorem Regs.syncFailed_ovr (r : Regs) (p : Nat) : (r.syncFailed p).ovr = r.ovr := rfl
@[simp] theorem Regs.syncFailed_syncOk (r : Regs) (p : Nat) : (r.syncFailed p).syncOk = r.syncOk := rfl
@[simp] theorem Regs.syncFailed_peakNeg (r : Regs) (p : Nat) : (r.syncFailed p).peakNeg = r.peakNeg := rfl
@[simp] theorem Regs.syncFailed_bitOvf (r : Regs) (p : Nat) : (r.syncFailed p).bitOvf = r.bitOvf := rfl
@[simp] theorem Regs.syncFailed_frameOk (r : Regs) (p : Nat) : (r.syncFailed p).frameOk = r.frameOk := rfl
@[simp] theorem Regs.syncFailed_ckOk (r : Regs) (p : Nat) : (r.syncFailed p).ckOk = r.ckOk := rfl
@[simp] theorem Regs.syncFailed_doneIe (r : Regs) (p : Nat) : (r.syncFailed p).doneIe = r.doneIe := rfl
@[simp] theorem Regs.syncFailed_ovrIe (r : Regs) (p : Nat) : (r.syncFailed p).ovrIe = r.ovrIe := rfl
@[simp] theorem Regs.syncFailed_bitlen (r : Regs) (p : Nat) : (r.syncFailed p).bitlen = r.bitlen := rfl
@[simp] theorem Regs.syncFailed_samplen (r : Regs) (p : Nat) : (r.syncFailed p).samplen = r.samplen := rfl
@[simp] theorem Regs.syncFailed_src (r : Regs) (p : Nat) : (r.syncFailed p).src = r.src := rfl
@[simp] theorem Regs.syncFailed_dst (r : Regs) (p : Nat) : (r.syncFailed p).dst = r.dst := rfl
@[simp] theorem Regs.syncFailed_typ (r : Regs) (p : Nat) : (r.syncFailed p).typ = r.typ := rfl
@[simp] theorem Regs.syncFailed_sqn (r : Regs) (p : Nat) : (r.syncFailed p).sqn = r.sqn := rfl
@[simp] theorem Regs.syncFailed_len (r : Regs) (p : Nat) : (r.syncFailed p).len = r.len := rfl
@[simp] theorem Regs.syncFailed_chk (r : Regs) (p : Nat) : (r.syncFailed p).chk = r.chk := rfl
@[simp] theorem Regs.syncFailed_syncThr (r : Regs) (p : Nat) : (r.syncFailed p).syncThr = r.syncThr := rfl
@[simp] theorem Regs.syncFailed_syncLag (r : Regs) (p : Nat) : (r.syncFailed p).syncLag = 0 := rfl
@[simp] theorem Regs.syncFailed_syncPeak (r : Regs) (p : Nat) : (r.syncFailed p).syncPeak = BitVec.ofNat 32 p := rfl
@[simp] theorem Regs.syncFailed_ckResult (r : Regs) (p : Nat) : (r.syncFailed p).ckResult = r.ckResult := rfl

/-! `Regs.synced`. -/

@[simp] theorem Regs.synced_scheme (r : Regs) (p lag : Nat) (neg ovf : Bool) : (r.synced p lag neg ovf).scheme = r.scheme := rfl
@[simp] theorem Regs.synced_spb (r : Regs) (p lag : Nat) (neg ovf : Bool) : (r.synced p lag neg ovf).spb = r.spb := rfl
@[simp] theorem Regs.synced_done (r : Regs) (p lag : Nat) (neg ovf : Bool) : (r.synced p lag neg ovf).done = r.done := rfl
@[simp] theorem Regs.synced_err (r : Regs) (p lag : Nat) (neg ovf : Bool) : (r.synced p lag neg ovf).err = r.err := rfl
@[simp] theorem Regs.synced_ovr (r : Regs) (p lag : Nat) (neg ovf : Bool) : (r.synced p lag neg ovf).ovr = r.ovr := rfl
@[simp] theorem Regs.synced_syncOk (r : Regs) (p lag : Nat) (neg ovf : Bool) : (r.synced p lag neg ovf).syncOk = true := rfl
@[simp] theorem Regs.synced_peakNeg (r : Regs) (p lag : Nat) (neg ovf : Bool) : (r.synced p lag neg ovf).peakNeg = neg := rfl
@[simp] theorem Regs.synced_bitOvf (r : Regs) (p lag : Nat) (neg ovf : Bool) : (r.synced p lag neg ovf).bitOvf = ovf := rfl
@[simp] theorem Regs.synced_frameOk (r : Regs) (p lag : Nat) (neg ovf : Bool) : (r.synced p lag neg ovf).frameOk = r.frameOk := rfl
@[simp] theorem Regs.synced_ckOk (r : Regs) (p lag : Nat) (neg ovf : Bool) : (r.synced p lag neg ovf).ckOk = r.ckOk := rfl
@[simp] theorem Regs.synced_doneIe (r : Regs) (p lag : Nat) (neg ovf : Bool) : (r.synced p lag neg ovf).doneIe = r.doneIe := rfl
@[simp] theorem Regs.synced_ovrIe (r : Regs) (p lag : Nat) (neg ovf : Bool) : (r.synced p lag neg ovf).ovrIe = r.ovrIe := rfl
@[simp] theorem Regs.synced_bitlen (r : Regs) (p lag : Nat) (neg ovf : Bool) : (r.synced p lag neg ovf).bitlen = r.bitlen := rfl
@[simp] theorem Regs.synced_samplen (r : Regs) (p lag : Nat) (neg ovf : Bool) : (r.synced p lag neg ovf).samplen = r.samplen := rfl
@[simp] theorem Regs.synced_src (r : Regs) (p lag : Nat) (neg ovf : Bool) : (r.synced p lag neg ovf).src = r.src := rfl
@[simp] theorem Regs.synced_dst (r : Regs) (p lag : Nat) (neg ovf : Bool) : (r.synced p lag neg ovf).dst = r.dst := rfl
@[simp] theorem Regs.synced_typ (r : Regs) (p lag : Nat) (neg ovf : Bool) : (r.synced p lag neg ovf).typ = r.typ := rfl
@[simp] theorem Regs.synced_sqn (r : Regs) (p lag : Nat) (neg ovf : Bool) : (r.synced p lag neg ovf).sqn = r.sqn := rfl
@[simp] theorem Regs.synced_len (r : Regs) (p lag : Nat) (neg ovf : Bool) : (r.synced p lag neg ovf).len = r.len := rfl
@[simp] theorem Regs.synced_chk (r : Regs) (p lag : Nat) (neg ovf : Bool) : (r.synced p lag neg ovf).chk = r.chk := rfl
@[simp] theorem Regs.synced_syncThr (r : Regs) (p lag : Nat) (neg ovf : Bool) : (r.synced p lag neg ovf).syncThr = r.syncThr := rfl
@[simp] theorem Regs.synced_syncLag (r : Regs) (p lag : Nat) (neg ovf : Bool) : (r.synced p lag neg ovf).syncLag = BitVec.ofNat 16 lag := rfl
@[simp] theorem Regs.synced_syncPeak (r : Regs) (p lag : Nat) (neg ovf : Bool) : (r.synced p lag neg ovf).syncPeak = BitVec.ofNat 32 p := rfl
@[simp] theorem Regs.synced_ckResult (r : Regs) (p lag : Nat) (neg ovf : Bool) : (r.synced p lag neg ovf).ckResult = r.ckResult := rfl

/-! `Regs.loadFrame`. -/

@[simp] theorem Regs.loadFrame_scheme (r : Regs) (a b c d e f : Byte) : (r.loadFrame a b c d e f).scheme = r.scheme := rfl
@[simp] theorem Regs.loadFrame_spb (r : Regs) (a b c d e f : Byte) : (r.loadFrame a b c d e f).spb = r.spb := rfl
@[simp] theorem Regs.loadFrame_done (r : Regs) (a b c d e f : Byte) : (r.loadFrame a b c d e f).done = r.done := rfl
@[simp] theorem Regs.loadFrame_err (r : Regs) (a b c d e f : Byte) : (r.loadFrame a b c d e f).err = r.err := rfl
@[simp] theorem Regs.loadFrame_ovr (r : Regs) (a b c d e f : Byte) : (r.loadFrame a b c d e f).ovr = r.ovr := rfl
@[simp] theorem Regs.loadFrame_syncOk (r : Regs) (a b c d e f : Byte) : (r.loadFrame a b c d e f).syncOk = r.syncOk := rfl
@[simp] theorem Regs.loadFrame_peakNeg (r : Regs) (a b c d e f : Byte) : (r.loadFrame a b c d e f).peakNeg = r.peakNeg := rfl
@[simp] theorem Regs.loadFrame_bitOvf (r : Regs) (a b c d e f : Byte) : (r.loadFrame a b c d e f).bitOvf = r.bitOvf := rfl
@[simp] theorem Regs.loadFrame_frameOk (r : Regs) (a b c d e f : Byte) : (r.loadFrame a b c d e f).frameOk = true := rfl
@[simp] theorem Regs.loadFrame_ckOk (r : Regs) (a b c d e f : Byte) : (r.loadFrame a b c d e f).ckOk = r.ckOk := rfl
@[simp] theorem Regs.loadFrame_doneIe (r : Regs) (a b c d e f : Byte) : (r.loadFrame a b c d e f).doneIe = r.doneIe := rfl
@[simp] theorem Regs.loadFrame_ovrIe (r : Regs) (a b c d e f : Byte) : (r.loadFrame a b c d e f).ovrIe = r.ovrIe := rfl
@[simp] theorem Regs.loadFrame_bitlen (r : Regs) (a b c d e f : Byte) : (r.loadFrame a b c d e f).bitlen = r.bitlen := rfl
@[simp] theorem Regs.loadFrame_samplen (r : Regs) (a b c d e f : Byte) : (r.loadFrame a b c d e f).samplen = r.samplen := rfl
@[simp] theorem Regs.loadFrame_src (r : Regs) (a b c d e f : Byte) : (r.loadFrame a b c d e f).src = a := rfl
@[simp] theorem Regs.loadFrame_dst (r : Regs) (a b c d e f : Byte) : (r.loadFrame a b c d e f).dst = b := rfl
@[simp] theorem Regs.loadFrame_typ (r : Regs) (a b c d e f : Byte) : (r.loadFrame a b c d e f).typ = c := rfl
@[simp] theorem Regs.loadFrame_sqn (r : Regs) (a b c d e f : Byte) : (r.loadFrame a b c d e f).sqn = d := rfl
@[simp] theorem Regs.loadFrame_len (r : Regs) (a b c d e f : Byte) : (r.loadFrame a b c d e f).len = e := rfl
@[simp] theorem Regs.loadFrame_chk (r : Regs) (a b c d e f : Byte) : (r.loadFrame a b c d e f).chk = f := rfl
@[simp] theorem Regs.loadFrame_syncThr (r : Regs) (a b c d e f : Byte) : (r.loadFrame a b c d e f).syncThr = r.syncThr := rfl
@[simp] theorem Regs.loadFrame_syncLag (r : Regs) (a b c d e f : Byte) : (r.loadFrame a b c d e f).syncLag = r.syncLag := rfl
@[simp] theorem Regs.loadFrame_syncPeak (r : Regs) (a b c d e f : Byte) : (r.loadFrame a b c d e f).syncPeak = r.syncPeak := rfl
@[simp] theorem Regs.loadFrame_ckResult (r : Regs) (a b c d e f : Byte) : (r.loadFrame a b c d e f).ckResult = r.ckResult := rfl

/-! `State.accept`. -/

@[simp] theorem State.accept_regs (s : State) (op : BitVec 8) : (s.accept op).regs = s.regs.acceptClears := rfl
@[simp] theorem State.accept_seq (s : State) (op : BitVec 8) : (s.accept op).seq = .busy op := rfl
@[simp] theorem State.accept_mem (s : State) (op : BitVec 8) : (s.accept op).mem = s.mem := rfl
@[simp] theorem State.accept_rstN (s : State) (op : BitVec 8) : (s.accept op).rstN = s.rstN := rfl
@[simp] theorem State.accept_payGen (s : State) (op : BitVec 8) : (s.accept op).payGen = s.payGen := rfl
@[simp] theorem State.accept_bitGen (s : State) (op : BitVec 8) : (s.accept op).bitGen = s.bitGen := rfl
@[simp] theorem State.accept_sampGen (s : State) (op : BitVec 8) : (s.accept op).sampGen = s.sampGen := rfl
@[simp] theorem State.accept_drawCount (s : State) (op : BitVec 8) : (s.accept op).drawCount = s.drawCount := rfl
@[simp] theorem State.accept_host (s : State) (op : BitVec 8) : (s.accept op).host = s.host := rfl
@[simp] theorem State.accept_turns (s : State) (op : BitVec 8) : (s.accept op).turns = s.turns := rfl
@[simp] theorem State.accept_reply (s : State) (op : BitVec 8) : (s.accept op).reply = s.reply := rfl

/-! `State.finish`. -/

@[simp] theorem State.finish_regs (s : State) (e : CmdError) : (s.finish e).regs = s.regs.completeFlags e := rfl
@[simp] theorem State.finish_seq (s : State) (e : CmdError) : (s.finish e).seq = .idle := rfl
@[simp] theorem State.finish_mem (s : State) (e : CmdError) : (s.finish e).mem = s.mem := rfl
@[simp] theorem State.finish_rstN (s : State) (e : CmdError) : (s.finish e).rstN = s.rstN := rfl
@[simp] theorem State.finish_payGen (s : State) (e : CmdError) : (s.finish e).payGen = s.payGen := rfl
@[simp] theorem State.finish_bitGen (s : State) (e : CmdError) : (s.finish e).bitGen = s.bitGen := rfl
@[simp] theorem State.finish_sampGen (s : State) (e : CmdError) : (s.finish e).sampGen = s.sampGen := rfl
@[simp] theorem State.finish_drawCount (s : State) (e : CmdError) : (s.finish e).drawCount = s.drawCount := rfl
@[simp] theorem State.finish_host (s : State) (e : CmdError) : (s.finish e).host = s.host := rfl
@[simp] theorem State.finish_turns (s : State) (e : CmdError) : (s.finish e).turns = s.turns := rfl
@[simp] theorem State.finish_reply (s : State) (e : CmdError) : (s.finish e).reply = s.reply := rfl

/-! `State.storeBytes`. -/

@[simp] theorem State.storeBytes_regs (s : State) (a : Nat) (vs : List Byte) : (s.storeBytes a vs).regs = s.regs := rfl
@[simp] theorem State.storeBytes_seq (s : State) (a : Nat) (vs : List Byte) : (s.storeBytes a vs).seq = s.seq := rfl
@[simp] theorem State.storeBytes_mem (s : State) (a : Nat) (vs : List Byte) : (s.storeBytes a vs).mem = s.mem.store a vs := rfl
@[simp] theorem State.storeBytes_rstN (s : State) (a : Nat) (vs : List Byte) : (s.storeBytes a vs).rstN = s.rstN := rfl
@[simp] theorem State.storeBytes_payGen (s : State) (a : Nat) (vs : List Byte) : (s.storeBytes a vs).payGen = s.payGen := rfl
@[simp] theorem State.storeBytes_bitGen (s : State) (a : Nat) (vs : List Byte) : (s.storeBytes a vs).bitGen = s.bitGen := rfl
@[simp] theorem State.storeBytes_sampGen (s : State) (a : Nat) (vs : List Byte) : (s.storeBytes a vs).sampGen = s.sampGen := rfl
@[simp] theorem State.storeBytes_drawCount (s : State) (a : Nat) (vs : List Byte) : (s.storeBytes a vs).drawCount = s.drawCount := rfl
@[simp] theorem State.storeBytes_host (s : State) (a : Nat) (vs : List Byte) : (s.storeBytes a vs).host = s.host := rfl
@[simp] theorem State.storeBytes_turns (s : State) (a : Nat) (vs : List Byte) : (s.storeBytes a vs).turns = s.turns := rfl
@[simp] theorem State.storeBytes_reply (s : State) (a : Nat) (vs : List Byte) : (s.storeBytes a vs).reply = s.reply := rfl

/-! `State.setBitlen`. -/

@[simp] theorem State.setBitlen_regs (s : State) (n : Nat) : (s.setBitlen n).regs = { s.regs with bitlen := BitVec.ofNat 13 n } := rfl
@[simp] theorem State.setBitlen_seq (s : State) (n : Nat) : (s.setBitlen n).seq = s.seq := rfl
@[simp] theorem State.setBitlen_mem (s : State) (n : Nat) : (s.setBitlen n).mem = s.mem := rfl
@[simp] theorem State.setBitlen_rstN (s : State) (n : Nat) : (s.setBitlen n).rstN = s.rstN := rfl
@[simp] theorem State.setBitlen_payGen (s : State) (n : Nat) : (s.setBitlen n).payGen = s.payGen := rfl
@[simp] theorem State.setBitlen_bitGen (s : State) (n : Nat) : (s.setBitlen n).bitGen = s.bitGen := rfl
@[simp] theorem State.setBitlen_sampGen (s : State) (n : Nat) : (s.setBitlen n).sampGen = s.sampGen := rfl
@[simp] theorem State.setBitlen_drawCount (s : State) (n : Nat) : (s.setBitlen n).drawCount = s.drawCount := rfl
@[simp] theorem State.setBitlen_host (s : State) (n : Nat) : (s.setBitlen n).host = s.host := rfl
@[simp] theorem State.setBitlen_turns (s : State) (n : Nat) : (s.setBitlen n).turns = s.turns := rfl
@[simp] theorem State.setBitlen_reply (s : State) (n : Nat) : (s.setBitlen n).reply = s.reply := rfl

/-! `State.setSamplen`. -/

@[simp] theorem State.setSamplen_regs (s : State) (n : Nat) : (s.setSamplen n).regs = { s.regs with samplen := BitVec.ofNat 17 n } := rfl
@[simp] theorem State.setSamplen_seq (s : State) (n : Nat) : (s.setSamplen n).seq = s.seq := rfl
@[simp] theorem State.setSamplen_mem (s : State) (n : Nat) : (s.setSamplen n).mem = s.mem := rfl
@[simp] theorem State.setSamplen_rstN (s : State) (n : Nat) : (s.setSamplen n).rstN = s.rstN := rfl
@[simp] theorem State.setSamplen_payGen (s : State) (n : Nat) : (s.setSamplen n).payGen = s.payGen := rfl
@[simp] theorem State.setSamplen_bitGen (s : State) (n : Nat) : (s.setSamplen n).bitGen = s.bitGen := rfl
@[simp] theorem State.setSamplen_sampGen (s : State) (n : Nat) : (s.setSamplen n).sampGen = s.sampGen := rfl
@[simp] theorem State.setSamplen_drawCount (s : State) (n : Nat) : (s.setSamplen n).drawCount = s.drawCount := rfl
@[simp] theorem State.setSamplen_host (s : State) (n : Nat) : (s.setSamplen n).host = s.host := rfl
@[simp] theorem State.setSamplen_turns (s : State) (n : Nat) : (s.setSamplen n).turns = s.turns := rfl
@[simp] theorem State.setSamplen_reply (s : State) (n : Nat) : (s.setSamplen n).reply = s.reply := rfl

/-! `State.setChk`. -/

@[simp] theorem State.setChk_regs (s : State) (c : Byte) : (s.setChk c).regs = { s.regs with chk := c } := rfl
@[simp] theorem State.setChk_seq (s : State) (c : Byte) : (s.setChk c).seq = s.seq := rfl
@[simp] theorem State.setChk_mem (s : State) (c : Byte) : (s.setChk c).mem = s.mem := rfl
@[simp] theorem State.setChk_rstN (s : State) (c : Byte) : (s.setChk c).rstN = s.rstN := rfl
@[simp] theorem State.setChk_payGen (s : State) (c : Byte) : (s.setChk c).payGen = s.payGen := rfl
@[simp] theorem State.setChk_bitGen (s : State) (c : Byte) : (s.setChk c).bitGen = s.bitGen := rfl
@[simp] theorem State.setChk_sampGen (s : State) (c : Byte) : (s.setChk c).sampGen = s.sampGen := rfl
@[simp] theorem State.setChk_drawCount (s : State) (c : Byte) : (s.setChk c).drawCount = s.drawCount := rfl
@[simp] theorem State.setChk_host (s : State) (c : Byte) : (s.setChk c).host = s.host := rfl
@[simp] theorem State.setChk_turns (s : State) (c : Byte) : (s.setChk c).turns = s.turns := rfl
@[simp] theorem State.setChk_reply (s : State) (c : Byte) : (s.setChk c).reply = s.reply := rfl

/-! `State.setCkResult`. -/

@[simp] theorem State.setCkResult_regs (s : State) (c : Byte) : (s.setCkResult c).regs = { s.regs with ckResult := c } := rfl
@[simp] theorem State.setCkResult_seq (s : State) (c : Byte) : (s.setCkResult c).seq = s.seq := rfl
@[simp] theorem State.setCkResult_mem (s : State) (c : Byte) : (s.setCkResult c).mem = s.mem := rfl
@[simp] theorem State.setCkResult_rstN (s : State) (c : Byte) : (s.setCkResult c).rstN = s.rstN := rfl
@[simp] theorem State.setCkResult_payGen (s : State) (c : Byte) : (s.setCkResult c).payGen = s.payGen := rfl
@[simp] theorem State.setCkResult_bitGen (s : State) (c : Byte) : (s.setCkResult c).bitGen = s.bitGen := rfl
@[simp] theorem State.setCkResult_sampGen (s : State) (c : Byte) : (s.setCkResult c).sampGen = s.sampGen := rfl
@[simp] theorem State.setCkResult_drawCount (s : State) (c : Byte) : (s.setCkResult c).drawCount = s.drawCount := rfl
@[simp] theorem State.setCkResult_host (s : State) (c : Byte) : (s.setCkResult c).host = s.host := rfl
@[simp] theorem State.setCkResult_turns (s : State) (c : Byte) : (s.setCkResult c).turns = s.turns := rfl
@[simp] theorem State.setCkResult_reply (s : State) (c : Byte) : (s.setCkResult c).reply = s.reply := rfl

/-! `State.setCkOk`. -/

@[simp] theorem State.setCkOk_regs (s : State) (b : Bool) : (s.setCkOk b).regs = { s.regs with ckOk := b } := rfl
@[simp] theorem State.setCkOk_seq (s : State) (b : Bool) : (s.setCkOk b).seq = s.seq := rfl
@[simp] theorem State.setCkOk_mem (s : State) (b : Bool) : (s.setCkOk b).mem = s.mem := rfl
@[simp] theorem State.setCkOk_rstN (s : State) (b : Bool) : (s.setCkOk b).rstN = s.rstN := rfl
@[simp] theorem State.setCkOk_payGen (s : State) (b : Bool) : (s.setCkOk b).payGen = s.payGen := rfl
@[simp] theorem State.setCkOk_bitGen (s : State) (b : Bool) : (s.setCkOk b).bitGen = s.bitGen := rfl
@[simp] theorem State.setCkOk_sampGen (s : State) (b : Bool) : (s.setCkOk b).sampGen = s.sampGen := rfl
@[simp] theorem State.setCkOk_drawCount (s : State) (b : Bool) : (s.setCkOk b).drawCount = s.drawCount := rfl
@[simp] theorem State.setCkOk_host (s : State) (b : Bool) : (s.setCkOk b).host = s.host := rfl
@[simp] theorem State.setCkOk_turns (s : State) (b : Bool) : (s.setCkOk b).turns = s.turns := rfl
@[simp] theorem State.setCkOk_reply (s : State) (b : Bool) : (s.setCkOk b).reply = s.reply := rfl

/-! `State.writePays`. -/

@[simp] theorem State.writePays_regs (s : State) (vs : List Byte) : (s.writePays vs).regs = s.regs := rfl
@[simp] theorem State.writePays_seq (s : State) (vs : List Byte) : (s.writePays vs).seq = s.seq := rfl
@[simp] theorem State.writePays_mem (s : State) (vs : List Byte) : (s.writePays vs).mem = s.mem.store 0x100 vs := rfl
@[simp] theorem State.writePays_rstN (s : State) (vs : List Byte) : (s.writePays vs).rstN = s.rstN := rfl
@[simp] theorem State.writePays_payGen (s : State) (vs : List Byte) : (s.writePays vs).payGen = s.payGen := rfl
@[simp] theorem State.writePays_bitGen (s : State) (vs : List Byte) : (s.writePays vs).bitGen = s.bitGen := rfl
@[simp] theorem State.writePays_sampGen (s : State) (vs : List Byte) : (s.writePays vs).sampGen = s.sampGen := rfl
@[simp] theorem State.writePays_drawCount (s : State) (vs : List Byte) : (s.writePays vs).drawCount = s.drawCount := rfl
@[simp] theorem State.writePays_host (s : State) (vs : List Byte) : (s.writePays vs).host = s.host := rfl
@[simp] theorem State.writePays_turns (s : State) (vs : List Byte) : (s.writePays vs).turns = s.turns := rfl
@[simp] theorem State.writePays_reply (s : State) (vs : List Byte) : (s.writePays vs).reply = s.reply := rfl

/-! `State.writeSamps`. -/

@[simp] theorem State.writeSamps_regs (s : State) (vs : List Int) : (s.writeSamps vs).regs = s.regs := rfl
@[simp] theorem State.writeSamps_seq (s : State) (vs : List Int) : (s.writeSamps vs).seq = s.seq := rfl
@[simp] theorem State.writeSamps_mem (s : State) (vs : List Int) : (s.writeSamps vs).mem = s.mem.store 0x20000 (vs.flatMap sampleBytes) := rfl
@[simp] theorem State.writeSamps_rstN (s : State) (vs : List Int) : (s.writeSamps vs).rstN = s.rstN := rfl
@[simp] theorem State.writeSamps_payGen (s : State) (vs : List Int) : (s.writeSamps vs).payGen = s.payGen := rfl
@[simp] theorem State.writeSamps_bitGen (s : State) (vs : List Int) : (s.writeSamps vs).bitGen = s.bitGen := rfl
@[simp] theorem State.writeSamps_sampGen (s : State) (vs : List Int) : (s.writeSamps vs).sampGen = s.sampGen := rfl
@[simp] theorem State.writeSamps_drawCount (s : State) (vs : List Int) : (s.writeSamps vs).drawCount = s.drawCount := rfl
@[simp] theorem State.writeSamps_host (s : State) (vs : List Int) : (s.writeSamps vs).host = s.host := rfl
@[simp] theorem State.writeSamps_turns (s : State) (vs : List Int) : (s.writeSamps vs).turns = s.turns := rfl
@[simp] theorem State.writeSamps_reply (s : State) (vs : List Int) : (s.writeSamps vs).reply = s.reply := rfl

/-! `State.writeBits`. -/

@[simp] theorem State.writeBits_regs (s : State) (bs : List Bool) : (s.writeBits bs).regs = s.regs := rfl
@[simp] theorem State.writeBits_seq (s : State) (bs : List Bool) : (s.writeBits bs).seq = s.seq := rfl
@[simp] theorem State.writeBits_mem (s : State) (bs : List Bool) : (s.writeBits bs).mem = s.mem.store 0x200 (packBytes ((bs.length + 7) / 8) (bs ++ (s.bits (8 * ((bs.length + 7) / 8))).drop bs.length)) := rfl
@[simp] theorem State.writeBits_rstN (s : State) (bs : List Bool) : (s.writeBits bs).rstN = s.rstN := rfl
@[simp] theorem State.writeBits_payGen (s : State) (bs : List Bool) : (s.writeBits bs).payGen = s.payGen := rfl
@[simp] theorem State.writeBits_bitGen (s : State) (bs : List Bool) : (s.writeBits bs).bitGen = s.bitGen := rfl
@[simp] theorem State.writeBits_sampGen (s : State) (bs : List Bool) : (s.writeBits bs).sampGen = s.sampGen := rfl
@[simp] theorem State.writeBits_drawCount (s : State) (bs : List Bool) : (s.writeBits bs).drawCount = s.drawCount := rfl
@[simp] theorem State.writeBits_host (s : State) (bs : List Bool) : (s.writeBits bs).host = s.host := rfl
@[simp] theorem State.writeBits_turns (s : State) (bs : List Bool) : (s.writeBits bs).turns = s.turns := rfl
@[simp] theorem State.writeBits_reply (s : State) (bs : List Bool) : (s.writeBits bs).reply = s.reply := rfl

/-! `State.unspecify`. -/

@[simp] theorem State.unspecify_regs (s : State) (b : Buffer) : (s.unspecify b).regs = s.regs := rfl
@[simp] theorem State.unspecify_seq (s : State) (b : Buffer) : (s.unspecify b).seq = s.seq := rfl
@[simp] theorem State.unspecify_mem (s : State) (b : Buffer) : (s.unspecify b).mem = s.mem.forget b := rfl
@[simp] theorem State.unspecify_rstN (s : State) (b : Buffer) : (s.unspecify b).rstN = s.rstN := rfl
@[simp] theorem State.unspecify_payGen (s : State) (b : Buffer) : (s.unspecify b).payGen = (if b = .pay then s.payGen + 1 else s.payGen) := rfl
@[simp] theorem State.unspecify_bitGen (s : State) (b : Buffer) : (s.unspecify b).bitGen = (if b = .bit then s.bitGen + 1 else s.bitGen) := rfl
@[simp] theorem State.unspecify_sampGen (s : State) (b : Buffer) : (s.unspecify b).sampGen = (if b = .samp then s.sampGen + 1 else s.sampGen) := rfl
@[simp] theorem State.unspecify_drawCount (s : State) (b : Buffer) : (s.unspecify b).drawCount = s.drawCount := rfl
@[simp] theorem State.unspecify_host (s : State) (b : Buffer) : (s.unspecify b).host = s.host := rfl
@[simp] theorem State.unspecify_turns (s : State) (b : Buffer) : (s.unspecify b).turns = s.turns := rfl
@[simp] theorem State.unspecify_reply (s : State) (b : Buffer) : (s.unspecify b).reply = s.reply := rfl

/-! `State.softReset`. -/

@[simp] theorem State.softReset_regs (s : State) : (s.softReset).regs = Regs.reset := rfl
@[simp] theorem State.softReset_seq (s : State) : (s.softReset).seq = .idle := rfl
@[simp] theorem State.softReset_mem (s : State) : (s.softReset).mem = s.abortBuffers.mem := rfl
@[simp] theorem State.softReset_rstN (s : State) : (s.softReset).rstN = s.abortBuffers.rstN := rfl
@[simp] theorem State.softReset_payGen (s : State) : (s.softReset).payGen = s.abortBuffers.payGen := rfl
@[simp] theorem State.softReset_bitGen (s : State) : (s.softReset).bitGen = s.abortBuffers.bitGen := rfl
@[simp] theorem State.softReset_sampGen (s : State) : (s.softReset).sampGen = s.abortBuffers.sampGen := rfl
@[simp] theorem State.softReset_drawCount (s : State) : (s.softReset).drawCount = s.abortBuffers.drawCount := rfl
@[simp] theorem State.softReset_host (s : State) : (s.softReset).host = s.abortBuffers.host := rfl
@[simp] theorem State.softReset_turns (s : State) : (s.softReset).turns = s.abortBuffers.turns := rfl
@[simp] theorem State.softReset_reply (s : State) : (s.softReset).reply = s.abortBuffers.reply := rfl

/-! `State.hardReset`. -/

@[simp] theorem State.hardReset_regs (s : State) (l : Bool) : (s.hardReset l).regs = Regs.reset := rfl
@[simp] theorem State.hardReset_seq (s : State) (l : Bool) : (s.hardReset l).seq = .idle := rfl
@[simp] theorem State.hardReset_mem (s : State) (l : Bool) : (s.hardReset l).mem = ((s.mem.forget .pay).forget .bit).forget .samp := rfl
@[simp] theorem State.hardReset_rstN (s : State) (l : Bool) : (s.hardReset l).rstN = l := rfl
@[simp] theorem State.hardReset_payGen (s : State) (l : Bool) : (s.hardReset l).payGen = s.payGen + 1 := rfl
@[simp] theorem State.hardReset_bitGen (s : State) (l : Bool) : (s.hardReset l).bitGen = s.bitGen + 1 := rfl
@[simp] theorem State.hardReset_sampGen (s : State) (l : Bool) : (s.hardReset l).sampGen = s.sampGen + 1 := rfl
@[simp] theorem State.hardReset_drawCount (s : State) (l : Bool) : (s.hardReset l).drawCount = s.drawCount := rfl
@[simp] theorem State.hardReset_host (s : State) (l : Bool) : (s.hardReset l).host = s.host := rfl
@[simp] theorem State.hardReset_turns (s : State) (l : Bool) : (s.hardReset l).turns = s.turns := rfl
@[simp] theorem State.hardReset_reply (s : State) (l : Bool) : (s.hardReset l).reply = s.reply := rfl

end Sys2Proof.Machine
end

