-- ==== Sys2Proof/Laws/Memory.lean ====
section
/-! SUPPORT. What the buffer operations do: read after write, what a write leaves alone, the canonical form. -/

namespace Sys2Proof.Machine

/-! Single bytes. -/

theorem Memory.lookup_append (k : Nat) (m₁ m₂ : Memory) :
    Memory.lookup k (m₁ ++ m₂) = (Memory.lookup k m₁).or (Memory.lookup k m₂) := by
  induction m₁ with
  | nil => simp [Memory.lookup]
  | cons c m ih =>
    obtain ⟨a, v⟩ := c
    by_cases h : a = k <;> simp [Memory.lookup, h, ih]

theorem Memory.lookup_filter (p : Nat → Bool) (k : Nat) (m : Memory) :
    Memory.lookup k (m.filter (fun c => p c.1)) = if p k then Memory.lookup k m else none := by
  induction m with
  | nil => simp [Memory.lookup]
  | cons c m ih =>
    obtain ⟨a, v⟩ := c
    by_cases hp : p a
    · by_cases h : a = k
      · subst h; simp [Memory.lookup, hp]
      · simp [Memory.lookup, hp, h, ih]
    · by_cases h : a = k
      · subst h; simp [hp, ih]
      · simp [Memory.lookup, hp, h, ih]

theorem Memory.lookup_cells (k a : Nat) (vs : List Byte) :
    Memory.lookup k (Memory.cells a vs) = if a ≤ k then vs[k - a]? else none := by
  induction vs generalizing a with
  | nil => simp [Memory.cells, Memory.lookup]
  | cons v vs ih =>
    simp only [Memory.cells, Memory.lookup, ih]
    by_cases h : a = k
    · subst h; simp
    · by_cases h2 : a ≤ k
      · have e : k - a = (k - (a + 1)) + 1 := by omega
        rw [if_neg h, if_pos (by omega), if_pos h2, e, List.getElem?_cons_succ]
      · rw [if_neg h, if_neg (by omega), if_neg h2]

/-- A byte after a write: the written one inside, the old one outside. -/
theorem Memory.lookup_store (k a : Nat) (vs : List Byte) (m : Memory) :
    Memory.lookup k (m.store a vs) =
      if a ≤ k ∧ k < a + vs.length then vs[k - a]? else Memory.lookup k m := by
  have h1 := Memory.lookup_filter (fun x => decide (x < a)) k m
  have h2 := Memory.lookup_filter (fun x => decide (a + vs.length ≤ x)) k m
  simp only [Memory.store, Memory.lookup_append, h1, h2, Memory.lookup_cells]
  by_cases ha : a ≤ k
  · by_cases hb : k < a + vs.length
    · have : k - a < vs.length := by omega
      simp [ha, hb, Nat.not_lt.mpr ha, List.getElem?_eq_getElem this]
    · have : vs.length ≤ k - a := by omega
      simp [ha, hb, Nat.not_lt.mpr ha, List.getElem?_eq_none this, Nat.not_lt.mp hb]
  · have hb : ¬ a + vs.length ≤ k := by omega
    simp [ha, hb, Nat.not_le.mp ha]

theorem Memory.lookup_forget (b : Buffer) (k : Nat) (m : Memory) :
    Memory.lookup k (m.forget b) = if b.holds k then none else Memory.lookup k m := by
  have h := Memory.lookup_filter (fun x => !b.holds x) k m
  rw [Memory.forget, h]
  by_cases hb : b.holds k <;> simp [hb]

/-! The canonical form. -/

theorem Memory.wfFrom_iff (lo : Nat) (m : Memory) :
    Memory.wfFrom lo m = true ↔
      m.Pairwise (fun c d => c.1 < d.1) ∧ ∀ c ∈ m, lo ≤ c.1 ∧ inBuffers c.1 = true := by
  induction m generalizing lo with
  | nil => simp [Memory.wfFrom]
  | cons c m ih =>
    obtain ⟨k, v⟩ := c
    simp only [Memory.wfFrom, Bool.and_eq_true, decide_eq_true_eq, ih, List.pairwise_cons, List.mem_cons,
      forall_eq_or_imp]
    constructor
    · rintro ⟨⟨hlo, hb⟩, hp, hm⟩
      exact ⟨⟨fun d hd => (hm d hd).1, hp⟩, ⟨hlo, hb⟩, fun d hd => ⟨by have := (hm d hd).1; omega, (hm d hd).2⟩⟩
    · rintro ⟨⟨hk, hp⟩, ⟨hlo, hb⟩, hm⟩
      exact ⟨⟨hlo, hb⟩, hp, fun d hd => ⟨hk d hd, (hm d hd).2⟩⟩

theorem Memory.wf_iff (m : Memory) :
    m.wf = true ↔ m.Pairwise (fun c d => c.1 < d.1) ∧ ∀ c ∈ m, inBuffers c.1 = true := by
  simp [Memory.wf, Memory.wfFrom_iff]

theorem Memory.mem_cells {c : Host.Cell} {a : Nat} {vs : List Byte} (h : c ∈ Memory.cells a vs) :
    a ≤ c.1 ∧ c.1 < a + vs.length := by
  induction vs generalizing a with
  | nil => simp [Memory.cells] at h
  | cons v vs ih =>
    simp only [Memory.cells, List.mem_cons] at h
    rcases h with rfl | h
    · simp
    · have := ih h
      simp only [List.length_cons]
      omega

theorem Memory.pairwise_cells (a : Nat) (vs : List Byte) :
    (Memory.cells a vs).Pairwise (fun c d => c.1 < d.1) := by
  induction vs generalizing a with
  | nil => simp [Memory.cells]
  | cons v vs ih =>
    simp only [Memory.cells, List.pairwise_cons]
    exact ⟨fun d hd => (Memory.mem_cells hd).1, ih (a + 1)⟩

/-- A write inside the buffers keeps the canonical form. -/
theorem Memory.wf_store {m : Memory} {a : Nat} {vs : List Byte} (hm : m.wf = true)
    (hv : ∀ i < vs.length, inBuffers (a + i) = true) : (m.store a vs).wf = true := by
  rw [Memory.wf_iff] at hm ⊢
  obtain ⟨hp, hb⟩ := hm
  constructor
  · rw [Memory.store, List.append_assoc, List.pairwise_append, List.pairwise_append]
    refine ⟨hp.filter _, ⟨Memory.pairwise_cells a vs, hp.filter _, ?_⟩, ?_⟩
    · intro c hc d hd
      have h1 := (Memory.mem_cells hc).2
      simp only [List.mem_filter, decide_eq_true_eq] at hd
      omega
    · intro c hc d hd
      simp only [List.mem_filter, List.mem_append, decide_eq_true_eq] at hc hd
      rcases hd with hd | hd
      · have := (Memory.mem_cells hd).1; omega
      · omega
  · intro c hc
    simp only [Memory.store, List.mem_append, List.mem_filter] at hc
    rcases hc with (hc | hc) | hc
    · exact hb c hc.1
    · obtain ⟨h1, h2⟩ := Memory.mem_cells hc
      have := hv (c.1 - a) (by omega)
      rwa [Nat.add_sub_cancel' h1] at this
    · exact hb c hc.1

/-- Forgetting a buffer keeps the canonical form. -/
theorem Memory.wf_forget {m : Memory} (b : Buffer) (hm : m.wf = true) : (m.forget b).wf = true := by
  rw [Memory.wf_iff] at hm ⊢
  exact ⟨hm.1.filter _, fun c hc => hm.2 c (List.mem_of_mem_filter hc)⟩

/-! Runs of bytes. -/

theorem Memory.walk_length (draw : Nat → Byte) (n a : Nat) (m : Memory) :
    (Memory.walk draw n a m).length = n := by
  induction n generalizing a m with
  | zero => simp [Memory.walk]
  | succ n ih =>
    cases m with
    | nil => simp [Memory.walk, ih]
    | cons c m =>
      obtain ⟨k, v⟩ := c
      by_cases h : k = a <;> simp [Memory.walk, h, ih]

theorem Memory.lookup_none_of_lt {m : Memory} {a : Nat} (h : ∀ c ∈ m, a < c.1) : Memory.lookup a m = none := by
  induction m with
  | nil => rfl
  | cons c m ih =>
    obtain ⟨k, v⟩ := c
    have hk : a < k := h (k, v) (by simp)
    have := ih fun d hd => h d (by simp [hd])
    simp [Memory.lookup, this, Nat.ne_of_gt hk]

/-- The walk reads what single lookups read. -/
theorem Memory.walk_eq (draw : Nat → Byte) (n a : Nat) (m : Memory)
    (hp : m.Pairwise (fun c d => c.1 < d.1)) (ha : ∀ c ∈ m, a ≤ c.1) :
    Memory.walk draw n a m =
      (List.range n).map (fun i => (Memory.lookup (a + i) m).getD (draw (a + i))) := by
  induction n generalizing a m with
  | zero => simp [Memory.walk]
  | succ n ih =>
    rw [List.range_succ_eq_map, List.map_cons, List.map_map]
    cases m with
    | nil =>
      rw [Memory.walk, ih (a + 1) [] List.Pairwise.nil (by simp)]
      simp [Memory.lookup, Function.comp_def, Nat.add_comm, Nat.add_left_comm]
    | cons c m =>
      obtain ⟨k, v⟩ := c
      obtain ⟨hk, hp'⟩ := List.pairwise_cons.mp hp
      by_cases h : k = a
      · subst h
        rw [Memory.walk, if_pos rfl, ih (k + 1) m hp' fun c hc => hk c hc]
        have e : ∀ i, k + 1 + i = k + (i + 1) := by omega
        simp [Memory.lookup, Function.comp_def, e]
      · have hlt : ∀ c ∈ (k, v) :: m, a + 1 ≤ c.1 := by
          intro c hc
          have h1 := ha c hc
          have h2 : a < k := by have := ha (k, v) (by simp); simp only at this; omega
          rcases List.mem_cons.mp hc with rfl | hc
          · exact h2
          · have h3 := hk c hc; simp only at h3; omega
        rw [Memory.walk, if_neg h, ih (a + 1) _ hp hlt]
        have h0 : Memory.lookup a ((k, v) :: m) = none := Memory.lookup_none_of_lt fun c hc => hlt c hc
        have e : ∀ i, a + 1 + i = a + (i + 1) := by omega
        simp [h0, Function.comp_def, e]

theorem Memory.lookup_dropWhile {m : Memory} {a k : Nat} (hk : a ≤ k) :
    Memory.lookup k (m.dropWhile (fun c => decide (c.1 < a))) = Memory.lookup k m := by
  induction m with
  | nil => rfl
  | cons c m ih =>
    obtain ⟨x, v⟩ := c
    by_cases h : x < a
    · have hx : x ≠ k := by omega
      simp [h, ih, Memory.lookup, hx]
    · simp [h]

theorem Memory.le_of_mem_dropWhile {m : Memory} {a : Nat} (hp : m.Pairwise (fun c d => c.1 < d.1)) :
    ∀ c ∈ m.dropWhile (fun c => decide (c.1 < a)), a ≤ c.1 := by
  induction m with
  | nil => simp
  | cons c m ih =>
    obtain ⟨hk, hp'⟩ := List.pairwise_cons.mp hp
    by_cases h : c.1 < a
    · simpa [List.dropWhile_cons, h] using ih hp'
    · intro d hd
      simp only [List.dropWhile_cons, h, decide_false, Bool.false_eq_true, if_false, List.mem_cons] at hd
      rcases hd with rfl | hd
      · omega
      · have := hk d hd; omega

@[simp] theorem State.bytesAt_length (s : State) (a n : Nat) : (s.bytesAt a n).length = n :=
  Memory.walk_length _ _ _ _

/-- A run of bytes is its single bytes. -/
theorem State.bytesAt_eq {s : State} (hs : s.MemWf) (a n : Nat) :
    s.bytesAt a n = (List.range n).map (fun i => s.byteAt (a + i)) := by
  have hp := ((Memory.wf_iff s.mem).mp hs).1
  rw [State.bytesAt, Memory.walk_eq _ _ _ _ (hp.sublist (List.dropWhile_sublist _)) (Memory.le_of_mem_dropWhile hp)]
  refine List.map_congr_left fun i _ => ?_
  rw [Memory.lookup_dropWhile (Nat.le_add_right a i), State.byteAt]

theorem State.bytesAt_getElem {s : State} (hs : s.MemWf) (a n i : Nat) (hi : i < (s.bytesAt a n).length) :
    (s.bytesAt a n)[i] = s.byteAt (a + i) := by
  simp [State.bytesAt_eq hs]

/-- The draw of an unspecified byte depends on the draw counters only. -/
theorem State.draw_congr {s t : State} (h1 : t.payGen = s.payGen) (h2 : t.bitGen = s.bitGen)
    (h3 : t.sampGen = s.sampGen) : t.draw = s.draw := by
  funext a
  simp [State.draw, h1, h2, h3]

theorem State.byteAt_congr {s t : State} (hm : t.mem = s.mem) (h1 : t.payGen = s.payGen) (h2 : t.bitGen = s.bitGen)
    (h3 : t.sampGen = s.sampGen) : t.byteAt = s.byteAt := by
  funext a
  simp [State.byteAt, hm, State.draw_congr h1 h2 h3]

theorem State.bytesAt_congr {s t : State} (hm : t.mem = s.mem) (h1 : t.payGen = s.payGen)
    (h2 : t.bitGen = s.bitGen) (h3 : t.sampGen = s.sampGen) : t.bytesAt = s.bytesAt := by
  funext a n
  simp [State.bytesAt, hm, State.draw_congr h1 h2 h3]

/-- A buffer byte after a write. -/
theorem State.byteAt_storeBytes (s : State) (a k : Nat) (vs : List Byte) :
    (s.storeBytes a vs).byteAt k = if h : a ≤ k ∧ k < a + vs.length then vs[k - a]'(by omega) else s.byteAt k := by
  have hd : (s.storeBytes a vs).draw k = s.draw k := rfl
  rw [State.byteAt, hd, State.storeBytes_mem, Memory.lookup_store]
  by_cases h : a ≤ k ∧ k < a + vs.length
  · have : k - a < vs.length := by omega
    simp [h, List.getElem?_eq_getElem this]
  · simp [h, State.byteAt]

theorem State.byteAt_storeBytes_of_out (s : State) {a k : Nat} {vs : List Byte} (h : k < a ∨ a + vs.length ≤ k) :
    (s.storeBytes a vs).byteAt k = s.byteAt k := by
  rw [State.byteAt_storeBytes, dif_neg (by omega)]

/-- A write of bytes inside the buffers keeps the canonical form. -/
theorem State.memWf_storeBytes {s : State} {a : Nat} {vs : List Byte} (hs : s.MemWf)
    (hv : ∀ i < vs.length, inBuffers (a + i) = true) : (s.storeBytes a vs).MemWf :=
  Memory.wf_store hs hv

theorem inBuffers_of_mem {b : Buffer} {a : Nat} (h1 : b.base ≤ a) (h2 : a < b.base + b.size) :
    inBuffers a = true := by
  have : b.holds a = true := by simp [Buffer.holds, h1, h2]
  cases b <;> simp [inBuffers, this]

end Sys2Proof.Machine
end

