-- ==== Sys2Proof/Laws/Operands.lean ====
section
/-! SUPPORT. What the operand views read and write: bits and bytes of the bit buffer, samples, payload bytes. -/

namespace Sys2Proof.Machine

/-! Sequences cut into pieces of one length. -/

/-- Element `i` of joined pieces of length `k` is element `i mod k` of piece `i div k`. -/
theorem getElem?_flatMap_const {α β : Type} {f : α → List β} {k : Nat} (hk : 0 < k) (hf : ∀ x, (f x).length = k)
    (l : List α) (i : Nat) : (l.flatMap f)[i]? = l[i / k]?.bind (fun x => (f x)[i % k]?) := by
  induction l generalizing i with
  | nil => simp
  | cons x l ih =>
    rw [List.flatMap_cons]
    by_cases h : i < k
    · rw [List.getElem?_append_left (by rw [hf]; exact h), Nat.div_eq_of_lt h, Nat.mod_eq_of_lt h]
      simp
    · obtain ⟨j, rfl⟩ : ∃ j, i = j + k := ⟨i - k, by omega⟩
      rw [List.getElem?_append_right (by rw [hf]; omega), hf, Nat.add_sub_cancel, ih,
        Nat.add_div_right _ hk, Nat.add_mod_right]
      simp

theorem length_flatMap_const {α β : Type} {f : α → List β} {k : Nat} (hf : ∀ x, (f x).length = k) (l : List α) :
    (l.flatMap f).length = l.length * k := by
  simp [List.length_flatMap, hf]

/-! Bytes and bits. -/

@[simp] theorem msb8_length (v : Byte) : (msb8 v).length = 8 := rfl

theorem msb8_getElem (v : Byte) (i : Nat) (hi : i < (msb8 v).length) : (msb8 v)[i] = v.getLsbD (7 - i) := by
  have h : i < 8 := hi
  rcases i with _ | _ | _ | _ | _ | _ | _ | _ | i <;> first | rfl | omega

theorem msb8_byteOfBits_cases : ∀ a b c d e f g h : Bool,
    msb8 (byteOfBits [a, b, c, d, e, f, g, h]) = [a, b, c, d, e, f, g, h] := by decide

theorem msb8_byteOfBits {bs : List Bool} (h : bs.length = 8) : msb8 (byteOfBits bs) = bs := by
  match bs, h with
  | [a, b, c, d, e, f, g, h], _ => exact msb8_byteOfBits_cases a b c d e f g h

theorem msb8_injective {v w : Byte} (h : msb8 v = msb8 w) : v = w := by
  simp only [msb8, List.cons.injEq, and_true] at h
  obtain ⟨h7, h6, h5, h4, h3, h2, h1, h0⟩ := h
  refine BitVec.eq_of_getLsbD_eq fun i hi => ?_
  rcases i with _ | _ | _ | _ | _ | _ | _ | _ | i <;> first | assumption | omega

@[simp] theorem byteOfBits_msb8 (v : Byte) : byteOfBits (msb8 v) = v :=
  msb8_injective (msb8_byteOfBits (msb8_length v))

@[simp] theorem packBytes_length (n : Nat) (bs : List Bool) : (packBytes n bs).length = n := by
  induction n generalizing bs with
  | zero => rfl
  | succ n ih => simp [packBytes, ih]

/-- Packing loses no bit. -/
theorem packBytes_flatMap (n : Nat) (bs : List Bool) (h : bs.length = 8 * n) : (packBytes n bs).flatMap msb8 = bs := by
  induction n generalizing bs with
  | zero => simpa [packBytes] using (List.length_eq_zero_iff.mp (by omega)).symm
  | succ n ih =>
    rw [packBytes, List.flatMap_cons, msb8_byteOfBits (by simp; omega), ih _ (by simp; omega), List.take_append_drop]

/-- Packing is the inverse of rendering. -/
theorem packBytes_of_flatMap (vs : List Byte) : packBytes vs.length (vs.flatMap msb8) = vs := by
  induction vs with
  | nil => rfl
  | cons v vs ih =>
    have h1 : (msb8 v ++ vs.flatMap msb8).take 8 = msb8 v := List.take_left' (msb8_length v)
    have h2 : (msb8 v ++ vs.flatMap msb8).drop 8 = vs.flatMap msb8 := List.drop_left' (msb8_length v)
    rw [List.length_cons, packBytes, List.flatMap_cons, h1, h2, byteOfBits_msb8, ih]

@[simp] theorem State.bits_length (s : State) (n : Nat) : (s.bits n).length = n := by
  rw [State.bits, List.length_take, length_flatMap_const msb8_length, State.bytesAt_length]
  omega

/-- The sequence of bits is Bit(0), Bit(1), ... (00_scope.md R10). -/
theorem State.bits_getElem {s : State} (hs : s.MemWf) (n i : Nat) (hi : i < (s.bits n).length) :
    (s.bits n)[i] = s.bit i := by
  rw [State.bits_length] at hi
  apply Option.some.inj
  rw [← List.getElem?_eq_getElem, State.bits, List.getElem?_take_of_lt hi,
    getElem?_flatMap_const (by decide) msb8_length, List.getElem?_eq_getElem (by simp; omega)]
  have h8 : i % 8 < (msb8 (s.byteAt (0x200 + i / 8))).length := by rw [msb8_length]; omega
  rw [Option.bind_some, State.bytesAt_getElem hs, List.getElem?_eq_getElem h8, msb8_getElem, State.bit, State.bitByte]

theorem State.bits_eq {s : State} (hs : s.MemWf) (n : Nat) : s.bits n = (List.range n).map s.bit := by
  apply List.ext_getElem (by simp)
  intro i h1 h2
  rw [State.bits_getElem hs]
  simp

/-- The first bits of a longer run. -/
theorem State.bits_take (s : State) (hs : s.MemWf) {m n : Nat} (h : m ≤ n) : (s.bits n).take m = s.bits m := by
  rw [State.bits_eq hs, State.bits_eq hs, ← List.map_take, List.take_range, Nat.min_eq_left h]

theorem State.bits_congr {s t : State} (hm : t.mem = s.mem) (h1 : t.payGen = s.payGen) (h2 : t.bitGen = s.bitGen)
    (h3 : t.sampGen = s.sampGen) : t.bits = s.bits := by
  funext n
  simp [State.bits, State.bytesAt_congr hm h1 h2 h3]

/-- Bit(i) is a bit of the byte that holds it. -/
theorem State.bit_eq_msb8 (s : State) (i : Nat) :
    some (s.bit i) = (msb8 (s.byteAt (0x200 + i / 8)))[i % 8]? := by
  have h8 : i % 8 < (msb8 (s.byteAt (0x200 + i / 8))).length := by rw [msb8_length]; omega
  rw [List.getElem?_eq_getElem h8, msb8_getElem, State.bit, State.bitByte]

/-- A buffer byte after a write of bits. -/
theorem State.byteAt_writeBits_of_out (s : State) {bs : List Bool} {a : Nat}
    (h : a < 0x200 ∨ 0x200 + (bs.length + 7) / 8 ≤ a) : (s.writeBits bs).byteAt a = s.byteAt a := by
  rw [State.writeBits]
  exact State.byteAt_storeBytes_of_out s (by rwa [packBytes_length])

/-- Bit(i) after a write of bits: the written one below its length, the old one above. -/
theorem State.bit_writeBits {s : State} (hs : s.MemWf) (bs : List Bool) (i : Nat) :
    (s.writeBits bs).bit i = if h : i < bs.length then bs[i] else s.bit i := by
  by_cases hn : i < 8 * ((bs.length + 7) / 8)
  · have hlen : (bs ++ (s.bits (8 * ((bs.length + 7) / 8))).drop bs.length).length = 8 * ((bs.length + 7) / 8) := by
      simp; omega
    have hj : i / 8 < (packBytes ((bs.length + 7) / 8)
        (bs ++ (s.bits (8 * ((bs.length + 7) / 8))).drop bs.length)).length := by
      rw [packBytes_length]; omega
    have key := congrArg (fun l => l[i]?) (packBytes_flatMap _ _ hlen)
    simp only [getElem?_flatMap_const (by decide : 0 < 8) msb8_length] at key
    rw [List.getElem?_eq_getElem hj, Option.bind_some] at key
    apply Option.some.inj
    rw [State.bit_eq_msb8, State.writeBits, State.byteAt_storeBytes, dif_pos ⟨by omega, by omega⟩]
    simp only [Nat.add_sub_cancel_left]
    rw [key]
    by_cases h : i < bs.length
    · rw [dif_pos h, List.getElem?_append_left h, List.getElem?_eq_getElem h]
    · rw [dif_neg h, List.getElem?_append_right (by omega), List.getElem?_drop, Nat.add_sub_cancel' (by omega),
        List.getElem?_eq_getElem (by simp; omega), State.bits_getElem hs]
  · rw [dif_neg (by omega), State.bit, State.bitByte, State.byteAt_writeBits_of_out _ (by omega)]
    rfl

/-- A write of at most BIT_CAP bits keeps the canonical form. -/
theorem State.memWf_writeBits {s : State} (hs : s.MemWf) {bs : List Bool} (h : bs.length ≤ 4096) :
    (s.writeBits bs).MemWf := by
  rw [State.writeBits]
  refine State.memWf_storeBytes hs fun i hi => ?_
  rw [packBytes_length] at hi
  exact inBuffers_of_mem (b := .bit) (by simp [Buffer.base]) (by simp [Buffer.base, Buffer.size]; omega)

/-! Payload bytes. -/

theorem State.byteAt_writePays_of_out (s : State) {vs : List Byte} {a : Nat}
    (h : a < 0x100 ∨ 0x100 + vs.length ≤ a) : (s.writePays vs).byteAt a = s.byteAt a := by
  rw [State.writePays]
  exact State.byteAt_storeBytes_of_out s h

/-- Pay(k) after a write of payload bytes. -/
theorem State.pay_writePays (s : State) (vs : List Byte) (k : Nat) :
    (s.writePays vs).pay k = if h : k < vs.length then vs[k] else s.pay k := by
  rw [State.pay, State.writePays, State.byteAt_storeBytes]
  by_cases h : k < vs.length
  · rw [dif_pos (by omega), dif_pos h]
    simp
  · rw [dif_neg (by omega), dif_neg h, State.pay]

theorem State.memWf_writePays {s : State} (hs : s.MemWf) {vs : List Byte} (h : vs.length ≤ 256) :
    (s.writePays vs).MemWf := by
  rw [State.writePays]
  refine State.memWf_storeBytes hs fun i hi => ?_
  exact inBuffers_of_mem (b := .pay) (by simp [Buffer.base]) (by simp [Buffer.base, Buffer.size]; omega)

/-! Samples. -/

theorem pairSamples_length (n : Nat) (vs : List Byte) (h : vs.length = 2 * n) : (pairSamples n vs).length = n := by
  induction n generalizing vs with
  | zero => simp [pairSamples]
  | succ n ih =>
    match vs, h with
    | lo :: hi :: rest, h =>
      simp only [List.length_cons] at h
      simp [pairSamples, ih rest (by omega)]

theorem pairSamples_getElem? (n : Nat) (vs : List Byte) (h : vs.length = 2 * n) (j : Nat) (hj : j < n) :
    (pairSamples n vs)[j]? =
      some (patternOf (vs[2 * j]'(by omega)) (vs[2 * j + 1]'(by omega))).toInt := by
  induction n generalizing vs j with
  | zero => omega
  | succ n ih =>
    match vs, h with
    | lo :: hi :: rest, h =>
      simp only [List.length_cons] at h
      cases j with
      | zero => simp [pairSamples]
      | succ j =>
        rw [pairSamples, List.getElem?_cons_succ, ih rest (by omega) j (by omega)]
        simp [Nat.mul_add]

@[simp] theorem State.samps_length (s : State) (n : Nat) : (s.samps n).length = n :=
  pairSamples_length _ _ (by simp)

/-- The sequence of samples is Samp(0), Samp(1), ... (00_scope.md R10). -/
theorem State.samps_getElem {s : State} (hs : s.MemWf) (n j : Nat) (hj : j < (s.samps n).length) :
    (s.samps n)[j] = s.samp j := by
  rw [State.samps_length] at hj
  apply Option.some.inj
  rw [← List.getElem?_eq_getElem, State.samps, pairSamples_getElem? n _ (by simp) j hj]
  rw [State.bytesAt_getElem hs, State.bytesAt_getElem hs, State.samp, Nat.add_assoc]

theorem State.samps_eq {s : State} (hs : s.MemWf) (n : Nat) : s.samps n = (List.range n).map s.samp := by
  apply List.ext_getElem (by simp)
  intro i h1 h2
  rw [State.samps_getElem hs]
  simp

@[simp] theorem sampleBytes_length (v : Int) : (sampleBytes v).length = 2 := rfl

theorem patternOf_sampleBytes (v : Int) :
    patternOf ((BitVec.ofInt 16 v).extractLsb' 0 8) ((BitVec.ofInt 16 v).extractLsb' 8 8) = BitVec.ofInt 16 v := by
  refine BitVec.eq_of_getLsbD_eq fun i hi => ?_
  rw [patternOf, BitVec.getLsbD_append]
  by_cases h : i < 8
  · simp [h]
  · have : i - 8 < 8 := by omega
    simp [h, this, Nat.add_sub_cancel' (Nat.not_lt.mp h)]

theorem State.byteAt_writeSamps_of_out (s : State) {vs : List Int} {a : Nat}
    (h : a < 0x20000 ∨ 0x20000 + 2 * vs.length ≤ a) : (s.writeSamps vs).byteAt a = s.byteAt a := by
  rw [State.writeSamps]
  refine State.byteAt_storeBytes_of_out s ?_
  rw [length_flatMap_const sampleBytes_length]
  omega

theorem State.byteAt_writeSamps (s : State) (vs : List Int) (k : Nat) (hk : k < 2 * vs.length) :
    some ((s.writeSamps vs).byteAt (0x20000 + k)) = (sampleBytes (vs[k / 2]'(by omega)))[k % 2]? := by
  have hlen : (vs.flatMap sampleBytes).length = 2 * vs.length := by
    rw [length_flatMap_const sampleBytes_length, Nat.mul_comm]
  have key := getElem?_flatMap_const (by decide : 0 < 2) sampleBytes_length vs k
  rw [List.getElem?_eq_getElem (by omega : k / 2 < vs.length), Option.bind_some] at key
  rw [State.writeSamps, State.byteAt_storeBytes, dif_pos ⟨by omega, by omega⟩, ← key,
    List.getElem?_eq_getElem (by omega)]
  simp

/-- Samp(j) after a write of samples: the 16-bit value of the written one below its length, the old one above. -/
theorem State.samp_writeSamps (s : State) (vs : List Int) (j : Nat) :
    (s.writeSamps vs).samp j = if h : j < vs.length then (BitVec.ofInt 16 vs[j]).toInt else s.samp j := by
  by_cases h : j < vs.length
  · have h0 := State.byteAt_writeSamps s vs (2 * j) (by omega)
    have h1 := State.byteAt_writeSamps s vs (2 * j + 1) (by omega)
    have e0 : 2 * j / 2 = j := by omega
    have e1 : (2 * j + 1) / 2 = j := by omega
    simp only [e0, e1, Nat.mul_mod_right, Nat.mul_add_mod, sampleBytes, List.getElem?_cons_zero, Nat.one_mod,
      List.getElem?_cons_succ, Option.some.injEq] at h0 h1
    rw [dif_pos h, State.samp, Nat.add_assoc, h0, h1, patternOf_sampleBytes]
  · rw [dif_neg h, State.samp, State.samp, State.byteAt_writeSamps_of_out _ (by omega),
      State.byteAt_writeSamps_of_out _ (by omega)]

theorem State.memWf_writeSamps {s : State} (hs : s.MemWf) {vs : List Int} (h : vs.length ≤ 65536) :
    (s.writeSamps vs).MemWf := by
  rw [State.writeSamps]
  refine State.memWf_storeBytes hs fun i hi => ?_
  rw [length_flatMap_const sampleBytes_length] at hi
  exact inBuffers_of_mem (b := .samp) (by simp [Buffer.base]) (by simp [Buffer.base, Buffer.size]; omega)

/-- A sample that fits 16 bits is written as it is. -/
theorem toInt_ofInt_of_fits {v : Int} (h1 : -32768 ≤ v) (h2 : v < 32768) : (BitVec.ofInt 16 v).toInt = v := by
  rw [BitVec.toInt_ofInt]
  exact Int.bmod_eq_of_le (by norm_num; omega) (by norm_num; omega)

/-- A sample is a 16-bit two's-complement value (00_scope.md R9). -/
theorem State.samp_bounds (s : State) (j : Nat) : -32768 ≤ s.samp j ∧ s.samp j < 32768 := by
  constructor
  · have := BitVec.le_toInt (patternOf (s.byteAt (0x20000 + 2 * j)) (s.byteAt (0x20000 + 2 * j + 1)))
    simpa [State.samp] using this
  · have := BitVec.toInt_lt (x := patternOf (s.byteAt (0x20000 + 2 * j)) (s.byteAt (0x20000 + 2 * j + 1)))
    simpa [State.samp] using this

end Sys2Proof.Machine
end

