-- ==== Sys2Proof/Laws/Bus.lean ====
section
/-! SUPPORT. What a host access and the two resets can do. -/

namespace Sys2Proof.Machine

/-! The address map (20_memory.md R61). -/

theorem Buffer.holds_iff (b : Buffer) (a : Nat) : b.holds a = true ↔ b.base ≤ a ∧ a < b.base + b.size := by
  simp [Buffer.holds]

/-- An offset lies in at most one buffer. -/
theorem Buffer.holds_unique {b c : Buffer} {a : Nat} (hb : b.holds a = true) (hc : c.holds a = true) : b = c := by
  rw [Buffer.holds_iff] at hb hc
  cases b <;> cases c <;> first | rfl | (simp only [Buffer.base, Buffer.size] at hb hc; omega)

theorem registers_length : registers.length = 14 := rfl

/-- What an offset names. -/
theorem locate_cases (a : Nat) :
    (a < 0x38 ∧ ∃ r, registers[a / 4]? = some r ∧ locate a = some (.reg r)) ∨
    (∃ b : Buffer, b.holds a = true ∧ locate a = some (.buf b)) ∨
    (0x38 ≤ a ∧ inBuffers a = false ∧ locate a = none) := by
  by_cases h : a < 0x38
  · have h14 : a / 4 < registers.length := by rw [registers_length]; omega
    exact .inl ⟨h, registers[a / 4], List.getElem?_eq_getElem h14, by simp [locate, h, List.getElem?_eq_getElem h14]⟩
  · by_cases h1 : Buffer.pay.holds a = true
    · exact .inr (.inl ⟨.pay, h1, by simp [locate, h, h1]⟩)
    · by_cases h2 : Buffer.bit.holds a = true
      · exact .inr (.inl ⟨.bit, h2, by simp [locate, h, h1, h2]⟩)
      · by_cases h3 : Buffer.samp.holds a = true
        · exact .inr (.inl ⟨.samp, h3, by simp [locate, h, h1, h2, h3]⟩)
        · exact .inr (.inr ⟨by omega, by simp [inBuffers, h1, h2, h3], by simp [locate, h, h1, h2, h3]⟩)

theorem holds_of_locate {a : Nat} {b : Buffer} (h : locate a = some (.buf b)) : b.holds a = true := by
  rcases locate_cases a with ⟨_, r, _, hr⟩ | ⟨c, hc, he⟩ | ⟨_, _, hn⟩
  · rw [hr] at h; cases h
  · rw [he] at h; cases h; exact hc
  · rw [hn] at h; cases h

theorem locate_of_holds {a : Nat} {b : Buffer} (h : b.holds a = true) : locate a = some (.buf b) := by
  rcases locate_cases a with ⟨hl, r, _, hr⟩ | ⟨c, hc, he⟩ | ⟨_, hn, _⟩
  · rw [Buffer.holds_iff] at h
    cases b <;> simp only [Buffer.base, Buffer.size] at h <;> omega
  · rw [he, Buffer.holds_unique hc h]
  · exfalso
    cases b <;> simp [inBuffers, h] at hn

/-- No cause of any access: it names something, is naturally aligned, and a register access is 4 bytes wide. -/
theorem accessCause_none {size : Size} {a : Nat} (h : accessCause size a = none) :
    ∃ l, locate a = some l ∧ a % size.bytes = 0 ∧ ∀ r, l = .reg r → size = .four := by
  rw [accessCause] at h
  split at h
  · cases h
  · rename_i r hr
    split at h
    · cases h
    · split at h
      · cases h
      · exact ⟨_, hr, by omega, fun _ _ => by tauto⟩
  · rename_i b hb
    split at h
    · cases h
    · exact ⟨_, hb, by omega, fun _ hr => by cases hr⟩

/-- An access that ends OKAY in a buffer lies wholly inside it. -/
theorem access_inside {size : Size} {a : Nat} {b : Buffer} (h : accessCause size a = none)
    (hb : locate a = some (.buf b)) (i : Nat) (hi : i < size.bytes) : b.holds (a + i) = true := by
  obtain ⟨_, _, hal, _⟩ := accessCause_none h
  have hin := holds_of_locate hb
  rw [Buffer.holds_iff] at hin ⊢
  cases size <;> cases b <;> simp only [Size.bytes, Buffer.base, Buffer.size] at * <;> omega

/-! Reads. -/

@[simp] theorem State.drawLoc_reg (s : State) (size : Size) (r : RegName) :
    s.drawLoc size (.reg r) = Config.drawRead s.drawCount &&& r.fields := rfl

@[simp] theorem State.drawLoc_buf (s : State) (size : Size) (b : Buffer) :
    s.drawLoc size (.buf b) = lowBytes size (Config.drawRead s.drawCount) := rfl

/-- A read ends in an error, in a draw, or with the current value (20_memory.md R69, R73). -/
theorem hostRead_cases (s : State) (size : Size) (a : Nat) :
    (accessCause size a ≠ none ∧ hostRead s size a = (.readError 0, s)) ∨
    (∃ l, accessCause size a = none ∧ locate a = some l ∧ l ∈ s.runningWriteSet ∧
      hostRead s size a = (.readOkay (s.drawLoc size l), { s with drawCount := s.drawCount + 1 })) ∨
    (∃ l, accessCause size a = none ∧ locate a = some l ∧ l ∉ s.runningWriteSet ∧
      hostRead s size a = (.readOkay (s.readLoc size a l), s)) := by
  rcases hc : accessCause size a with _ | e
  · obtain ⟨l, hl, _⟩ := accessCause_none hc
    by_cases hm : l ∈ s.runningWriteSet
    · exact .inr (.inl ⟨l, rfl, hl, hm, by simp [hostRead, hc, hl, hm]⟩)
    · exact .inr (.inr ⟨l, rfl, hl, hm, by simp [hostRead, hc, hl, hm]⟩)
  · exact .inl ⟨by simp, by simp [hostRead, hc]⟩

/-- No read changes more than the draw counter (20_memory.md R70). -/
theorem hostRead_state (s : State) (size : Size) (a : Nat) :
    ∃ k, (hostRead s size a).2 = { s with drawCount := k } := by
  rcases hostRead_cases s size a with ⟨_, h⟩ | ⟨_, _, _, _, h⟩ | ⟨_, _, _, _, h⟩ <;> rw [h]
  · exact ⟨s.drawCount, rfl⟩
  · exact ⟨_, rfl⟩
  · exact ⟨s.drawCount, rfl⟩

/-! Writes. -/

/-- A write ends in an error and changes nothing, or writes the register or the bytes it names. -/
theorem hostWrite_cases (s : State) (size : Size) (a : Nat) (d : Word) :
    (writeCause s size a d ≠ none ∧ hostWrite s size a d = (.writeError, s)) ∨
    (∃ r, accessCause size a = none ∧ locate a = some (.reg r) ∧ size = .four ∧ regWriteCause s r d = none ∧
      hostWrite s size a d = (.writeOkay, s.writeReg r d)) ∨
    (∃ b, accessCause size a = none ∧ locate a = some (.buf b) ∧ s.busy = false ∧
      hostWrite s size a d = (.writeOkay, s.storeBytes a (dataBytes size.bytes d))) := by
  rcases hc : accessCause size a with _ | e
  · obtain ⟨l, hl, _, h4⟩ := accessCause_none hc
    cases l with
    | reg r =>
      rcases hw : regWriteCause s r d with _ | e
      · exact .inr (.inl ⟨r, rfl, hl, h4 r rfl, hw, by simp [hostWrite, writeCause, hc, hl, hw]⟩)
      · exact .inl ⟨by simp [writeCause, hc, hl, hw], by simp [hostWrite, writeCause, hc, hl, hw]⟩
    | buf b =>
      rcases hb : s.busy with _ | _
      · exact .inr (.inr ⟨b, rfl, hl, rfl, by simp [hostWrite, writeCause, hc, hl, hb]⟩)
      · exact .inl ⟨by simp [writeCause, hc, hl, hb], by simp [hostWrite, writeCause, hc, hl, hb]⟩
  · exact .inl ⟨by simp [writeCause, hc], by simp [hostWrite, writeCause, hc]⟩

@[simp] theorem dataBytes_length (n : Nat) (d : Word) : (dataBytes n d).length = n := by simp [dataBytes]

/-- Byte t of an access is data bits [8t+7 : 8t] (20_memory.md R65). -/
theorem dataBytes_getElem (n : Nat) (d : Word) (t : Nat) (ht : t < (dataBytes n d).length) :
    (dataBytes n d)[t] = d.extractLsb' (8 * t) 8 := by
  simp [dataBytes]

/-- Bit k of the data of some bytes is bit k mod 8 of byte k div 8 (20_memory.md R65). -/
theorem wordOfBytes_getLsbD (bs : List Byte) (k : Nat) (hk : k < 32) :
    (wordOfBytes bs).getLsbD k = (bs[k / 8]?.getD 0).getLsbD (k % 8) := by
  induction bs generalizing k with
  | nil => simp [wordOfBytes]
  | cons b bs ih =>
    rw [wordOfBytes, BitVec.getLsbD_or, BitVec.getLsbD_shiftLeft, BitVec.getLsbD_setWidth]
    by_cases h : k < 8
    · simp [h, hk, Nat.div_eq_of_lt h, Nat.mod_eq_of_lt h]
    · obtain ⟨j, rfl⟩ : ∃ j, k = j + 8 := ⟨k - 8, by omega⟩
      rw [Nat.add_sub_cancel, ih j (by omega), Nat.add_div_right _ (by decide), Nat.add_mod_right,
        BitVec.getLsbD_of_ge b (j + 8) (by omega)]
      simp [hk]

/-! Resets (70_reset_and_hazards.md R223, R224). -/

/-- Forgetting a buffer's bytes leaves every other buffer's bytes as they were. -/
theorem State.byteAt_unspecify_of_out (s : State) {b : Buffer} {a : Nat} (ha : inBuffers a = true)
    (h : b.holds a = false) : (s.unspecify b).byteAt a = s.byteAt a := by
  have hl : (s.unspecify b).mem.lookup a = s.mem.lookup a := by
    rw [State.unspecify_mem, Memory.lookup_forget, h]
    simp
  have hd : (s.unspecify b).draw a = s.draw a := by
    simp only [inBuffers, Bool.or_eq_true, Buffer.holds_iff] at ha
    simp only [Buffer.holds, Bool.and_eq_false_iff, decide_eq_false_iff_not] at h
    cases b <;> simp only [Buffer.base, Buffer.size] at ha h <;> simp [State.draw] <;> grind
  rw [State.byteAt, State.byteAt, hl, hd]

theorem State.memWf_unspecify {s : State} (hs : s.MemWf) (b : Buffer) : (s.unspecify b).MemWf :=
  Memory.wf_forget b hs

theorem State.memWf_unspecifyIfWritten {s : State} (hs : s.MemWf) (b : Buffer) : (s.unspecifyIfWritten b).MemWf := by
  rw [State.unspecifyIfWritten]
  split
  · exact State.memWf_unspecify hs b
  · exact hs

@[simp] theorem State.unspecifyIfWritten_seq (s : State) (b : Buffer) : (s.unspecifyIfWritten b).seq = s.seq := by
  rw [State.unspecifyIfWritten]
  split <;> rfl

@[simp] theorem State.unspecifyIfWritten_runningWriteSet (s : State) (b : Buffer) :
    (s.unspecifyIfWritten b).runningWriteSet = s.runningWriteSet := by
  simp [State.runningWriteSet]

theorem State.byteAt_unspecifyIfWritten (s : State) {b : Buffer} {a : Nat} (ha : inBuffers a = true)
    (h : ∀ c : Buffer, c.holds a = true → Loc.buf c ∉ s.runningWriteSet) :
    (s.unspecifyIfWritten b).byteAt a = s.byteAt a := by
  rw [State.unspecifyIfWritten]
  split
  · rename_i hm
    refine State.byteAt_unspecify_of_out s ha ?_
    cases hb : b.holds a
    · rfl
    · exact absurd hm (h b hb)
  · rfl

theorem State.memWf_abortBuffers {s : State} (hs : s.MemWf) : s.abortBuffers.MemWf :=
  State.memWf_unspecifyIfWritten (State.memWf_unspecifyIfWritten (State.memWf_unspecifyIfWritten hs _) _) _

/-- A buffer that the aborted command does not write keeps its bytes (70_reset_and_hazards.md R224). -/
theorem State.byteAt_abortBuffers (s : State) {a : Nat} (ha : inBuffers a = true)
    (h : ∀ c : Buffer, c.holds a = true → Loc.buf c ∉ s.runningWriteSet) : s.abortBuffers.byteAt a = s.byteAt a := by
  rw [State.abortBuffers, State.byteAt_unspecifyIfWritten _ ha (by simpa using h),
    State.byteAt_unspecifyIfWritten _ ha (by simpa using h), State.byteAt_unspecifyIfWritten _ ha h]

/-- An abort changes the buffers only. -/
theorem State.abortBuffers_rest (s : State) :
    s.abortBuffers.regs = s.regs ∧ s.abortBuffers.seq = s.seq ∧ s.abortBuffers.rstN = s.rstN ∧
      s.abortBuffers.drawCount = s.drawCount ∧ s.abortBuffers.host = s.host ∧ s.abortBuffers.turns = s.turns ∧
      s.abortBuffers.reply = s.reply := by
  have one : ∀ (t : State) (b : Buffer), (t.unspecifyIfWritten b).regs = t.regs ∧
      (t.unspecifyIfWritten b).seq = t.seq ∧ (t.unspecifyIfWritten b).rstN = t.rstN ∧
      (t.unspecifyIfWritten b).drawCount = t.drawCount ∧ (t.unspecifyIfWritten b).host = t.host ∧
      (t.unspecifyIfWritten b).turns = t.turns ∧ (t.unspecifyIfWritten b).reply = t.reply := by
    intro t b
    rw [State.unspecifyIfWritten]
    split <;> simp
  simp only [State.abortBuffers, one, and_self]

end Sys2Proof.Machine
end

