-- ==== Sys2Proof/Laws/Carrier.lean ====
section
/-! SUPPORT. The carrier tables stay within −16384 and 16384 (40_modem.md R113), so do the segments, and both have N
entries. -/

namespace Sys2Proof.Machine

/-- One level of a nested alternating polynomial stays between 0 and its leading term. -/
theorem horner_level {A B t P c d : Int} (hA : 0 ≤ A) (hAB : A ≤ B) (hP : 0 ≤ P) (ht : 0 ≤ t) (htc : t ≤ c * P)
    (hcd : c ≤ d) : 0 ≤ d * (P * B) - A * t ∧ d * (P * B) - A * t ≤ d * (P * B) := by
  have hB : 0 ≤ B := le_trans hA hAB
  have h1 : A * t ≤ B * (c * P) := mul_le_mul hAB htc ht hB
  have h2 : 0 ≤ A * t := mul_nonneg hA ht
  have h3 : c * (P * B) ≤ d * (P * B) := mul_le_mul_of_nonneg_right hcd (mul_nonneg hP hB)
  constructor <;> linarith [mul_comm B (c * P), mul_assoc c P B]

theorem square_le {a b : Int} (ha : 0 ≤ a) (hab : a ≤ b) : 0 ≤ a * a ∧ a * a ≤ b * b :=
  ⟨mul_nonneg ha ha, mul_le_mul hab hab ha (le_trans ha hab)⟩

theorem sinNum_bounds {a b : Int} (ha : 0 ≤ a) (hab : a ≤ b) : 0 ≤ sinNum a b ∧ sinNum a b ≤ sinDen b := by
  obtain ⟨hA, hAB⟩ := square_le ha hab
  have hB : 0 ≤ b * b := le_trans hA hAB
  have hB2 := mul_nonneg hB hB
  have hB3 := mul_nonneg hB2 hB
  have hB4 := mul_nonneg hB3 hB
  have t5 : 0 ≤ 110 * (b * b) - a * a ∧ 110 * (b * b) - a * a ≤ 110 * (b * b) := by constructor <;> linarith
  have t4 := horner_level (d := 7920) hA hAB hB t5.1 t5.2 (by norm_num)
  have t3 := horner_level (d := 332640) hA hAB hB2 t4.1 t4.2 (by norm_num)
  have t2 := horner_level (d := 6652800) hA hAB hB3 t3.1 t3.2 (by norm_num)
  have t1 := horner_level (d := 39916800) hA hAB hB4 t2.1 t2.2 (by norm_num)
  refine ⟨mul_nonneg ha t1.1, ?_⟩
  calc sinNum a b ≤ b * (39916800 * (b * b * (b * b) * (b * b) * (b * b) * (b * b))) :=
        mul_le_mul hab t1.2 t1.1 (le_trans ha hab)
    _ = sinDen b := by rw [sinDen]; ring

theorem cosNum_bounds {a b : Int} (ha : 0 ≤ a) (hab : a ≤ b) : 0 ≤ cosNum a b ∧ cosNum a b ≤ cosDen b := by
  obtain ⟨hA, hAB⟩ := square_le ha hab
  have hB : 0 ≤ b * b := le_trans hA hAB
  have hB2 := mul_nonneg hB hB
  have hB3 := mul_nonneg hB2 hB
  have hB4 := mul_nonneg hB3 hB
  have hB5 := mul_nonneg hB4 hB
  have t6 : 0 ≤ 132 * (b * b) - a * a ∧ 132 * (b * b) - a * a ≤ 132 * (b * b) := by constructor <;> linarith
  have t5 := horner_level (d := 11880) hA hAB hB t6.1 t6.2 (by norm_num)
  have t4 := horner_level (d := 665280) hA hAB hB2 t5.1 t5.2 (by norm_num)
  have t3 := horner_level (d := 19958400) hA hAB hB3 t4.1 t4.2 (by norm_num)
  have t2 := horner_level (d := 239500800) hA hAB hB4 t3.1 t3.2 (by norm_num)
  have t1 := horner_level (d := 479001600) hA hAB hB5 t2.1 t2.2 (by norm_num)
  refine ⟨t1.1, le_trans t1.2 (le_of_eq ?_)⟩
  rw [cosDen]
  ring

/-- rnd14 of a fraction between 0 and 1 lies between 0 and ONE. -/
theorem rnd14_bounds {num den : Int} (hd : 0 < den) (h0 : 0 ≤ num) (h1 : num ≤ den) :
    0 ≤ rnd14 num den ∧ rnd14 num den ≤ 16384 := by
  constructor
  · exact Int.ediv_nonneg (by linarith) (by linarith)
  · have : (32768 * num + den) / (2 * den) < 16385 := Int.ediv_lt_of_lt_mul (by linarith) (by linarith)
    rw [rnd14]
    omega

theorem angle_le {r D : Nat} (h : 2 * r ≤ D) : 0 ≤ angleNum r ∧ angleNum r ≤ angleDen D := by
  simp only [angleNum, angleDen, piScaled]
  constructor <;> omega

theorem angleDen_pos {D : Nat} (h : 0 < D) : 0 < angleDen D := by
  simp only [angleDen]
  omega

theorem sinPart_bounds {r D : Nat} (hD : 0 < D) (h : 2 * r ≤ D) : 0 ≤ sinPart r D ∧ sinPart r D ≤ 16384 := by
  have hb := angleDen_pos hD
  have hn := sinNum_bounds (angle_le h).1 (angle_le h).2
  exact rnd14_bounds (by rw [sinDen]; positivity) hn.1 hn.2

theorem cosPart_bounds {r D : Nat} (hD : 0 < D) (h : 2 * r ≤ D) : 0 ≤ cosPart r D ∧ cosPart r D ≤ 16384 := by
  have hb := angleDen_pos hD
  have hn := cosNum_bounds (angle_le h).1 (angle_le h).2
  exact rnd14_bounds (by rw [cosDen]; positivity) hn.1 hn.2

theorem sinQuarter_bounds {r D : Nat} (hD : 0 < D) (h : r < D) : 0 ≤ sinQuarter r D ∧ sinQuarter r D ≤ 16384 := by
  rw [sinQuarter]
  split
  · exact sinPart_bounds hD ‹_›
  · exact cosPart_bounds hD (by omega)

theorem cosQuarter_bounds {r D : Nat} (hD : 0 < D) (h : r < D) : 0 ≤ cosQuarter r D ∧ cosQuarter r D ≤ 16384 := by
  rw [cosQuarter]
  split
  · exact cosPart_bounds hD ‹_›
  · exact sinPart_bounds hD (by omega)

/-- Every sine entry lies in −16384..16384. -/
theorem sinEntry_natAbs_le (c N k : Nat) (hN : 0 < N) : (sinEntry c N k).natAbs ≤ 16384 := by
  have hr : 4 * (c * k) % N < N := Nat.mod_lt _ hN
  have hs := sinQuarter_bounds hN hr
  have hc := cosQuarter_bounds hN hr
  simp only [sinEntry, sinTurn]
  split <;> omega

/-- Every cosine entry lies in −16384..16384. -/
theorem cosEntry_natAbs_le (c N k : Nat) (hN : 0 < N) : (cosEntry c N k).natAbs ≤ 16384 := by
  have hr : 4 * (c * k) % N < N := Nat.mod_lt _ hN
  have hs := sinQuarter_bounds hN hr
  have hc := cosQuarter_bounds hN hr
  simp only [cosEntry, cosTurn]
  split <;> omega

@[simp] theorem sinTable_length (c N : Nat) : (sinTable c N).length = N := by simp [sinTable]

@[simp] theorem cosTable_length (c N : Nat) : (cosTable c N).length = N := by simp [cosTable]

theorem sinTable_natAbs_le {c N : Nat} {v : Int} (h : v ∈ sinTable c N) : v.natAbs ≤ 16384 := by
  simp only [sinTable, List.mem_map, List.mem_range] at h
  obtain ⟨k, hk, rfl⟩ := h
  exact sinEntry_natAbs_le c N k (by omega)

@[simp] theorem seg_length (sch : Scheme) (N : Nat) (b : Bool) : (seg sch N b).length = N := by
  cases sch <;> cases b <;> simp [seg]

/-- Every segment sample lies in −16384..16384 (40_modem.md R113). -/
theorem seg_natAbs_le {sch : Scheme} {N : Nat} {b : Bool} {v : Int} (h : v ∈ seg sch N b) : v.natAbs ≤ 16384 := by
  cases sch <;> cases b <;> simp only [seg, List.mem_replicate, List.mem_map, Config.one] at h
  · omega
  · omega
  · exact sinTable_natAbs_le h
  · exact sinTable_natAbs_le h
  · obtain ⟨w, hw, rfl⟩ := h
    simpa using sinTable_natAbs_le hw
  · exact sinTable_natAbs_le h

end Sys2Proof.Machine
end

