-- ==== Sys2Proof/Laws/Modem.lean ====
section
/-! SUPPORT. What the parts of MOD and DEMOD do: waveforms, correlations and their bounds, the peak, the segments,
and the two ways each command body can end. -/

namespace Sys2Proof.Machine

/-! Waveforms. -/

theorem wave_eq_flatMap (sch : Scheme) (N : Nat) (bs : List Bool) : wave sch N bs = bs.flatMap (seg sch N) := by
  rw [wave, joinSegs]
  congr 1
  funext b
  cases b <;> rfl

@[simp] theorem wave_length (sch : Scheme) (N : Nat) (bs : List Bool) : (wave sch N bs).length = bs.length * N := by
  rw [wave_eq_flatMap, length_flatMap_const (fun b => seg_length sch N b)]

/-- Sample i·N + k of a waveform is sample k of bit i's segment (40_modem.md R115). -/
theorem wave_getElem? (sch : Scheme) {N : Nat} (hN : 0 < N) (bs : List Bool) (j : Nat) :
    (wave sch N bs)[j]? = bs[j / N]?.bind (fun b => (seg sch N b)[j % N]?) := by
  rw [wave_eq_flatMap, getElem?_flatMap_const hN (fun b => seg_length sch N b)]

theorem wave_append (sch : Scheme) (N : Nat) (as bs : List Bool) :
    wave sch N (as ++ bs) = wave sch N as ++ wave sch N bs := by
  simp [wave_eq_flatMap]

theorem wave_natAbs_le {sch : Scheme} {N : Nat} {bs : List Bool} {v : Int} (h : v ∈ wave sch N bs) :
    v.natAbs ≤ 16384 := by
  rw [wave_eq_flatMap, List.mem_flatMap] at h
  obtain ⟨b, _, hv⟩ := h
  exact seg_natAbs_le hv

@[simp] theorem preambleWave_length (sch : Scheme) (N : Nat) : (preambleWave sch N).length = 8 * N := by
  simp [preambleWave, Config.preamble]

/-! Correlations. -/

theorem dot_nil_left (ys : List Int) : dot [] ys = 0 := by cases ys <;> rfl

theorem dot_nil_right (xs : List Int) : dot xs [] = 0 := by cases xs <;> rfl

/-- A sum of products is at most its length times the bounds of its factors (40_modem.md R127). -/
theorem dot_natAbs_le (xs ys : List Int) (a b : Nat) (hx : ∀ v ∈ xs, v.natAbs ≤ a) (hy : ∀ v ∈ ys, v.natAbs ≤ b) :
    (dot xs ys).natAbs ≤ ys.length * (a * b) := by
  induction ys generalizing xs with
  | nil => simp [dot_nil_right]
  | cons y ys ih =>
    cases xs with
    | nil => simp [dot_nil_left]
    | cons x xs =>
      have h1 := ih xs (fun v hv => hx v (by simp [hv])) (fun v hv => hy v (by simp [hv]))
      have h2 : (x * y).natAbs ≤ a * b := by
        rw [Int.natAbs_mul]
        exact Nat.mul_le_mul (hx x (by simp)) (hy y (by simp))
      have h3 := Int.natAbs_add_le (x * y) (dot xs ys)
      rw [dot, List.length_cons, Nat.add_mul]
      omega

@[simp] theorem correlations_length (P : List Int) (lags : Nat) (r : List Int) :
    (correlations P lags r).length = lags := by
  induction lags generalizing r with
  | zero => rfl
  | succ n ih => simp [correlations, ih]

/-- C(L) = Σ r[L + k] · P[k] (40_modem.md R118). -/
theorem correlations_getElem? (P : List Int) (lags : Nat) (r : List Int) (L : Nat) (h : L < lags) :
    (correlations P lags r)[L]? = some (dot (r.drop L) P) := by
  induction lags generalizing r L with
  | zero => omega
  | succ n ih =>
    cases L with
    | zero => simp [correlations]
    | succ L =>
      rw [correlations, List.getElem?_cons_succ, ih _ _ (by omega)]
      simp

/-! The peak. -/

/-- What the search keeps: a best entry so far stays best, and earlier ones stay smaller than a later best. -/
theorem peakFrom_spec (lag : Nat) (best : Nat × Int) (cs : List Int) :
    (peakFrom lag best cs = best ∧ ∀ c ∈ cs, c.natAbs ≤ best.2.natAbs) ∨
    ∃ i, ∃ h : i < cs.length, peakFrom lag best cs = (lag + i, cs[i]) ∧ best.2.natAbs < cs[i].natAbs ∧
      (∀ c ∈ cs, c.natAbs ≤ cs[i].natAbs) ∧ ∀ j, ∀ hj : j < i, (cs[j]'(by omega)).natAbs < cs[i].natAbs := by
  induction cs generalizing lag best with
  | nil => exact .inl ⟨rfl, by simp⟩
  | cons c cs ih =>
    rw [peakFrom]
    by_cases hb : best.2.natAbs < c.natAbs
    · rw [if_pos hb]
      rcases ih (lag + 1) (lag, c) with ⟨he, hm⟩ | ⟨i, hi, he, hlt, hm, hj⟩
      · refine .inr ⟨0, by simp, by simpa using he, by simpa using hb, ?_, by omega⟩
        simpa using hm
      · refine .inr ⟨i + 1, by simpa using hi, ?_, ?_, ?_, ?_⟩
        · rw [he]; simp; omega
        · simp only [List.getElem_cons_succ]; simp only at hlt; omega
        · simp only [List.mem_cons, List.getElem_cons_succ, forall_eq_or_imp]
          exact ⟨by simp only at hlt; omega, hm⟩
        · intro j hji
          cases j with
          | zero => simpa using hlt
          | succ j => simpa using hj j (by omega)
    · rw [if_neg hb]
      rcases ih (lag + 1) best with ⟨he, hm⟩ | ⟨i, hi, he, hlt, hm, hj⟩
      · refine .inl ⟨he, ?_⟩
        simp only [List.mem_cons, forall_eq_or_imp]
        exact ⟨by omega, hm⟩
      · refine .inr ⟨i + 1, by simpa using hi, ?_, by simpa using hlt, ?_, ?_⟩
        · rw [he]; simp; omega
        · simp only [List.mem_cons, List.getElem_cons_succ, forall_eq_or_imp]
          exact ⟨by omega, hm⟩
        · intro j hji
          cases j with
          | zero => simp only [List.getElem_cons_zero, List.getElem_cons_succ]; omega
          | succ j => simpa using hj j (by omega)

/-- The peak is an entry of the largest magnitude, and the first such (40_modem.md R119). -/
theorem peak_spec (cs : List Int) (h : cs ≠ []) :
    cs[(peak cs).1]? = some (peak cs).2 ∧ (∀ c ∈ cs, c.natAbs ≤ (peak cs).2.natAbs) ∧
      ∀ j c, j < (peak cs).1 → cs[j]? = some c → c.natAbs < (peak cs).2.natAbs := by
  cases cs with
  | nil => exact absurd rfl h
  | cons c cs =>
    have hp : peak (c :: cs) = peakFrom 1 (0, c) cs := rfl
    rw [hp]
    rcases peakFrom_spec 1 (0, c) cs with ⟨he, hm⟩ | ⟨i, hi, he, hlt, hm, hj⟩
    · rw [he]
      refine ⟨by simp, ?_, by simp⟩
      simpa using hm
    · rw [he]
      refine ⟨by simp [Nat.add_comm 1 i, List.getElem?_eq_getElem hi], ?_, ?_⟩
      · simp only [List.mem_cons, forall_eq_or_imp]
        exact ⟨by simp only at hlt; omega, hm⟩
      · intro j d hji hd
        cases j with
        | zero =>
          simp only [List.getElem?_cons_zero, Option.some.injEq] at hd
          exact hd ▸ hlt
        | succ j =>
          simp only at hji
          rw [List.getElem?_cons_succ, List.getElem?_eq_getElem (by omega), Option.some.injEq] at hd
          exact hd ▸ hj j (by omega)

/-- The located lag is the index of an entry. -/
theorem peak_lag_lt (cs : List Int) (h : cs ≠ []) : (peak cs).1 < cs.length :=
  (List.getElem?_eq_some_iff.mp (peak_spec cs h).1).1

theorem peak_natAbs_le (cs : List Int) (b : Nat) (h : ∀ c ∈ cs, c.natAbs ≤ b) : (peak cs).2.natAbs ≤ b := by
  cases cs with
  | nil => simp [peak]
  | cons c cs => exact h _ (List.mem_of_getElem? (peak_spec (c :: cs) (by simp)).1)

/-! Segments and decisions. -/

@[simp] theorem segments_length (N nb : Nat) (xs : List Int) : (segments N nb xs).length = nb := by
  induction nb generalizing xs with
  | zero => rfl
  | succ n ih => simp [segments, ih]

/-- Segment i is the N samples from i·N (40_modem.md R121). -/
theorem segments_getElem? (N nb : Nat) (xs : List Int) (i : Nat) (h : i < nb) :
    (segments N nb xs)[i]? = some ((xs.drop (i * N)).take N) := by
  induction nb generalizing xs i with
  | zero => omega
  | succ n ih =>
    cases i with
    | zero => simp [segments]
    | succ i =>
      rw [segments, List.getElem?_cons_succ, ih _ _ (by omega), List.drop_drop, Nat.add_mul, Nat.one_mul, Nat.add_comm]

@[simp] theorem correctPolarity_length (sch : Scheme) (neg : Bool) (bs : List Bool) :
    (correctPolarity sch neg bs).length = bs.length := by
  rw [correctPolarity]
  split <;> simp

@[simp] theorem demodBits_length (sch : Scheme) (N : Nat) (neg : Bool) (nb : Nat) (data : List Int) :
    (demodBits sch N neg nb data).length = nb := by
  simp [demodBits]

/-! The command bodies. -/

/-- MOD's body ends in one of two ways (40_modem.md R116). -/
theorem modBody_cases (s : State) :
    (65536 < (8 + s.regs.bitlen.toNat) * s.n ∧ modBody s = .raise .capacity s) ∨
    ((8 + s.regs.bitlen.toNat) * s.n ≤ 65536 ∧
      modBody s = .done ((s.writeSamps (wave s.regs.scheme s.n (Config.preamble ++ s.bits s.regs.bitlen.toNat))).setSamplen
        ((8 + s.regs.bitlen.toNat) * s.n))) := by
  rw [modBody]
  by_cases h : Config.sampCap < (Config.preambleLen + s.regs.bitlen.toNat) * s.n
  · exact .inl ⟨h, by simp [h]⟩
  · exact .inr ⟨Nat.not_lt.mp h, by simp [h]; rfl⟩

/-- The correlations DEMOD takes (40_modem.md R118). -/
def demodCorrelations (s : State) : List Int :=
  correlations (preambleWave s.regs.scheme s.n) (s.regs.samplen.toNat - 8 * s.n + 1) (s.samps s.regs.samplen.toNat)

/-- DEMOD's body ends in one of three ways: too short, below the threshold, synchronized (40_modem.md R117). -/
theorem demodBody_cases (s : State) :
    (s.regs.samplen.toNat < 8 * s.n ∧ demodBody s = demodFailed s 0) ∨
    (8 * s.n ≤ s.regs.samplen.toNat ∧
      (peak (demodCorrelations s)).2.natAbs < s.regs.syncThr.toNat * 16384 ∧
      demodBody s = demodFailed s ((peak (demodCorrelations s)).2.natAbs / 16384)) ∨
    (8 * s.n ≤ s.regs.samplen.toNat ∧
      s.regs.syncThr.toNat * 16384 ≤ (peak (demodCorrelations s)).2.natAbs ∧
      demodBody s = demodAt s (s.samps s.regs.samplen.toNat) (peak (demodCorrelations s)).1
        (peak (demodCorrelations s)).2) := by
  have e1 : Config.preambleLen = 8 := rfl
  have e2 : 2 ^ Config.sampleFraction = 16384 := rfl
  have e3 : peak (correlations (preambleWave s.regs.scheme s.n) (s.regs.samplen.toNat - 8 * s.n + 1)
    (s.samps s.regs.samplen.toNat)) = peak (demodCorrelations s) := rfl
  simp only [demodBody, e1, e2, e3]
  by_cases h1 : s.regs.samplen.toNat < 8 * s.n
  · exact .inl ⟨h1, by rw [if_pos h1]⟩
  · by_cases h2 : (peak (demodCorrelations s)).2.natAbs < s.regs.syncThr.toNat * 16384
    · exact .inr (.inl ⟨by omega, h2, by rw [if_neg h1, if_pos h2]⟩)
    · exact .inr (.inr ⟨by omega, by omega, by rw [if_neg h1, if_neg h2]⟩)

/-- |C(Ls)| ≤ 2^15 · 2^14 · 8N (10_state.md R35, 40_modem.md R127). -/
theorem demodPeak_natAbs_le (s : State) (hs : s.MemWf) :
    (peak (demodCorrelations s)).2.natAbs ≤ 8 * s.n * (32768 * 16384) := by
  refine peak_natAbs_le _ _ fun c hc => ?_
  obtain ⟨L, hL, rfl⟩ := List.mem_iff_getElem.mp hc
  have hL' : L < s.regs.samplen.toNat - 8 * s.n + 1 := by simpa [demodCorrelations] using hL
  have he := correlations_getElem? (preambleWave s.regs.scheme s.n) _ (s.samps s.regs.samplen.toNat) L hL'
  rw [demodCorrelations] at hL
  rw [List.getElem?_eq_getElem hL, Option.some.injEq] at he
  have hb := dot_natAbs_le ((s.samps s.regs.samplen.toNat).drop L) (preambleWave s.regs.scheme s.n) 32768 16384
    (fun v hv => ?_) (fun v hv => wave_natAbs_le hv)
  · rw [preambleWave_length] at hb
    simpa only [demodCorrelations, he] using hb
  · obtain ⟨j, hj, rfl⟩ := List.mem_iff_getElem.mp (List.mem_of_mem_drop hv)
    rw [State.samps_getElem hs]
    have := State.samp_bounds s j
    omega

/-- The located lag is one at which the whole reference fits (40_modem.md R118). -/
theorem demodPeak_lag_le (s : State) : (peak (demodCorrelations s)).1 ≤ s.regs.samplen.toNat - 8 * s.n := by
  have hne : demodCorrelations s ≠ [] := by
    intro h
    have := congrArg List.length h
    simp [demodCorrelations] at this
  have hL := peak_lag_lt _ hne
  simp only [demodCorrelations, correlations_length] at hL
  simp only [demodCorrelations]
  omega

end Sys2Proof.Machine
end

