-- ==== Sys2Proof/Laws/PerInstr.lean ====
section
/-! SUPPORT. Statements made of every command as syntax, one lemma per command. -/

namespace Sys2Proof.Laws.Encoding

/-- The command's own word, with zeros in the ignored bits, is well formed and reads back as the command, from the
word, from its bytes and from its table bits (30_encoding.md R90 to R92). -/
def Statement (i : Instr) : Prop :=
  i.wellFormed = true ∧ decode (encode i) = .ok i ∧ decodeBytes (wordBytes (encode i)) = .ok i ∧
    decodeTableWord 32 (encode i).toNat = some i

theorem nop : Statement .nop := by
  refine ⟨?_, ?_, ?_, ?_⟩ <;> decide

theorem mod : Statement .mod := by
  refine ⟨?_, ?_, ?_, ?_⟩ <;> decide

theorem demod : Statement .demod := by
  refine ⟨?_, ?_, ?_, ?_⟩ <;> decide

theorem ser : Statement .ser := by
  refine ⟨?_, ?_, ?_, ?_⟩ <;> decide

theorem parse : Statement .parse := by
  refine ⟨?_, ?_, ?_, ?_⟩ <;> decide

theorem cksum : Statement .cksum := by
  refine ⟨?_, ?_, ?_, ?_⟩ <;> decide

theorem ckchk : Statement .ckchk := by
  refine ⟨?_, ?_, ?_, ?_⟩ <;> decide

theorem tx : Statement .tx := by
  refine ⟨?_, ?_, ?_, ?_⟩ <;> decide

theorem rx : Statement .rx := by
  refine ⟨?_, ?_, ?_, ?_⟩ <;> decide

end Sys2Proof.Laws.Encoding
end

