-- ==== Sys2Proof/Laws/Step.lean ====
section
/-! SUPPORT. What a command body and one step can do: the frame of each body, and every step as one of its moves. -/

namespace Sys2Proof.Machine

/-! Command bodies. -/

/-- The body of each command. -/
def bodyOf : Instr → State → BodyEnd
  | .nop, s => .done s
  | .mod, s => modBody s
  | .demod, s => .done (demodBody s)
  | .ser, s => .done (serBody s)
  | .parse, s => .done (parseBody s)
  | .cksum, s => .done (cksumBody s)
  | .ckchk, s => .done (ckchkBody s)
  | .tx, s => modBody (serBody s)
  | .rx, s => .done (parseBody (demodBody s))

/-- Every command completes its body (43_sequencing.md R172). -/
theorem exec_eq (i : Instr) (s : State) : exec i s = .next (complete (bodyOf i s)) := by
  cases i <;> rfl

/-- No command stops. -/
theorem exec_next (i : Instr) (s : State) : ∃ t, exec i s = .next t := ⟨_, exec_eq i s⟩

/-- What a command body leaves alone: everything but the registers and the buffers' bytes. -/
def SameOutside (s t : State) : Prop := t = { s with regs := t.regs, mem := t.mem }

theorem SameOutside.refl (s : State) : SameOutside s s := rfl

theorem SameOutside.trans {s t u : State} (h : SameOutside s t) (h' : SameOutside t u) : SameOutside s u := by
  rw [SameOutside] at *
  rw [h'] at *
  rw [h]

theorem demodBody_sameOutside (s : State) : SameOutside s (demodBody s) := by
  rcases demodBody_cases s with ⟨_, h⟩ | ⟨_, _, h⟩ | ⟨_, _, h⟩ <;> rw [h] <;> rfl

theorem parseBody_sameOutside (s : State) : SameOutside s (parseBody s) := by
  rw [parseBody]
  split <;> rfl

theorem modBody_sameOutside (s : State) : SameOutside s (modBody s).state := by
  rcases modBody_cases s with ⟨_, h⟩ | ⟨_, h⟩ <;> rw [h] <;> rfl

theorem ckchkBody_sameOutside (s : State) : SameOutside s (ckchkBody s) := by
  rw [ckchkBody]
  split <;> rfl

/-- No command body touches the sequencer, the pins, the environment or the draws. -/
theorem bodyOf_sameOutside (i : Instr) (s : State) : SameOutside s (bodyOf i s).state := by
  cases i with
  | nop => exact SameOutside.refl s
  | mod => exact modBody_sameOutside s
  | demod => exact demodBody_sameOutside s
  | ser => exact SameOutside.refl _
  | parse => exact parseBody_sameOutside s
  | cksum => exact SameOutside.refl _
  | ckchk => exact ckchkBody_sameOutside s
  | tx => exact SameOutside.trans (t := serBody s) rfl (modBody_sameOutside _)
  | rx => exact (demodBody_sameOutside s).trans (parseBody_sameOutside _)

/-! The frame's length. -/

@[simp] theorem frameBody_length (s : State) : (frameBody s).length = 40 + 8 * s.regs.len.toNat := by
  have : ((s.pays s.regs.len.toNat).flatMap msb8).length = s.regs.len.toNat * 8 := by
    rw [length_flatMap_const msb8_length]
    simp [State.pays]
  simp only [frameBody, List.length_append, msb8_length, this]
  omega

/-! The canonical form. -/

theorem memWf_serBody {s : State} (hs : s.MemWf) : (serBody s).MemWf := by
  have hl : s.regs.len.toNat < 256 := s.regs.len.isLt
  exact State.memWf_writeBits hs (by simp; omega)

theorem memWf_modBody {s : State} (hs : s.MemWf) : (modBody s).state.MemWf := by
  rcases modBody_cases s with ⟨_, h⟩ | ⟨hc, h⟩ <;> rw [h]
  · exact hs
  · refine State.memWf_writeSamps hs ?_
    rw [wave_length, List.length_append, State.bits_length]
    exact hc

theorem memWf_demodBody {s : State} (hs : s.MemWf) : (demodBody s).MemWf := by
  rcases demodBody_cases s with ⟨_, h⟩ | ⟨_, _, h⟩ | ⟨_, _, h⟩ <;> rw [h]
  · exact hs
  · exact hs
  · refine State.memWf_writeBits (s := { s with regs := _ }) hs ?_
    simp [Config.bitCap]

theorem memWf_parseBody {s : State} (hs : s.MemWf) : (parseBody s).MemWf := by
  rw [parseBody]
  split
  · refine State.memWf_writePays (s := { s with regs := _ }) hs ?_
    have := (declaredLen s).isLt
    rw [State.bytesAt_length]
    omega
  · exact hs

/-- Every command body keeps the buffers in canonical form. -/
theorem memWf_bodyOf (i : Instr) {s : State} (hs : s.MemWf) : (bodyOf i s).state.MemWf := by
  cases i with
  | nop => exact hs
  | mod => exact memWf_modBody hs
  | demod => exact memWf_demodBody hs
  | ser => exact memWf_serBody hs
  | parse => exact memWf_parseBody hs
  | cksum => exact hs
  | ckchk =>
    simp only [bodyOf, ckchkBody, BodyEnd.state]
    split <;> exact hs
  | tx => exact memWf_modBody (memWf_serBody hs)
  | rx => exact memWf_parseBody (memWf_demodBody hs)

/-! Steps. -/

/-- The state a step works on: the scheduler's choice is taken off. -/
def afterTurn (s : State) : State := { s with turns := s.turns.tail }

/-- One step is one of these (43_sequencing.md R172, R177, R180, 70_reset_and_hazards.md R220). -/
theorem step_cases (s : State) :
    (turnOf s = .sequencer ∧ s.seq = .idle ∧ step s = .next (afterTurn s)) ∨
    (∃ op i, turnOf s = .sequencer ∧ s.seq = .busy op ∧ decodeOp op = .ok i ∧ step s = exec i (afterTurn s)) ∨
    (∃ op r, turnOf s = .sequencer ∧ s.seq = .busy op ∧ decodeOp op = .error r ∧
      step s = .next (complete (.raise .illegalOp (afterTurn s)))) ∨
    (turnOf s = .host ∧ (s.host = [] ∨ s.rstN = false) ∧ step s = .next (afterTurn s)) ∨
    (∃ op rest, turnOf s = .host ∧ s.host = op :: rest ∧ s.rstN = true ∧ op.inBlockSpace = true ∧
      step s = .next (hostAccess (afterTurn s) op rest)) ∨
    (∃ op rest, turnOf s = .host ∧ s.host = op :: rest ∧ s.rstN = true ∧ op.inBlockSpace = false ∧
      step s = .fault (.outsideBlockSpace op.addr)) ∨
    (turnOf s = .resetLow ∧ step s = .next ((afterTurn s).hardReset false)) ∨
    (turnOf s = .resetHigh ∧ step s = .next (if s.rstN then afterTurn s else (afterTurn s).hardReset true)) := by
  rcases ht : turnOf s with _ | _ | _ | _
  · rcases hh : s.host with _ | ⟨op, rest⟩
    · exact .inr (.inr (.inr (.inl ⟨rfl, .inl rfl, by
        simp [step, nextMove, ht, moveOf, hostMove, hh, afterTurn]⟩)))
    · rcases hr : s.rstN with _ | _
      · exact .inr (.inr (.inr (.inl ⟨rfl, .inr rfl, by
          simp [step, nextMove, ht, moveOf, hostMove, hh, hr, afterTurn]⟩)))
      · rcases hb : op.inBlockSpace with _ | _
        · exact .inr (.inr (.inr (.inr (.inr (.inl ⟨op, rest, rfl, rfl, rfl, hb, by
            simp [step, nextMove, ht, moveOf, hostMove, hh, hr, hb]⟩)))))
        · exact .inr (.inr (.inr (.inr (.inl ⟨op, rest, rfl, rfl, rfl, hb, by
            simp [step, nextMove, ht, moveOf, hostMove, hh, hr, hb, afterTurn]⟩))))
  · rcases hs : s.seq with _ | op
    · exact .inl ⟨rfl, rfl, by simp [step, nextMove, ht, moveOf, sequencerMove, hs, afterTurn]⟩
    · rcases hd : decodeOp op with r | i
      · exact .inr (.inr (.inl ⟨op, r, rfl, rfl, hd, by
          simp [step, nextMove, ht, moveOf, sequencerMove, hs, hd, afterTurn]⟩))
      · exact .inr (.inl ⟨op, i, rfl, rfl, hd, by
          simp [step, nextMove, ht, moveOf, sequencerMove, hs, hd, afterTurn]⟩)
  · exact .inr (.inr (.inr (.inr (.inr (.inr (.inl ⟨rfl, by
      simp [step, nextMove, ht, moveOf, afterTurn]⟩))))))
  · exact .inr (.inr (.inr (.inr (.inr (.inr (.inr ⟨rfl, by
      simp [step, nextMove, ht, moveOf, afterTurn]⟩))))))

end Sys2Proof.Machine
end

