-- ==== Sys2Proof/Tests/Slice0.lean ====
section
/-! SUPPORT. Tests on small states: expected results are the vectors of 95_test_vectors.md, or worked out by hand from
the rules they name. The second half shows, for every statement with hypotheses, states and operands that meet them. -/

namespace Sys2Proof.Machine.Tests

/-! Small states. -/

/-- The state a result continues with. -/
def nextOf : Result → Option State
  | .next t => some t
  | _ => none

/-- `f` of the state after a result, none if the machine stopped. -/
def see {α : Type} (r : Result) (f : State → α) : Option α := (nextOf r).map f

/-- Bytes at an offset. -/
def put (s : State) (a : Nat) (bytes : List Nat) : State := s.storeBytes a (bytes.map (BitVec.ofNat 8))

/-- N = 1, ASK, the threshold recommended for N = 1 (70_reset_and_hazards.md). -/
def oneSample : State := { State.reset with regs := { Regs.reset with spb := 1, syncThr := 0x4000 } }

/-- BITLEN bits in the bit buffer. -/
def withBits (s : State) (bitlen : Nat) (bytes : List Nat) : State := (put s 0x200 bytes).setBitlen bitlen

/-- Samples in the sample buffer. -/
def withSamps (s : State) (vs : List Int) : State := (s.writeSamps vs).setSamplen vs.length

/-- A host about to make an access. -/
def hostAt (s : State) (op : HostOp) : State := { s with host := [op], turns := [.host] }

/-- A command accepted and running. -/
def running (i : Instr) (s : State) : State := { s with seq := .busy (opcode i) }

/-- The preamble at N = 1 and a bit 1 after it. -/
def preambleOne : List Int := [16384, -16384, 16384, -16384, 16384, -16384, 16384, -16384, 16384]

/-! Well-formedness: each check refuses an ill-formed access. -/

theorem test_wf_outside_block_space : HostOp.inBlockSpace (.read .four 262144) = false ∧
    HostOp.wellFormed (.read .four 262144) = false := by decide

theorem test_wf_data_too_wide : HostOp.dataFits (.write .one 0x200 0x100) = false ∧
    HostOp.wellFormed (.write .one 0x200 0x100) = false := by decide

theorem test_wf_poll_never_ends : HostOp.pollCanEnd (.poll 0x010 1 2) = false ∧
    HostOp.wellFormed (.poll 0x010 1 2) = false := by decide

theorem test_wf_accepts : HostOp.wellFormed (.read .four 262140) = true ∧
    HostOp.wellFormed (.write .one 0x200 0xFF) = true ∧ HostOp.wellFormed (.poll 0x010 1 0) = true := by decide

theorem test_wf_commands : ([.nop, .mod, .demod, .ser, .parse, .cksum, .ckchk, .tx, .rx].all Instr.wellFormed) = true := by
  decide

/-! Decoding: words written from the table of 30_encoding.md R92, bits [31:8] zero or not. -/

theorem test_decode_nop : decode 0b00000000000000000000000000000000 = .ok .nop := by decide

theorem test_decode_mod : decode 0b00000000000000000000000000000001 = .ok .mod := by decide

theorem test_decode_demod : decode 0b00000000000000000000000000000010 = .ok .demod := by decide

theorem test_decode_ser : decode 0b00000000000000000000000000010000 = .ok .ser := by decide

theorem test_decode_parse : decode 0b11111111111111111111111100010001 = .ok .parse := by decide

theorem test_decode_cksum : decode 0b00000000000000000000000000100000 = .ok .cksum := by decide

theorem test_decode_ckchk : decode 0b10000000000000000000000100100001 = .ok .ckchk := by decide

theorem test_decode_tx : decode 0b00000000000000000000000000110000 = .ok .tx := by decide

theorem test_decode_rx : decode 0b00000000000000010000000000110001 = .ok .rx := by decide

/-- The first and last value of each illegal range of R93 is rejected with its OP. -/
theorem test_decode_illegal :
    [0x03, 0x0F, 0x12, 0x1F, 0x22, 0x2F, 0x32, 0x7F, 0xFF].map (fun n => decode (BitVec.ofNat 32 n)) =
      [0x03, 0x0F, 0x12, 0x1F, 0x22, 0x2F, 0x32, 0x7F, 0xFF].map (fun n => .error (.illegalOp (BitVec.ofNat 8 n))) := by
  decide

/-- A command is exactly one word (R94); the low byte lies at the lowest address (20_memory.md R65). -/
theorem test_decode_bytes : decodeBytes [0x31, 0, 0, 0] = .ok .rx ∧ decodeBytes [0, 0, 0, 0x31] = .ok .nop ∧
    decodeBytes [0x31, 0, 0] = .error (.notOneWord 3) ∧ decodeBytes [] = .error (.notOneWord 0) := by decide

/-- SETCFG 2, 256 and ACKDONE (R103). -/
theorem test_expand : expand (.setCfg 2 256) = [.write .four 0x004 0x01000002] ∧
    expand .ackDone = [.write .four 0x010 2] := by decide

/-! Carrier tables for N = 16, as 40_modem.md R112 prints them. -/

theorem test_sin1_16 : sinTable 1 16 =
    [0, 6270, 11585, 15137, 16384, 15137, 11585, 6270, 0, -6270, -11585, -15137, -16384, -15137, -11585, -6270] := by
  decide

theorem test_cos1_16 : cosTable 1 16 =
    [16384, 15137, 11585, 6270, 0, -6270, -11585, -15137, -16384, -15137, -11585, -6270, 0, 6270, 11585, 15137] := by
  decide

theorem test_sin2_16 : sinTable 2 16 =
    [0, 11585, 16384, 11585, 0, -11585, -16384, -11585, 0, 11585, 16384, 11585, 0, -11585, -16384, -11585] := by decide

theorem test_cos2_16 : cosTable 2 16 =
    [16384, 11585, 0, -11585, -16384, -11585, 0, 11585, 16384, 11585, 0, -11585, -16384, -11585, 0, 11585] := by decide

/-! One command each. -/

/-- SQ-1: RUN NOP leaves STATUS 2. -/
theorem test_nop : see (exec .nop (running .nop State.reset)) (fun t => t.readReg .status) = some 2 := by decide

/-- MV-1's samples at N = 1 (R113, R116). -/
theorem test_mod : see (exec .mod (withBits oneSample 4 [0xB0]))
    (fun t => (t.readReg .status, t.readReg .samplen, t.samps 12)) =
    some (2, 12, [16384, -16384, 16384, -16384, 16384, -16384, 16384, -16384, 16384, -16384, 16384, 16384]) := by decide

/-- CAPACITY at N = 256: 249 bits do not fit (R116). -/
theorem test_mod_capacity :
    see (exec .mod { State.reset with regs := { Regs.reset with spb := 256, bitlen := 249, samplen := 7 } })
      (fun t => (t.readReg .status, t.readReg .samplen)) = some (0xA, 7) := by decide

/-- The tie of lags 0 and 1 that MV-19 describes: lag 0 is chosen, and the bit 1 is decided. -/
theorem test_demod : see (exec .demod (withSamps (withBits oneSample 0 [0]) preambleOne))
    (fun t => (t.readReg .status, t.readReg .syncLag, t.readReg .syncPeak, t.readReg .bitlen, t.bytesAt 0x200 1)) =
    some (0x102, 0, 131072, 1, [0x80]) := by decide

/-- An inverted preamble: ASK sets PEAK_NEG and does not invert the bits (R125). -/
theorem test_demod_negative : see (exec .demod (withSamps (withBits oneSample 0 [0]) (preambleOne.map (fun v => -v) ++ [-1])))
    (fun t => (t.readReg .status, t.readReg .syncLag, t.readReg .bitlen, t.bytesAt 0x200 1)) =
    some (0x302, 0, 2, [0x00]) := by decide

/-- FV-2: an empty ACK frame. -/
theorem test_ser : see (exec .ser { State.reset with regs := { Regs.reset with src := 2, dst := 1, typ := 2 } })
    (fun t => (t.readReg .status, t.readReg .bitlen, t.readReg .frameLc, t.bytesAt 0x200 6)) =
    some (2, 48, 0x300, [2, 1, 2, 0, 0, 3]) := by decide

/-- The frame of FV-2 read back. -/
theorem test_parse : see (exec .parse (withBits State.reset 48 [2, 1, 2, 0, 0, 3]))
    (fun t => (t.readReg .status, t.readReg .frameHdr, t.readReg .frameLc)) = some (0x802, 0x00020102, 0x300) := by decide

/-- The same with its checksum wrong: nothing is loaded (R142, R144). -/
theorem test_parse_bad : see (exec .parse (withBits State.reset 48 [2, 1, 2, 0, 0, 2]))
    (fun t => (t.readReg .status, t.readReg .frameHdr, t.readReg .frameLc)) = some (2, 0, 0) := by decide

/-- The header of FV-1 has 6 one bits; the seventh and eighth bits after them do not count. -/
theorem test_cksum : see (exec .cksum (withBits State.reset 41 [1, 2, 1, 0, 5, 0x7F]))
    (fun t => (t.readReg .status, t.readReg .ckResult)) = some (2, 5) := by decide

/-- CK-6: eight zeros are their own checksum. -/
theorem test_ckchk : see (exec .ckchk (withBits State.reset 8 [0]))
    (fun t => (t.readReg .status, t.readReg .ckResult)) = some (0x1002, 0) := by decide

/-- CK-10, n = 13: body popcount 2, field 0x23. -/
theorem test_ckchk_mismatch : see (exec .ckchk (withBits State.reset 13 [0b11000001, 0b00011000]))
    (fun t => (t.readReg .status, t.readReg .ckResult)) = some (2, 2) := by decide

/-- TX at N = 1 with LEN = 0: 48 frame bits and 8 preamble bits. -/
theorem test_tx : see (exec .tx oneSample) (fun t => (t.readReg .status, t.readReg .bitlen, t.readReg .samplen)) =
    some (2, 48, 56) := by decide

/-- SQ-11, LEN = 26 at N = 256: CAPACITY, SER's BITLEN stands. -/
theorem test_tx_capacity :
    see (exec .tx { put State.reset 0x100 (List.replicate 26 0) with regs := { Regs.reset with spb := 256, len := 26 } })
      (fun t => (t.readReg .status, t.readReg .bitlen, t.readReg .frameLc, t.readReg .samplen)) =
      some (0xA, 256, 0x31A, 0) := by decide +kernel

/-- SQ-12's shape at N = 1: silence gives no sync, no frame and no bits. -/
theorem test_rx_silence : see (exec .rx (withSamps oneSample (List.replicate 8 0)))
    (fun t => (t.readReg .status, t.readReg .bitlen)) = some (2, 0) := by decide

/-! Steps, resets and the bus. -/

/-- Each command runs as the first one after reset. -/
theorem test_first_command :
    [0x00, 0x01, 0x02, 0x10, 0x11, 0x20, 0x21, 0x30, 0x31].map
        (fun w => see (step (State.reset.withFetchWord 32 w)) (fun t => t.readReg .status)) =
      [some 2, some 2, some 2, some 2, some 2, some 2, some 2, some 2, some 2] := by decide

/-- 43_sequencing.md R177: RUN with command word 0x7F. -/
theorem test_illegal_command : see (step (State.reset.withFetchWord 32 0x7F)) (fun t => t.readReg .status) = some 6 := by
  decide

/-- SQ-10: soft reset aborts TX, BIT and SAMP are unspecified, PAY is kept. -/
theorem test_abort :
    see (step (hostAt (running .tx (put (put State.reset 0x100 [7]) 0x200 [9])) (.write .four 0x008 1)))
      (fun t => (t.readReg .status, t.busy, t.mem, t.bitGen, t.payGen)) =
      some (0, false, [(0x100, 7)], 1, 0) := by decide

/-- The boundary offsets of BE1 to BE4 on a write (60_exceptions.md R191). -/
theorem test_write_causes :
    [writeCause State.reset .four 0x034 0, writeCause State.reset .four 0x038 0, writeCause State.reset .four 0x0FC 0,
     writeCause State.reset .four 0x100 0, writeCause State.reset .one 0x3FF 0, writeCause State.reset .four 0x400 0,
     writeCause State.reset .four 0x1FFFC 0, writeCause State.reset .four 0x20000 0,
     writeCause State.reset .one 0x3FFFF 0, writeCause State.reset .two 0x010 0, writeCause State.reset .four 0x102 0,
     writeCause State.reset .four 0x006 0, writeCause State.reset .two 0x007 0] =
    [some .readOnly, some .unmapped, some .unmapped, none, none, some .unmapped, some .unmapped, none, none,
     some .registerWidth, some .misaligned, some .misaligned, some .registerWidth] := by decide

/-- BE5 to BE7 at their boundaries (10_state.md R23, R29, R30). -/
theorem test_register_write_causes :
    [regWriteCause State.reset .cfg 0x00010000, regWriteCause State.reset .cfg 0x01000002,
     regWriteCause State.reset .cfg 0x00000000, regWriteCause State.reset .cfg 0x01010000,
     regWriteCause State.reset .cfg 0x00010003, regWriteCause State.reset .bitlen 4096,
     regWriteCause State.reset .bitlen 4097, regWriteCause State.reset .samplen 65536,
     regWriteCause State.reset .samplen 65537, regWriteCause (running .nop State.reset) .syncThr 0,
     regWriteCause (running .nop State.reset) .irqEn 0] =
    [none, none, some .illegalConfig, some .illegalConfig, some .illegalConfig, none, some .lengthRange, none,
     some .lengthRange, some .inputWhileBusy, none] := by decide

/-- Buffer bytes are little-endian on the bus (20_memory.md R65). -/
theorem test_bus_byte_order :
    (hostRead (hostWrite State.reset .four 0x100 0x6C6C6548).2 .two 0x100).1 = .readOkay 0x6548 := by decide

/-! Witnesses: for each statement with hypotheses, states and operands that meet all of them, each clause at a boundary
of its range. -/

theorem witness_DecodeReadsExactlyTheOpByte : Instr.wellFormed .rx = true ∧ decode (encodeWith 0xFFFFFF .rx) = .ok .rx := by
  decide

theorem witness_StepRunsDecodedCommand :
    (running .rx State.reset).seq = .busy 0x31 ∧ decodeOp 0x31 = .ok .rx ∧ Instr.wellFormed .rx = true ∧
      turnOf (running .rx State.reset) = .sequencer := by decide

/-- An accepted illegal OP. -/
def illegalRunning (ovr : Bool) : State :=
  { State.reset with seq := .busy 0x03, regs := { Regs.reset with ovr := ovr } }

theorem witness_IllegalCommandCompletesWithError : (illegalRunning true).seq = .busy 0x03 ∧
    decodeOp 0x03 = .error (.illegalOp 0x03) ∧ turnOf (illegalRunning true) = .sequencer ∧
    (illegalRunning true).regs.FlagsClear ∧ (illegalRunning false).regs.FlagsClear := by decide

theorem witness_CommandWriteAcceptedWhenIdle :
    (hostAt State.reset (.write .four 0x00C 0xFFFFFFFF)).HostAbout (.write .four 0x00C 0xFFFFFFFF) [] ∧
      (hostAt State.reset (.write .four 0x00C 0xFFFFFFFF)).seq = .idle := by decide

theorem witness_CommandWriteDroppedWhileBusy :
    (hostAt (running .tx State.reset) (.write .four 0x00C 1)).HostAbout (.write .four 0x00C 1) [] ∧
      (hostAt (running .tx State.reset) (.write .four 0x00C 1)).seq = .busy 0x30 := by decide

/-- A running command, the scheduler out of choices, or with two polls before the sequencer. -/
theorem witness_RunningCommandEnds : (running .ser State.reset).seq = .busy 0x10 ∧ (running .ser State.reset).HostInSpace ∧
    State.HostInSpace { running .ser State.reset with host := expand .wait, turns := [.host, .host] } := by decide

/-- The last offset inside the block space and the first outside. -/
theorem witness_StepStopsOnlyOutsideBlockSpace :
    (hostAt State.reset (.read .one 262144)).HostAbout (.read .one 262144) [] ∧
      HostOp.inBlockSpace (.read .one 262143) = true := by decide

theorem witness_StepKeepsInvariant : State.reset.Inv ∧ (hostAt (running .mod State.reset) (.write .four 0x008 1)).Inv ∧
    ∃ t, step (hostAt (running .mod State.reset) (.write .four 0x008 1)) = .next t :=
  ⟨by decide, by decide, _, rfl⟩

theorem witness_CommandChangesOnlyItsWriteSet : Loc.reg .bitlen ∉ writeSet .mod ∧ RegName.bitlen ≠ .status ∧
    Loc.buf .pay ∉ writeSet .tx ∧ Buffer.pay.holds 0x100 = true ∧ Buffer.pay.holds 0x1FF = true := by decide

/-- N and BITLEN, everything else as at reset. -/
def sized (spb bitlen : Nat) : State :=
  { State.reset with regs := { Regs.reset with spb := BitVec.ofNat 9 spb, bitlen := BitVec.ofNat 13 bitlen } }

/-- An illegal OP, a MOD that does not fit, and a RX. -/
theorem witness_CommandErrorCodesAreTheThree :
    (illegalRunning false).seq = .busy 0x03 ∧ turnOf (illegalRunning false) = .sequencer ∧
    (∃ t, step (illegalRunning false) = .next t) ∧
    (running .mod (sized 256 249)).seq = .busy 0x01 ∧ turnOf (running .mod (sized 256 249)) = .sequencer ∧
    65536 < (8 + (running .mod (sized 256 249)).regs.bitlen.toNat) * (running .mod (sized 256 249)).n ∧
    (∃ t, step (running .mod (sized 256 249)) = .next t) ∧
    turnOf (running .rx State.reset) = .sequencer ∧ ∃ t, step (running .rx State.reset) = .next t :=
  ⟨by decide, by decide, ⟨_, rfl⟩, by decide, by decide, by decide, ⟨_, rfl⟩, by decide, _, rfl⟩

/-- Two states that agree on the one bit that BITLEN covers, and differ in the bit after it. -/
theorem witness_CommandsReadOnlyTheirOperands :
    (withBits State.reset 1 [0x80]).MemWf ∧ (withBits State.reset 1 [0xC0]).MemWf ∧
    (withBits State.reset 1 [0xC0]).regs = (withBits State.reset 1 [0x80]).regs ∧
    (∀ k, k < (withBits State.reset 1 [0x80]).regs.len.toNat →
      (withBits State.reset 1 [0xC0]).pay k = (withBits State.reset 1 [0x80]).pay k) ∧
    (∀ j, j < (withBits State.reset 1 [0x80]).regs.bitlen.toNat →
      (withBits State.reset 1 [0xC0]).bit j = (withBits State.reset 1 [0x80]).bit j) ∧
    (∀ j, j < (withBits State.reset 1 [0x80]).regs.samplen.toNat →
      (withBits State.reset 1 [0xC0]).samp j = (withBits State.reset 1 [0x80]).samp j) ∧
    (∃ t, exec .mod (withBits State.reset 1 [0x80]) = .next t) ∧
    (∃ t, exec .mod (withBits State.reset 1 [0xC0]) = .next t) ∧
    (withBits State.reset 1 [0xC0]).bit 1 ≠ (withBits State.reset 1 [0x80]).bit 1 :=
  ⟨by decide, by decide, by decide, fun k hk => absurd hk (Nat.not_lt_zero k), by decide,
    fun k hk => absurd hk (Nat.not_lt_zero k), ⟨_, rfl⟩, ⟨_, rfl⟩, by decide⟩

theorem witness_RunningCommandInputsStay :
    (hostAt (running .tx State.reset) (.write .four 0x00C 1)).busy = true ∧
      ∃ t, step (hostAt (running .tx State.reset) (.write .four 0x00C 1)) = .next t ∧
        t.seq = (hostAt (running .tx State.reset) (.write .four 0x00C 1)).seq :=
  ⟨by decide, _, rfl, rfl⟩

/-- The boundaries of the causes: reserved ranges, widths, alignment, read-only registers, inputs while BUSY, CFG and
length values; and writes beside each that end OKAY. -/
theorem witness_WriteBusErrorsAreTheSevenCauses :
    ([(0x038, 0), (0x0FF, 0), (0x00400, 0), (0x1FFFF, 0), (0x000, 0), (0x02C, 0), (0x030, 0), (0x034, 0),
      (0x004, 0x00010003), (0x004, 0), (0x004, 0x01010000), (0x018, 4097), (0x01C, 65537), (0x003, 0), (0x3FFFF, 0)].map
        (fun p => (hostWrite State.reset .four p.1 (BitVec.ofNat 32 p.2)).1)) = List.replicate 15 .writeError ∧
    ([(0x004, 0x00010000), (0x004, 0x01000002), (0x008, 0), (0x00C, 0), (0x018, 4096), (0x01C, 65536), (0x100, 0),
      (0x3FC, 0), (0x20000, 0), (0x3FFFC, 0)].map
        (fun p => (hostWrite State.reset .four p.1 (BitVec.ofNat 32 p.2)).1)) = List.replicate 10 .writeOkay ∧
    ([0x004, 0x018, 0x01C, 0x020, 0x024, 0x028, 0x100, 0x3FC, 0x20000, 0x3FFFC].map
        (fun a => (hostWrite (running .nop State.reset) .four a 0x00100000).1)) = List.replicate 10 .writeError ∧
    (hostWrite State.reset .two 0x034 0).1 = .writeError ∧ (hostWrite State.reset .one 0x3FFFF 0).1 = .writeOkay := by
  decide +kernel

theorem witness_ReadBusErrorsAreTheThreeCauses :
    ([0x038, 0x0FF, 0x00400, 0x1FFFF, 0x003, 0x3FFFF].map (fun a => (hostRead State.reset .four a).1)) =
      List.replicate 6 (.readError 0) ∧ (hostRead State.reset .two 0x036 ).1 = .readError 0 := by decide +kernel

theorem witness_BusErrorChangesNothing :
    (hostAt State.reset (.write .four 0x3FFFF 0)).HostAbout (.write .four 0x3FFFF 0) [] ∧ 0x3FFFF < 262144 ∧
      (hostWrite (hostAt State.reset (.write .four 0x3FFFF 0)) .four 0x3FFFF 0).1 = .writeError ∧
    (hostAt State.reset (.read .four 0x038)).HostAbout (.read .four 0x038) [] ∧ 0x038 < 262144 ∧
      (hostRead (hostAt State.reset (.read .four 0x038)) .four 0x038).1 = .readError 0 := by decide +kernel

theorem witness_ReadsChangeNoBlockState :
    (hostAt (running .ser State.reset) (.read .one 262143)).HostAbout (.read .one 262143) [] ∧ 262143 < 262144 := by decide

/-- The first and last register, and buffer bytes at the ends of windows, inside and outside a write set. -/
theorem witness_ReadsAreExactOutsideTheWriteSet :
    registers[0]? = some .id ∧ (hostAt State.reset (.read .four 0)).HostAbout (.read .four (4 * 0)) [] ∧
    Loc.reg .id ∉ (hostAt State.reset (.read .four 0)).runningWriteSet ∧
    registers[13]? = some .ckResult ∧
    (hostAt (running .ckchk State.reset) (.read .four 52)).HostAbout (.read .four (4 * 13)) [] ∧
    Loc.reg .ckResult ∈ (hostAt (running .ckchk State.reset) (.read .four 52)).runningWriteSet ∧
    State.reset.MemWf ∧ Buffer.samp.holds 0x3FFFC = true ∧ 0x3FFFC % Size.four.bytes = 0 ∧
    (hostAt (running .mod State.reset) (.read .four 0x3FFFC)).HostAbout (.read .four 0x3FFFC) [] ∧
    Loc.buf .samp ∈ (hostAt (running .mod State.reset) (.read .four 0x3FFFC)).runningWriteSet ∧
    Buffer.bit.holds 0x200 = true ∧ (hostAt State.reset (.read .one 0x200)).HostAbout (.read .one 0x200) [] ∧
    Loc.buf .bit ∉ (hostAt State.reset (.read .one 0x200)).runningWriteSet := by decide +kernel

theorem witness_StatusWhileBusyIsExact :
    (hostAt (running .rx State.reset) (.read .four 0x010)).Inv ∧
      (hostAt (running .rx State.reset) (.read .four 0x010)).busy = true ∧
      (hostAt (running .rx State.reset) (.read .four 0x010)).HostAbout (.read .four 0x010) [] := by decide

theorem witness_BusyInputWritesRefused :
    ([0x004, 0x018, 0x01C, 0x020, 0x024, 0x028, 0x100, 0x3FF, 0x20000, 0x3FFFF].all (fun a =>
      (hostAt (running .nop State.reset) (.write .one a 0)).busy &&
        decide ((hostAt (running .nop State.reset) (.write .one a 0)).HostAbout (.write .one a 0) []) &&
        decide (a < 262144) &&
        decide (a = 0x004 ∨ a = 0x018 ∨ a = 0x01C ∨ a = 0x020 ∨ a = 0x024 ∨ a = 0x028 ∨ (0x100 ≤ a ∧ a ≤ 0x3FF) ∨
          0x20000 ≤ a))) = true := by decide +kernel

theorem witness_BufferReadAfterWrite :
    (hostAt State.reset (.write .four 0x100 7)).MemWf ∧ (hostAt State.reset (.write .four 0x100 7)).seq = .idle ∧
    (hostAt State.reset (.write .four 0x100 7)).HostAbout (.write .four 0x100 7) [] ∧ 0x100 % Size.four.bytes = 0 ∧
    (hostAt State.reset (.write .one 0x3FF 7)).HostAbout (.write .one 0x3FF 7) [] ∧
    (hostAt State.reset (.write .two 0x3FFFE 7)).HostAbout (.write .two 0x3FFFE 7) [] ∧
    0x3FFFE % Size.two.bytes = 0 := by decide +kernel

theorem witness_BitBufferByteMapping : (hostAt State.reset (.write .one (0x200 + 511) 0xA0)).MemWf ∧
    (hostAt State.reset (.write .one (0x200 + 511) 0xA0)).seq = .idle ∧ 511 < 512 ∧
    (hostAt State.reset (.write .one (0x200 + 511) 0xA0)).HostAbout (.write .one (0x200 + 511) 0xA0) [] := by decide

theorem witness_SampleBufferMapping :
    (hostAt State.reset (.write .two (0x20000 + 2 * 65535) 0x8000)).seq = .idle ∧ 65535 < 65536 ∧
    (hostAt State.reset (.write .two (0x20000 + 2 * 65535) 0x8000)).HostAbout
      (.write .two (0x20000 + 2 * 65535) 0x8000) [] ∧ 32767 < 32768 ∧
    (hostAt State.reset (.write .four (0x20000 + 4 * 32767) 1)).HostAbout (.write .four (0x20000 + 4 * 32767) 1) [] ∧
    (hostAt State.reset (.write .one (0x20000 + 2 * 65535 + true.toNat) 1)).HostAbout
      (.write .one (0x20000 + 2 * 65535 + true.toNat) 1) [] := by decide +kernel

theorem witness_PayloadByteMapping : (hostAt State.reset (.write .one (0x100 + 255) 1)).MemWf ∧
    (hostAt State.reset (.write .one (0x100 + 255) 1)).seq = .idle ∧ 255 < 256 ∧
    (hostAt State.reset (.write .one (0x100 + 255) 1)).HostAbout (.write .one (0x100 + 255) 1) [] := by decide

/-- A legal and three illegal values for CFG. -/
theorem witness_ConfigWriteChecked : (hostAt State.reset (.write .four 0x004 0x01000002)).seq = .idle ∧
    (hostAt State.reset (.write .four 0x004 0x01000002)).HostAbout (.write .four 0x004 0x01000002) [] ∧
    ([0x01000002, 0x00010003, 0x00000000, 0x01010000].map (fun n : Nat =>
      decide (n % 4 = 3 ∨ n / 65536 % 512 = 0 ∨ 256 < n / 65536 % 512))) = [false, true, true, true] := by decide +kernel

theorem witness_LengthWritesChecked : (hostAt State.reset (.write .four 0x018 4096)).seq = .idle ∧
    (hostAt State.reset (.write .four 0x018 4096)).HostAbout (.write .four 0x018 4096) [] ∧ ¬ 4096 < 4096 % 8192 ∧
    4096 < 4097 % 8192 ∧ (hostAt State.reset (.write .four 0x01C 65536)).seq = .idle ∧
    (hostAt State.reset (.write .four 0x01C 65536)).HostAbout (.write .four 0x01C 65536) [] ∧
    ¬ 65536 < 65536 % 131072 ∧ 65536 < 65537 % 131072 := by decide +kernel

theorem witness_StatusWriteClearsDoneAndOvr :
    (hostAt (running .tx State.reset) (.write .four 0x010 0x22)).HostAbout (.write .four 0x010 0x22) [] := by decide

theorem witness_PlainRegisterWritesReadBack :
    (hostAt (running .tx State.reset) (.write .four 0x014 3)).HostAbout (.write .four 0x014 3) [] ∧
    ([0x020, 0x024, 0x028].all (fun a => decide ((hostAt State.reset (.write .four a 0xFFFFFFFF)).seq = .idle ∧
      (hostAt State.reset (.write .four a 0xFFFFFFFF)).HostAbout (.write .four a 0xFFFFFFFF) []))) = true := by decide

theorem witness_ReadOnlyAndWriteOnlyRegisters :
    ([0x000, 0x02C, 0x030, 0x034].all (fun a =>
      decide ((hostAt State.reset (.write .four a 1)).HostAbout (.write .four a 1) []))) = true := by decide

theorem witness_ResetRegisterValues : State.reset = State.reset ∨ State.reset = (running .tx State.reset).softReset ∨
    State.reset = (running .tx State.reset).hardReset true := by decide

/-- A running TX: PAY is outside its write set, SAMP in it. -/
theorem witness_SoftResetEffect :
    (hostAt (running .tx State.reset) (.write .four 0x008 1)).HostAbout (.write .four 0x008 1) [] ∧
    (1 : Word).getLsbD 0 = true ∧ Buffer.pay.holds 0x1FF = true ∧
    Loc.buf .pay ∉ (hostAt (running .tx State.reset) (.write .four 0x008 1)).runningWriteSet ∧
    Buffer.samp.holds 0x20000 = true ∧
    Loc.buf .samp ∈ (hostAt (running .tx State.reset) (.write .four 0x008 1)).runningWriteSet ∧
    (hostAt State.reset (.write .four 0x008 2)).HostAbout (.write .four 0x008 2) [] ∧
    (2 : Word).getLsbD 0 = false := by decide

theorem witness_HardwareResetEffect :
    State.turns { State.reset with turns := [.resetLow] } = .resetLow :: [] ∧
    State.rstN { State.reset with rstN := false, turns := [.host] } = false ∧
    State.turns { State.reset with rstN := false, turns := [.host] } = .host :: [] ∧
    State.turns { State.reset with rstN := false, turns := [.resetHigh] } = .resetHigh :: [] ∧
    Buffer.pay.holds 0x100 = true ∧ Buffer.bit.holds 0x3FF = true ∧ Buffer.samp.holds 0x3FFFF = true := by decide

theorem witness_NopOnlyCompletes : (running .nop State.reset).regs.FlagsClear := by decide

/-- 248 bits at N = 256 fill the sample buffer exactly; 249 do not fit. -/
theorem witness_ModWritesTheWaveform : (sized 256 248).MemWf ∧
    (8 + (sized 256 248).regs.bitlen.toNat) * (sized 256 248).n ≤ 65536 ∧ 0 < (sized 256 248).n ∧
    247 < (sized 256 248).regs.bitlen.toNat ∧
    65536 < (8 + (sized 256 249).regs.bitlen.toNat) * (sized 256 249).n := by decide

/-- Seven samples are too few at N = 1; the preamble and one more sample pass the threshold at lag 0; silence does not. -/
theorem witness_DemodLocatesAndDecides :
    (withSamps oneSample (List.replicate 7 0)).regs.samplen.toNat < 8 * (withSamps oneSample (List.replicate 7 0)).n ∧
    (withSamps oneSample preambleOne).MemWf ∧ (withSamps oneSample preambleOne).regs.Legal ∧
    8 * (withSamps oneSample preambleOne).n ≤ (withSamps oneSample preambleOne).regs.samplen.toNat ∧
    (withSamps oneSample preambleOne).regs.syncThr.toNat * 2 ^ 14 ≤ ((withSamps oneSample preambleOne).corr 0).natAbs ∧
    (withSamps oneSample (List.replicate 8 0)).MemWf ∧ (withSamps oneSample (List.replicate 8 0)).regs.Legal ∧
    8 * (withSamps oneSample (List.replicate 8 0)).n ≤ (withSamps oneSample (List.replicate 8 0)).regs.samplen.toNat ∧
    ((withSamps oneSample (List.replicate 8 0)).corr 0).natAbs <
      (withSamps oneSample (List.replicate 8 0)).regs.syncThr.toNat * 2 ^ 14 := by decide +kernel

theorem witness_SyncPassesAtThePeakThreshold :
    (withSamps oneSample preambleOne).MemWf ∧ (withSamps oneSample preambleOne).regs.Legal ∧
    (withSamps oneSample preambleOne).regs.syncOk = false ∧
    8 * (withSamps oneSample preambleOne).n ≤ (withSamps oneSample preambleOne).regs.samplen.toNat := by decide

theorem witness_PeakIsSmallestLagOfLargestMagnitude : [(3 : Int), -5, 5] ≠ [] ∧ peak [3, -5, 5] = (1, -5) := by decide

theorem witness_SerBuildsTheFrame :
    State.MemWf { put State.reset 0x100 [0x41] with regs := { Regs.reset with len := 1 } } := by decide

/-- An empty frame and a frame with one payload byte, each in exactly the bits it needs. -/
theorem witness_ParseChecksAndLoads_good :
    (withBits State.reset 48 [2, 1, 2, 0, 0, 3]).MemWf ∧
    48 + 8 * ((withBits State.reset 48 [2, 1, 2, 0, 0, 3]).bitByte 4).toNat ≤
      (withBits State.reset 48 [2, 1, 2, 0, 0, 3]).regs.bitlen.toNat ∧
    (withBits State.reset 48 [2, 1, 2, 0, 0, 3]).ones 40 % 256 =
      ((withBits State.reset 48 [2, 1, 2, 0, 0, 3]).bitByte 5).toNat ∧
    48 + 8 * ((withBits State.reset 56 [2, 1, 2, 0, 1, 0x41, 6]).bitByte 4).toNat ≤
      (withBits State.reset 56 [2, 1, 2, 0, 1, 0x41, 6]).regs.bitlen.toNat ∧
    (withBits State.reset 56 [2, 1, 2, 0, 1, 0x41, 6]).ones 48 % 256 =
      ((withBits State.reset 56 [2, 1, 2, 0, 1, 0x41, 6]).bitByte 6).toNat := by decide +kernel

/-- One bit short; the payload one bit short; a wrong checksum. -/
theorem witness_ParseChecksAndLoads_bad :
    (withBits State.reset 47 [2, 1, 2, 0, 0, 3]).MemWf ∧
    (withBits State.reset 47 [2, 1, 2, 0, 0, 3]).regs.bitlen.toNat < 48 ∧
    (withBits State.reset 55 [2, 1, 2, 0, 1, 0x41, 6]).MemWf ∧
    (withBits State.reset 55 [2, 1, 2, 0, 1, 0x41, 6]).regs.bitlen.toNat <
      48 + 8 * ((withBits State.reset 55 [2, 1, 2, 0, 1, 0x41, 6]).bitByte 4).toNat ∧
    (withBits State.reset 48 [2, 1, 2, 0, 0, 2]).MemWf ∧
    (withBits State.reset 48 [2, 1, 2, 0, 0, 2]).ones 40 % 256 ≠
      ((withBits State.reset 48 [2, 1, 2, 0, 0, 2]).bitByte 5).toNat := by decide +kernel

theorem witness_CksumCountsOneBits : (withBits State.reset 8 [0xFF]).MemWf := by decide

theorem witness_CkchkComparesTheLastEightBits : (withBits State.reset 7 [0]).regs.bitlen.toNat < 8 ∧
    (withBits State.reset 8 [0]).MemWf ∧ 8 ≤ (withBits State.reset 8 [0]).regs.bitlen.toNat := by decide

/-- LEN = 25 at N = 256 fits exactly, LEN = 26 does not. -/
theorem witness_TxIsSerThenMod : (56 + 8 * 25) * (sized 256 0).n ≤ 65536 ∧ 65536 < (56 + 8 * 26) * (sized 256 0).n := by
  decide

theorem witness_RxIsDemodThenParse :
    (withSamps oneSample (List.replicate 7 0)).regs.samplen.toNat < 8 * (withSamps oneSample (List.replicate 7 0)).n ∧
    ∃ u, exec .demod (withSamps oneSample (List.replicate 7 0)) = .next u ∧ u.regs.bitlen.toNat < 48 :=
  ⟨by decide, _, rfl, by decide⟩

theorem witness_ParseAcceptsWhatSerBuilt : State.reset.MemWf ∧ ∃ t, exec .ser State.reset = .next t :=
  ⟨by decide, _, rfl⟩

theorem witness_SerRebuildsWhatParseAccepted :
    (withBits State.reset 48 [2, 1, 2, 0, 0, 3]).MemWf ∧
    (withBits State.reset 48 [2, 1, 2, 0, 0, 3]).regs.frameOk = false ∧
    ∃ t, exec .parse (withBits State.reset 48 [2, 1, 2, 0, 0, 3]) = .next t ∧ t.regs.frameOk = true :=
  ⟨by decide, by decide, _, rfl, by decide⟩

/-- An empty frame in 48 bits, and the same frame followed by 8 more bits. -/
def bareFrame : State := withBits State.reset 48 [2, 1, 2, 0, 0, 3]

/-- See `bareFrame`. -/
def trailedFrame : State := withBits State.reset 56 [2, 1, 2, 0, 0, 3, 9]

/-- Writing the bit buffer leaves the payload. -/
theorem pay_withBits (s : State) (n : Nat) (bytes : List Nat) (k : Nat) (hk : k < 256) :
    (withBits s n bytes).pay k = s.pay k :=
  State.byteAt_storeBytes_of_out s (.inl (by omega))

theorem witness_TrailingBitsTakeNoPart :
    bareFrame.MemWf ∧ trailedFrame.MemWf ∧
    48 + 8 * (bareFrame.bitByte 4).toNat ≤ bareFrame.regs.bitlen.toNat ∧
    48 + 8 * (bareFrame.bitByte 4).toNat ≤ trailedFrame.regs.bitlen.toNat ∧
    trailedFrame.regs = { bareFrame.regs with bitlen := trailedFrame.regs.bitlen } ∧
    (∀ i, i < 48 + 8 * (bareFrame.bitByte 4).toNat → trailedFrame.bit i = bareFrame.bit i) ∧
    (∀ k, k < 256 → trailedFrame.pay k = bareFrame.pay k) ∧
    (∃ t, exec .parse bareFrame = .next t) ∧ ∃ t, exec .parse trailedFrame = .next t :=
  ⟨by decide, by decide, by decide, by decide, by decide, by decide +kernel,
    fun k hk => by rw [trailedFrame, bareFrame, pay_withBits _ _ _ k hk, pay_withBits _ _ _ k hk], ⟨_, rfl⟩, _, rfl⟩

/-- Eight zero bits, and the same with their last bit changed. -/
theorem witness_CkchkDetectsEverySingleBitError :
    (withBits State.reset 8 [0]).MemWf ∧ (withBits State.reset 8 [1]).MemWf ∧
    8 ≤ (withBits State.reset 8 [0]).regs.bitlen.toNat ∧
    (withBits State.reset 8 [1]).regs = (withBits State.reset 8 [0]).regs ∧
    7 < (withBits State.reset 8 [0]).regs.bitlen.toNat ∧
    (withBits State.reset 8 [1]).bit 7 = !(withBits State.reset 8 [0]).bit 7 ∧
    (∀ i, i < 8 → i ≠ 7 → (withBits State.reset 8 [1]).bit i = (withBits State.reset 8 [0]).bit i) ∧
    see (exec .ckchk (withBits State.reset 8 [0])) (fun t => t.regs.ckOk) = some true := by decide +kernel

/-- Four bits at N = 1, the threshold at the peak itself: 8·N·2^14. -/
def atThePeak : State :=
  withBits { State.reset with regs := { Regs.reset with spb := 1, syncThr := 0x20000 } } 4 [0xB0]

theorem witness_AskDemodRecoversModulatedBits :
    atThePeak.MemWf ∧ atThePeak.regs.scheme = .ask ∧ 1 ≤ atThePeak.n ∧ atThePeak.regs.bitlen.toNat ≤ 4096 ∧
    (8 + atThePeak.regs.bitlen.toNat) * atThePeak.n ≤ 65536 ∧
    atThePeak.regs.syncThr.toNat ≤ 8 * atThePeak.n * 2 ^ 14 ∧ ∃ t, exec .mod atThePeak = .next t :=
  ⟨by decide, by decide, by decide, by decide, by decide, by decide, _, rfl⟩

theorem witness_AskRxRecoversTransmittedFrame :
    oneSample.MemWf ∧ oneSample.regs.scheme = .ask ∧ 1 ≤ oneSample.n ∧
    (56 + 8 * oneSample.regs.len.toNat) * oneSample.n ≤ 65536 ∧
    oneSample.regs.syncThr.toNat ≤ 8 * oneSample.n * 2 ^ 14 ∧ ∃ t, exec .tx oneSample = .next t :=
  ⟨by decide, by decide, by decide, by decide, by decide, _, rfl⟩

theorem witness_CarrierTablesAreRoundedSinusoids : (2 = 1 ∨ 2 = 2) ∧ 1 ≤ 256 ∧ 256 ≤ 256 ∧ 255 < 256 := by decide

theorem witness_ZeroCarrierTables : 1 ≤ 4 ∧ 4 ≤ 256 ∧ (∀ k, k < 4 → sinEntry 2 4 k = 0) ∧ sinEntry 2 3 1 ≠ 0 := by decide

theorem witness_PlacedCommandRunsNext : decodeTableWord 32 0x31 = some .rx ∧ decodeTableWord 32 0xFFFFFF31 = some .rx := by
  decide

theorem witness_PollRepeatsUntilMatched :
    (hostAt State.reset (.poll 0x010 1 0)).HostAbout (.poll 0x010 1 0) [] ∧ 0x010 < 262144 := by decide

theorem witness_RunCompletesTheCommand :
    State.seq { State.reset with host := expand (.run .tx) } = .idle ∧
    State.rstN { State.reset with host := expand (.run .tx) } = true ∧
    State.turns { State.reset with host := expand (.run .tx) } = [] ∧
    State.host { State.reset with host := expand (.run .tx) } = expand (.run .tx) ++ [] := by decide

/-- The first entry, and the last, whose register is in a running write set. -/
theorem witness_ReservedBitsReadZeroAndIgnoreWrites :
    ([0xFFFFFFFF, 0x01FF0003, 0x00000001, 0x000000FF, 0x00001F3F, 0x00000003, 0x00001FFF, 0x0001FFFF, 0xFFFFFFFF,
      0x0000FFFF, 0xFFFFFFFF, 0x0000FFFF, 0xFFFFFFFF, 0x000000FF] : List Word)[0]? = some 0xFFFFFFFF ∧
    ([0xFFFFFFFF, 0x01FF0003, 0x00000001, 0x000000FF, 0x00001F3F, 0x00000003, 0x00001FFF, 0x0001FFFF, 0xFFFFFFFF,
      0x0000FFFF, 0xFFFFFFFF, 0x0000FFFF, 0xFFFFFFFF, 0x000000FF] : List Word)[13]? = some 0xFF ∧
    Loc.reg .ckResult ∈ (running .cksum State.reset).runningWriteSet := by decide

end Sys2Proof.Machine.Tests
end

section
/-! The rules about register accesses: what a register read answers, when a register write is refused, and the
step that makes it (10_state.md R20 to R37, 60_exceptions.md R191). -/

namespace Sys2Proof.Machine

/-! The register window: register k is at offset 4k (10_state.md R20). -/

theorem lt_of_registers {k : Nat} {r : RegName} (hk : registers[k]? = some r) : k < 14 :=
  (List.getElem?_eq_some_iff.mp hk).1

theorem locate_register {k : Nat} {r : RegName} (hk : registers[k]? = some r) :
    locate (4 * k) = some (.reg r) := by
  have hlt := lt_of_registers hk
  rw [locate, if_pos (by omega), Nat.mul_div_cancel_left k (by decide), hk, Option.map_some]

theorem accessCause_register {k : Nat} {r : RegName} (hk : registers[k]? = some r) :
    accessCause .four (4 * k) = none := by
  simp [accessCause, locate_register hk, Size.bytes]

/-- A register write ends OKAY exactly when none of BE4 to BE7 holds (60_exceptions.md R191). -/
theorem regWriteCause_eq_none_iff (s : State) (r : RegName) (d : Word) :
    regWriteCause s r d = none ↔
      r.readOnly = false ∧ (r.input = true → s.busy = false) ∧ (r = .cfg → cfgLegal d = true) ∧
        (r = .bitlen → (d.extractLsb' 0 13).toNat ≤ 4096) ∧
        (r = .samplen → (d.extractLsb' 0 17).toNat ≤ 65536) := by
  have hbit : Config.bitCap = 4096 := rfl
  have hsamp : Config.sampCap = 65536 := rfl
  cases hb : s.busy <;> cases r <;>
    simp [regWriteCause, RegName.readOnly, RegName.input, hb, hbit, hsamp]

theorem busy_eq_false_iff (s : State) : s.busy = false ↔ s.seq = .idle := by simp [State.busy]

/-- An idle block's write to a writable register is refused only for BE6 and BE7. -/
theorem regWriteCause_eq_none_iff_of_idle {s : State} (hs : s.seq = .idle) {r : RegName} (hr : r.readOnly = false)
    (d : Word) : regWriteCause s r d = none ↔
      (r = .cfg → cfgLegal d = true) ∧ (r = .bitlen → (d.extractLsb' 0 13).toNat ≤ 4096) ∧
        (r = .samplen → (d.extractLsb' 0 17).toNat ≤ 65536) := by
  simp [regWriteCause_eq_none_iff, hr, (busy_eq_false_iff s).mpr hs]

theorem hostRead_register (s : State) {k : Nat} {r : RegName} (hk : registers[k]? = some r) :
    hostRead s .four (4 * k) =
      if Loc.reg r ∈ s.runningWriteSet then
        (.readOkay (Config.drawRead s.drawCount &&& r.fields), { s with drawCount := s.drawCount + 1 })
      else (.readOkay (s.readReg r), s) := by
  rw [hostRead, accessCause_register hk, locate_register hk]
  rfl

theorem hostWrite_register (s : State) {k : Nat} {r : RegName} (hk : registers[k]? = some r) (d : Word) :
    hostWrite s .four (4 * k) d =
      if regWriteCause s r d = none then (.writeOkay, s.writeReg r d) else (.writeError, s) := by
  cases hc : regWriteCause s r d <;>
    simp [hostWrite, writeCause, accessCause_register hk, locate_register hk, hc]

/-- The host's turn makes its next access (20_memory.md R60). -/
theorem step_of_hostAbout {s : State} {op : HostOp} {rest : List HostOp} (h : s.HostAbout op rest)
    (hb : op.inBlockSpace = true) : step s = .next (hostAccess (afterTurn s) op rest) := by
  obtain ⟨ht, hr, hh⟩ := h
  simp [step, nextMove, ht, moveOf, hostMove, hh, hr, hb, afterTurn]

section
variable {s : State} {k : Nat} {r : RegName} {d : Word} {rest : List HostOp}

theorem step_register_write (hk : registers[k]? = some r) (h : s.HostAbout (.write .four (4 * k) d) rest) :
    step s = .next (if regWriteCause s r d = none then
      { (afterTurn s).writeReg r d with host := rest, reply := some .writeOkay }
      else s.answered rest .writeError) := by
  have hlt := lt_of_registers hk
  have hb : (HostOp.write .four (4 * k) d).inBlockSpace = true :=
    decide_eq_true (show 4 * k < 262144 by omega)
  have hc : regWriteCause (afterTurn s) r d = regWriteCause s r d := rfl
  rw [step_of_hostAbout h hb, hostAccess, hostWrite_register _ hk, hc]
  split <;> rfl

/-- A register write without a cause of BE4 to BE7 is made. -/
theorem step_register_write_okay (hk : registers[k]? = some r)
    (h : s.HostAbout (.write .four (4 * k) d) rest) (hc : regWriteCause s r d = none) :
    step s = .next { (afterTurn s).writeReg r d with host := rest, reply := some .writeOkay } := by
  rw [step_register_write hk h, if_pos hc]

/-- A register write with such a cause is refused and changes nothing (60_exceptions.md R190). -/
theorem step_register_write_refused (hk : registers[k]? = some r)
    (h : s.HostAbout (.write .four (4 * k) d) rest) (hc : regWriteCause s r d ≠ none) :
    step s = .next (s.answered rest .writeError) := by
  rw [step_register_write hk h, if_neg hc]

end

end Sys2Proof.Machine
end

section
/-! Every step keeps the invariant: the commands' bodies keep legal registers, a host write keeps the invariant, and
the resets establish it. -/

namespace Sys2Proof.Machine

/-! Register updates keep legal registers. -/

theorem toNat_ofNat_le {w n b : Nat} (h : n ≤ b) : (BitVec.ofNat w n).toNat ≤ b := by
  rw [BitVec.toNat_ofNat]
  exact (Nat.mod_le _ _).trans h

theorem Regs.Legal.setBitlen {r : Regs} (h : r.Legal) {b : BitVec 13} (hb : b.toNat ≤ 4096) :
    Regs.Legal { r with bitlen := b } := by
  obtain ⟨hN, hN', _, rest⟩ := h
  exact ⟨hN, hN', hb, rest⟩

theorem Regs.Legal.setSamplen {r : Regs} (h : r.Legal) {n : BitVec 17} (hn : n.toNat ≤ 65536) :
    Regs.Legal { r with samplen := n } := by
  obtain ⟨hN, hN', hbl, _, rest⟩ := h
  exact ⟨hN, hN', hbl, hn, rest⟩

theorem Regs.Legal.syncFailed {r : Regs} (h : r.Legal) {p : Nat} (hp : p ≤ 67108864) : (r.syncFailed p).Legal := by
  obtain ⟨hN, hN', hbl, hsl, herr, _, _, rest⟩ := h
  exact ⟨hN, hN', hbl, hsl, herr, by simp, toNat_ofNat_le hp, rest⟩

theorem Regs.Legal.synced {r : Regs} (h : r.Legal) {p lag : Nat} (neg ovf : Bool) (hp : p ≤ 67108864)
    (hlag : lag ≤ 65528) : (r.synced p lag neg ovf).Legal := by
  obtain ⟨hN, hN', hbl, hsl, herr, _⟩ := h
  exact ⟨hN, hN', hbl, hsl, herr, toNat_ofNat_le hlag, toNat_ofNat_le hp, fun _ => rfl, fun _ => rfl⟩

theorem CmdError.code_le (e : CmdError) : e.code.toNat ≤ 2 := by cases e <;> decide

theorem Regs.Legal.completeFlags {r : Regs} (h : r.Legal) (e : CmdError) : (r.completeFlags e).Legal := by
  obtain ⟨hN, hN', hbl, hsl, _, rest⟩ := h
  exact ⟨hN, hN', hbl, hsl, e.code_le, rest⟩

theorem Regs.Legal.acceptClears {r : Regs} (h : r.Legal) : r.acceptClears.Legal := by
  obtain ⟨hN, hN', hbl, hsl, _, hlag, hpk, _⟩ := h
  exact ⟨hN, hN', hbl, hsl, by simp, hlag, hpk, by simp, by simp⟩

theorem Regs.flagsClear_acceptClears (r : Regs) : r.acceptClears.FlagsClear :=
  ⟨rfl, rfl, rfl, rfl, rfl, rfl, rfl⟩

theorem Regs.legal_reset : Regs.reset.Legal := by decide

theorem schemeOf_isSome_iff (c : BitVec 2) : (schemeOf c).isSome = true ↔ c ≠ 3 := by
  revert c; decide

theorem Scheme.code_of_schemeOf {c : BitVec 2} {sch : Scheme} (h : schemeOf c = some sch) : sch.code = c := by
  revert h sch c; decide

/-- A legal CFG write stores both fields (10_state.md R23). -/
theorem Regs.writeCfg_of_legal (r : Regs) {d : Word} (h : cfgLegal d = true) :
    ∃ sch, schemeOf (d.extractLsb' 0 2) = some sch ∧
      r.writeCfg d = { r with scheme := sch, spb := d.extractLsb' 16 9 } := by
  simp only [cfgLegal, Bool.and_eq_true] at h
  obtain ⟨⟨hs, _⟩, _⟩ := h
  obtain ⟨sch, hsch⟩ := Option.isSome_iff_exists.mp hs
  exact ⟨sch, hsch, by rw [Regs.writeCfg, hsch]⟩

theorem Regs.Legal.writeCfg {r : Regs} (h : r.Legal) {d : Word} (hd : cfgLegal d = true) :
    (r.writeCfg d).Legal := by
  obtain ⟨sch, _, hw⟩ := r.writeCfg_of_legal hd
  simp only [cfgLegal, Bool.and_eq_true, decide_eq_true_eq] at hd
  obtain ⟨⟨_, hmin⟩, hmax⟩ := hd
  obtain ⟨_, _, rest⟩ := h
  rw [hw]
  exact ⟨hmin, hmax, rest⟩

/-! Command bodies keep legal registers. -/

/-- SYNC_PEAK is at most 2^26 (10_state.md R35). -/
theorem demodPeak_div_le {s : State} (hm : s.MemWf) (hN : s.n ≤ 256) :
    (peak (demodCorrelations s)).2.natAbs / 16384 ≤ 67108864 := by
  have := demodPeak_natAbs_le s hm
  omega

theorem legal_demodBody {s : State} (hm : s.MemWf) (h : s.regs.Legal) : (demodBody s).regs.Legal := by
  have ⟨hN1, hN, _, hsl, _⟩ := h
  have hpk := demodPeak_div_le hm hN
  rcases demodBody_cases s with ⟨_, he⟩ | ⟨_, _, he⟩ | ⟨hlong, _, he⟩ <;> rw [he]
  · exact (h.syncFailed (by omega)).setBitlen (by simp)
  · exact (h.syncFailed hpk).setBitlen (by simp)
  · have hlag := demodPeak_lag_le s
    have hn : 1 ≤ s.n := hN1
    exact (h.synced _ _ hpk (by omega)).setBitlen (toNat_ofNat_le (min_le_right _ _))

theorem legal_parseBody {s : State} (h : s.regs.Legal) : (parseBody s).regs.Legal := by
  rw [parseBody]
  split
  · exact h
  · exact h

/-- A frame of the largest declared length is 2088 bits (41_frame.md R140). -/
theorem legal_serBody {s : State} (h : s.regs.Legal) : (serBody s).regs.Legal := by
  have hlen := s.regs.len.isLt
  exact Regs.Legal.setBitlen (r := { s.regs with chk := _ }) h (toNat_ofNat_le (by omega))

theorem legal_modBody {s : State} (h : s.regs.Legal) : (modBody s).state.regs.Legal := by
  rcases modBody_cases s with ⟨_, he⟩ | ⟨hfit, he⟩ <;> rw [he]
  · exact h
  · exact h.setSamplen (toNat_ofNat_le hfit)

theorem legal_ckchkBody {s : State} (h : s.regs.Legal) : (ckchkBody s).regs.Legal := by
  simp only [ckchkBody]
  split
  · exact h
  · simpa only [State.setCkOk_regs, State.setCkResult_regs] using h

/-- Every command body keeps legal registers. -/
theorem legal_bodyOf (i : Instr) {s : State} (hm : s.MemWf) (h : s.regs.Legal) :
    (bodyOf i s).state.regs.Legal := by
  cases i with
  | nop => exact h
  | mod => exact legal_modBody h
  | demod => exact legal_demodBody hm h
  | ser => exact legal_serBody h
  | parse => exact legal_parseBody h
  | cksum => exact h
  | ckchk => exact legal_ckchkBody h
  | tx => exact legal_modBody (legal_serBody h)
  | rx => exact legal_parseBody (legal_demodBody hm h)

/-! The invariant of states that are not BUSY. -/

theorem inv_of_not_busy {s : State} (hm : s.MemWf) (hr : s.regs.Legal) (hb : s.busy = false) : s.Inv :=
  ⟨hm, hr, fun h => by simp [hb] at h, fun _ => hb⟩

/-- A completion meets the invariant (43_sequencing.md R172). -/
theorem inv_complete {b : BodyEnd} (hm : b.state.MemWf) (hr : b.state.regs.Legal) : (complete b).Inv :=
  inv_of_not_busy hm (hr.completeFlags b.error) rfl

theorem inv_exec (i : Instr) {s t : State} (h : s.Inv) (he : exec i s = .next t) : t.Inv := by
  obtain ⟨hm, hr, _⟩ := h
  rw [exec_eq, Host.Outcome.next.injEq] at he
  exact he ▸ inv_complete (memWf_bodyOf i hm) (legal_bodyOf i hm hr)

theorem inv_softReset {s : State} (h : s.Inv) : s.softReset.Inv :=
  inv_of_not_busy (State.memWf_abortBuffers h.1) Regs.legal_reset rfl

theorem inv_hardReset {s : State} (h : s.Inv) (level : Bool) : (s.hardReset level).Inv :=
  inv_of_not_busy (Memory.wf_forget _ (Memory.wf_forget _ (Memory.wf_forget _ h.1))) Regs.legal_reset rfl

/-! Host accesses. -/

/-- Acceptance, or OVR on a CMD write while BUSY (43_sequencing.md R170, R173, R179). -/
theorem inv_writeCmd {s : State} (h : s.Inv) (hr : s.rstN = true) (d : Word) : (s.writeCmd d).Inv := by
  have ⟨hm, hl, _⟩ := h
  rw [State.writeCmd]
  split
  · exact ⟨hm, hl.acceptClears, fun _ => s.regs.flagsClear_acceptClears, fun h0 => by simp [hr] at h0⟩
  · exact h

/-- Clearing DONE and OVR sets no flag that acceptance cleared (10_state.md R27). -/
theorem inv_writeOneToClear {s : State} (h : s.Inv) (d : Word) :
    State.Inv { s with regs := s.regs.writeOneToClear d } := by
  obtain ⟨hm, hl, hclear, hrst⟩ := h
  refine ⟨hm, hl, fun hb => ?_, hrst⟩
  obtain ⟨hdone, rest⟩ := hclear hb
  exact ⟨by simp [hdone], rest⟩

/-- A register write that ends OKAY keeps the invariant. -/
theorem inv_writeReg {s : State} {r : RegName} {d : Word} (h : s.Inv) (hrst : s.rstN = true)
    (hc : regWriteCause s r d = none) : (s.writeReg r d).Inv := by
  have ⟨hm, hl, _⟩ := h
  obtain ⟨_, hbusy, hcfg, hbit, hsamp⟩ := (regWriteCause_eq_none_iff s r d).mp hc
  cases r with
  | id | syncLag | syncPeak | ckResult | irqEn => exact h
  | cfg => exact inv_of_not_busy hm (hl.writeCfg (hcfg rfl)) (hbusy rfl)
  | ctrl =>
    rw [State.writeReg]
    split
    · exact inv_softReset h
    · exact h
  | cmd => exact inv_writeCmd h hrst d
  | status => exact inv_writeOneToClear h d
  | bitlen => exact inv_of_not_busy hm (hl.setBitlen (hbit rfl)) (hbusy rfl)
  | samplen => exact inv_of_not_busy hm (hl.setSamplen (hsamp rfl)) (hbusy rfl)
  | frameHdr | frameLc | syncThr => exact inv_of_not_busy hm hl (hbusy rfl)

theorem inv_hostWrite {s : State} (h : s.Inv) (hrst : s.rstN = true) (size : Size) (a : Nat) (d : Word) :
    (hostWrite s size a d).2.Inv := by
  rcases hostWrite_cases s size a d with ⟨_, he⟩ | ⟨r, _, _, _, hc, he⟩ | ⟨b, hacc, hloc, hbusy, he⟩ <;>
    rw [he]
  · exact h
  · exact inv_writeReg h hrst hc
  · obtain ⟨hm, hl, _⟩ := h
    refine inv_of_not_busy (State.memWf_storeBytes hm fun i hi => ?_) hl hbusy
    rw [dataBytes_length] at hi
    have hin := (b.holds_iff _).mp (access_inside hacc hloc i hi)
    exact inBuffers_of_mem hin.1 hin.2

theorem inv_hostRead {s : State} (h : s.Inv) (size : Size) (a : Nat) : (hostRead s size a).2.Inv := by
  obtain ⟨k, hk⟩ := hostRead_state s size a
  rw [hk]
  exact h

/-- Every host access keeps the invariant; the host's list and the reply are no part of it. -/
theorem inv_hostAccess {s : State} (h : s.Inv) (hrst : s.rstN = true) (op : HostOp) (rest : List HostOp) :
    (hostAccess s op rest).Inv := by
  cases op with
  | read size a => exact inv_hostRead h size a
  | write size a d => exact inv_hostWrite h hrst size a d
  | poll a mask value => exact inv_hostRead h .four a

/-- Settles O11, by the cases of one step. -/
theorem stepKeepsInvariant : Obligations.StepKeepsInvariant := by
  unfold Obligations.StepKeepsInvariant
  intro s t h hstep
  have hturn : (afterTurn s).Inv := h
  rcases step_cases s with ⟨_, _, he⟩ | ⟨_, i, _, _, _, he⟩ | ⟨_, _, _, _, _, he⟩ | ⟨_, _, he⟩ |
    ⟨op, rest, _, _, hrst, _, he⟩ | ⟨_, _, _, _, _, _, he⟩ | ⟨_, he⟩ | ⟨_, he⟩ <;>
    rw [he] at hstep
  · exact Host.Outcome.next.inj hstep ▸ hturn
  · exact inv_exec i hturn hstep
  · exact Host.Outcome.next.inj hstep ▸ inv_complete hturn.1 hturn.2.1
  · exact Host.Outcome.next.inj hstep ▸ hturn
  · exact Host.Outcome.next.inj hstep ▸ inv_hostAccess hturn hrst op rest
  · cases hstep
  · exact Host.Outcome.next.inj hstep ▸ inv_hardReset hturn false
  · refine Host.Outcome.next.inj hstep ▸ ?_
    split
    · exact hturn
    · exact inv_hardReset hturn true

/-- Settles O10: the buffers are empty and the reset values of 10_state.md R46 are legal. -/
theorem resetMeetsInvariant : Obligations.ResetMeetsInvariant :=
  inv_of_not_busy rfl Regs.legal_reset rfl

end Sys2Proof.Machine
end

section
/-! The words of the registers: which bits they name, and what a read returns after a write (10_state.md R20 to
R37). -/

namespace Sys2Proof.Machine

/-! Bits of a word. -/

theorem setWidth_extractLsb' (w : Nat) (d : Word) :
    (d.extractLsb' 0 w).setWidth 32 = d &&& (BitVec.allOnes w).setWidth 32 := by
  refine BitVec.eq_of_getLsbD_eq fun i hi => ?_
  simp [hi, Bool.and_comm]

theorem append_extractLsb'_bytes (d : Word) :
    d.extractLsb' 24 8 ++ d.extractLsb' 16 8 ++ d.extractLsb' 8 8 ++ d.extractLsb' 0 8 = d := by
  refine BitVec.eq_of_getLsbD_eq fun i hi => ?_
  simp only [BitVec.getLsbD_append]
  interval_cases i <;> simp

/-! Reserved bits (10_state.md R37). -/

section
variable {m n : Nat} {x p : BitVec m}

/-- A mask of a joined word that keeps its high part and all of its low part keeps the word. -/
theorem append_field_and (y : BitVec n) (hx : x &&& p = x) : (x ++ y) &&& (p ++ BitVec.allOnes n) = x ++ y := by
  rw [BitVec.and_append, hx, BitVec.and_allOnes]

/-- A mask of a joined word whose low part is 0 may leave that part out. -/
theorem append_zero_and (q : BitVec n) (hx : x &&& p = x) :
    (x ++ (0 : BitVec n)) &&& (p ++ q) = x ++ (0 : BitVec n) := by
  rw [BitVec.and_append, hx]
  exact congrArg _ BitVec.zero_and

end

/-- A register reads as 0 in its reserved bits. -/
theorem State.readReg_and_fields (s : State) (r : RegName) : s.readReg r &&& r.fields = s.readReg r := by
  cases r with
  | id | frameHdr | syncThr | syncPeak => exact BitVec.and_allOnes
  | ctrl | cmd => exact BitVec.zero_and
  | bitlen | samplen | syncLag | ckResult =>
    exact BitVec.setWidth_and.symm.trans (congrArg (BitVec.setWidth 32) BitVec.and_allOnes)
  | cfg =>
    show _ &&& ((0 : BitVec 7) ++ BitVec.allOnes 9 ++ (0 : BitVec 14) ++ BitVec.allOnes 2) = _
    exact append_field_and _ (append_zero_and _ (append_field_and _ BitVec.zero_and))
  | status =>
    show _ &&& ((0 : BitVec 19) ++ BitVec.allOnes 1 ++ BitVec.allOnes 1 ++ BitVec.allOnes 1 ++ BitVec.allOnes 1
      ++ BitVec.allOnes 1 ++ (0 : BitVec 2) ++ BitVec.allOnes 1 ++ BitVec.allOnes 3 ++ BitVec.allOnes 1
      ++ BitVec.allOnes 1) = _
    have hresult := append_field_and (flag s.regs.syncOk) (append_field_and (flag s.regs.peakNeg)
      (append_field_and (flag s.regs.bitOvf) (append_field_and (flag s.regs.frameOk)
        (append_field_and (flag s.regs.ckOk) (BitVec.zero_and (x := (0 : BitVec 19)))))))
    exact append_field_and _ (append_field_and _ (append_field_and _ (append_field_and _
      (append_zero_and _ hresult))))
  | irqEn =>
    show _ &&& ((0 : BitVec 30) ++ BitVec.allOnes 1 ++ BitVec.allOnes 1) = _
    exact append_field_and _ (append_field_and _ BitVec.zero_and)
  | frameLc =>
    show _ &&& ((0 : BitVec 16) ++ BitVec.allOnes 8 ++ BitVec.allOnes 8) = _
    exact append_field_and _ (append_field_and _ BitVec.zero_and)

theorem extractLsb'_and_of_eq_allOnes {d m : Word} {start len : Nat}
    (h : m.extractLsb' start len = BitVec.allOnes len) :
    (d &&& m).extractLsb' start len = d.extractLsb' start len := by
  rw [BitVec.extractLsb'_and, h, BitVec.and_allOnes]

theorem getLsbD_and_of_getLsbD {d m : Word} {i : Nat} (h : m.getLsbD i = true) :
    (d &&& m).getLsbD i = d.getLsbD i := by
  rw [BitVec.getLsbD_and, h, Bool.and_true]

theorem cfgLegal_and_fields (d : Word) : cfgLegal (d &&& RegName.cfg.fields) = cfgLegal d := by
  have hscheme : (d &&& RegName.cfg.fields).extractLsb' 0 2 = d.extractLsb' 0 2 :=
    extractLsb'_and_of_eq_allOnes rfl
  have hspb : (d &&& RegName.cfg.fields).extractLsb' 16 9 = d.extractLsb' 16 9 :=
    extractLsb'_and_of_eq_allOnes rfl
  rw [cfgLegal, hscheme, hspb, cfgLegal]

/-- A write's bus errors do not depend on reserved bits. -/
theorem regWriteCause_and_fields (s : State) (r : RegName) (d : Word) :
    regWriteCause s r (d &&& r.fields) = regWriteCause s r d := by
  cases r with
  | cfg => simp only [regWriteCause, cfgLegal_and_fields]
  | bitlen | samplen => simp (disch := decide) only [regWriteCause, extractLsb'_and_of_eq_allOnes]
  | _ => rfl

/-- A write's effect does not depend on reserved bits. -/
theorem State.writeReg_and_fields (s : State) (r : RegName) (d : Word) :
    s.writeReg r (d &&& r.fields) = s.writeReg r d := by
  cases r with
  | id | syncLag | syncPeak | ckResult => rfl
  | cfg => simp (disch := decide) only [State.writeReg, Regs.writeCfg, extractLsb'_and_of_eq_allOnes]
  | cmd => simp (disch := decide) only [State.writeReg, State.writeCmd, extractLsb'_and_of_eq_allOnes]
  | ctrl | irqEn => simp (disch := decide) only [State.writeReg, getLsbD_and_of_getLsbD]
  | status => simp (disch := decide) only [State.writeReg, Regs.writeOneToClear, getLsbD_and_of_getLsbD]
  | bitlen | samplen | frameHdr | frameLc =>
    simp (disch := decide) only [State.writeReg, extractLsb'_and_of_eq_allOnes]
  | syncThr => exact congrArg (s.writeReg .syncThr) BitVec.and_allOnes

/-- The spec's list of named bits is the model's `fields`, register by register (10_state.md R20). -/
theorem map_fields_registers : registers.map RegName.fields =
    [0xFFFFFFFF, 0x01FF0003, 0x00000001, 0x000000FF, 0x00001F3F, 0x00000003, 0x00001FFF, 0x0001FFFF, 0xFFFFFFFF,
      0x0000FFFF, 0xFFFFFFFF, 0x0000FFFF, 0xFFFFFFFF, 0x000000FF] := rfl

/-- Settles O58: a draw is masked with the register's fields, a current value has no other bit, and a write reads no
other bit of its data. -/
theorem reservedBitsReadZeroAndIgnoreWrites : Obligations.ReservedBitsReadZeroAndIgnoreWrites := by
  unfold Obligations.ReservedBitsReadZeroAndIgnoreWrites
  intro s k named hnamed
  rw [← map_fields_registers, List.getElem?_map, Option.map_eq_some_iff] at hnamed
  obtain ⟨r, hk, rfl⟩ := hnamed
  constructor
  · rw [hostRead_register s hk]
    split
    · exact ⟨_, rfl, by rw [BitVec.and_assoc, BitVec.and_self]⟩
    · exact ⟨_, rfl, s.readReg_and_fields r⟩
  · intro d
    rw [hostWrite_register s hk, hostWrite_register s hk, regWriteCause_and_fields, State.writeReg_and_fields]

/-! ID, CTRL, CMD and the read-only registers (10_state.md R21, R24, R25, R37). -/

/-- No command writes ID, CTRL or CMD (43_sequencing.md R178). -/
theorem reg_notMem_runningWriteSet (s : State) {r : RegName} (hr : r = .id ∨ r = .ctrl ∨ r = .cmd) :
    Loc.reg r ∉ s.runningWriteSet := by
  have hw : ∀ i : Instr, Loc.reg r ∉ writeSet i := by
    rcases hr with rfl | rfl | rfl <;> intro i <;> cases i <;> decide
  rw [State.runningWriteSet]
  split
  · simp
  · rw [opWriteSet]
    split
    · exact hw _
    · simp

theorem hostRead_constant_register (s : State) {k : Nat} {r : RegName} (hk : registers[k]? = some r)
    (hr : r = .id ∨ r = .ctrl ∨ r = .cmd) : (hostRead s .four (4 * k)).1 = .readOkay (s.readReg r) := by
  rw [hostRead_register s hk, if_neg (reg_notMem_runningWriteSet s hr)]

theorem step_readOnly_write {s : State} {k : Nat} {r : RegName} {d : Word} {rest : List HostOp}
    (hk : registers[k]? = some r) (hr : r.readOnly = true) (h : s.HostAbout (.write .four (4 * k) d) rest) :
    step s = .next (s.answered rest .writeError) := by
  refine step_register_write_refused hk h fun hc => ?_
  obtain ⟨hro, _⟩ := (regWriteCause_eq_none_iff s r d).mp hc
  exact absurd hr (by simp [hro])

/-- Settles O31: ID, CTRL and CMD are in no write set, so a read is never a draw; the other writes have BE4. -/
theorem readOnlyAndWriteOnlyRegisters : Obligations.ReadOnlyAndWriteOnlyRegisters := by
  unfold Obligations.ReadOnlyAndWriteOnlyRegisters
  constructor
  · intro s
    exact ⟨hostRead_constant_register s (k := 0) (r := .id) rfl (by simp),
      hostRead_constant_register s (k := 2) (r := .ctrl) rfl (by simp),
      hostRead_constant_register s (k := 3) (r := .cmd) rfl (by simp)⟩
  · rintro s a d rest h (rfl | rfl | rfl | rfl)
    · exact step_readOnly_write (k := 0) (r := .id) rfl rfl h
    · exact step_readOnly_write (k := 11) (r := .syncLag) rfl rfl h
    · exact step_readOnly_write (k := 12) (r := .syncPeak) rfl rfl h
    · exact step_readOnly_write (k := 13) (r := .ckResult) rfl rfl h

/-! CFG (10_state.md R22, R23). -/

theorem cfgLegal_iff (d : Word) : cfgLegal d = true ↔
    ¬(d.toNat % 4 = 3 ∨ d.toNat / 65536 % 512 = 0 ∨ 256 < d.toNat / 65536 % 512) := by
  have hcode : d.extractLsb' 0 2 ≠ 3 ↔ d.toNat % 4 ≠ 3 := by
    rw [Ne, ← BitVec.toNat_inj, BitVec.extractLsb'_toNat]
    rfl
  have hspb : (d.extractLsb' 16 9).toNat = d.toNat / 65536 % 512 := by
    rw [BitVec.extractLsb'_toNat, Nat.shiftRight_eq_div_pow]
  simp only [cfgLegal, Bool.and_eq_true, decide_eq_true_eq, schemeOf_isSome_iff, hcode, hspb, Config.spbMin,
    Config.spbMax]
  omega

theorem Regs.cfgWord_writeCfg (r : Regs) {d : Word} (h : cfgLegal d = true) :
    (r.writeCfg d).cfgWord = d &&& 0x01FF0003 := by
  obtain ⟨sch, hsch, hw⟩ := r.writeCfg_of_legal h
  rw [hw, Regs.cfgWord, Scheme.code_of_schemeOf hsch]
  refine BitVec.eq_of_getLsbD_eq fun i hi => ?_
  simp only [BitVec.getLsbD_append]
  interval_cases i <;> simp

theorem Regs.writeCfg_frame (r : Regs) (d : Word) :
    r.writeCfg d = { r with scheme := (r.writeCfg d).scheme, spb := (r.writeCfg d).spb } := by
  rw [Regs.writeCfg]
  split <;> rfl

/-- Settles O27: BE6 is the only cause an idle block's CFG write can have. -/
theorem configWriteChecked : Obligations.ConfigWriteChecked := by
  unfold Obligations.ConfigWriteChecked
  intro s d rest hs h
  have hcause : regWriteCause s .cfg d = none ↔ cfgLegal d = true :=
    (regWriteCause_eq_none_iff_of_idle hs rfl d).trans (by simp)
  have hlegal := cfgLegal_iff d
  split
  next hbad => exact step_register_write_refused (k := 1) rfl h fun hc => hlegal.mp (hcause.mp hc) hbad
  next hgood =>
    have hd := hlegal.mpr hgood
    exact ⟨_, step_register_write_okay (k := 1) rfl h (hcause.mpr hd), s.regs.cfgWord_writeCfg hd,
      congrArg (fun r => { s.answered rest .writeOkay with regs := r }) (s.regs.writeCfg_frame d)⟩

/-! BITLEN and SAMPLEN (10_state.md R29, R30). -/

/-- Settles O28: BE7 is the only cause an idle block's length write can have. -/
theorem lengthWritesChecked : Obligations.LengthWritesChecked := by
  unfold Obligations.LengthWritesChecked
  constructor
  · intro s d rest hs h
    have hcause : regWriteCause s .bitlen d = none ↔ d.toNat % 8192 ≤ 4096 :=
      (regWriteCause_eq_none_iff_of_idle hs rfl d).trans (by simp)
    split
    next hbad => exact step_register_write_refused (k := 6) rfl h fun hc => absurd (hcause.mp hc) (by omega)
    next hgood =>
      exact ⟨_, step_register_write_okay (k := 6) rfl h (hcause.mpr (by omega)), setWidth_extractLsb' 13 d, rfl⟩
  · intro s d rest hs h
    have hcause : regWriteCause s .samplen d = none ↔ d.toNat % 131072 ≤ 65536 :=
      (regWriteCause_eq_none_iff_of_idle hs rfl d).trans (by simp)
    split
    next hbad => exact step_register_write_refused (k := 7) rfl h fun hc => absurd (hcause.mp hc) (by omega)
    next hgood =>
      exact ⟨_, step_register_write_okay (k := 7) rfl h (hcause.mpr (by omega)), setWidth_extractLsb' 17 d, rfl⟩

/-! STATUS (10_state.md R26, R27). -/

theorem Regs.statusWord_writeOneToClear (r : Regs) (busy : Bool) (d : Word) :
    (r.writeOneToClear d).statusWord busy = r.statusWord busy &&& ~~~(d &&& 0x22) := by
  refine BitVec.eq_of_getLsbD_eq fun i hi => ?_
  simp only [Regs.statusWord, BitVec.getLsbD_and, BitVec.getLsbD_append]
  interval_cases i <;> simp [flag]

/-- Settles O29: a STATUS write has no cause of a bus error, BUSY or not. -/
theorem statusWriteClearsDoneAndOvr : Obligations.StatusWriteClearsDoneAndOvr := by
  unfold Obligations.StatusWriteClearsDoneAndOvr
  intro s d rest h
  exact ⟨_, step_register_write_okay (k := 4) (r := .status) rfl h rfl,
    s.regs.statusWord_writeOneToClear s.busy d, rfl⟩

/-! IRQ_EN, FRAME_HDR, FRAME_LC and SYNC_THR (10_state.md R28, R31 to R33). -/

theorem Regs.irqEnWord_write (r : Regs) (d : Word) :
    Regs.irqEnWord { r with doneIe := d.getLsbD 0, ovrIe := d.getLsbD 1 } = d &&& 3 := by
  refine BitVec.eq_of_getLsbD_eq fun i hi => ?_
  simp only [Regs.irqEnWord, BitVec.getLsbD_append]
  interval_cases i <;> simp [flag]

theorem Regs.frameLcWord_write (r : Regs) (d : Word) :
    Regs.frameLcWord { r with len := d.extractLsb' 0 8 } = (d &&& 0xFF) ||| (r.frameLcWord &&& 0xFF00) := by
  refine BitVec.eq_of_getLsbD_eq fun i hi => ?_
  simp only [Regs.frameLcWord, BitVec.getLsbD_or, BitVec.getLsbD_and, BitVec.getLsbD_append]
  interval_cases i <;> simp

/-- Settles O30: IDLE, these writes have no cause of a bus error, and each stores its own fields. -/
theorem plainRegisterWritesReadBack : Obligations.PlainRegisterWritesReadBack := by
  unfold Obligations.PlainRegisterWritesReadBack
  refine ⟨fun s d rest h => ?_, fun s d rest hs h => ?_, fun s d rest hs h => ?_, fun s d rest hs h => ?_⟩
  · exact ⟨_, step_register_write_okay (k := 5) (r := .irqEn) rfl h rfl, s.regs.irqEnWord_write d, rfl⟩
  · have hc : regWriteCause s .frameHdr d = none := (regWriteCause_eq_none_iff_of_idle hs rfl d).mpr (by simp)
    exact ⟨_, step_register_write_okay (k := 8) rfl h hc, append_extractLsb'_bytes d, rfl⟩
  · have hc : regWriteCause s .frameLc d = none := (regWriteCause_eq_none_iff_of_idle hs rfl d).mpr (by simp)
    exact ⟨_, step_register_write_okay (k := 9) rfl h hc, s.regs.frameLcWord_write d, rfl⟩
  · have hc : regWriteCause s .syncThr d = none := (regWriteCause_eq_none_iff_of_idle hs rfl d).mpr (by simp)
    exact step_register_write_okay (k := 10) rfl h hc

/-! SYNC_PEAK against SYNC_THR (10_state.md R35). -/

/-- Settles O39: |C(Ls)| is compared with SYNC_THR·2^14, which is to compare |C(Ls)| div 2^14 with SYNC_THR, and
SYNC_PEAK holds that quotient without loss. -/
theorem syncPassesAtThePeakThreshold : Obligations.SyncPassesAtThePeakThreshold := by
  unfold Obligations.SyncPassesAtThePeakThreshold
  intro s hm hl hok hlong
  have ⟨_, hN, _⟩ := hl
  have hpk := demodPeak_div_le hm hN
  have hfits : (BitVec.ofNat 32 ((peak (demodCorrelations s)).2.natAbs / 16384)).toNat =
      (peak (demodCorrelations s)).2.natAbs / 16384 := by
    rw [BitVec.toNat_ofNat, Nat.mod_eq_of_lt (by omega)]
  refine ⟨_, exec_eq .demod s, ?_⟩
  show ((demodBody s).regs.syncOk = true ↔ _ ≤ (demodBody s).regs.syncPeak.toNat) ∧
    (demodBody s).regs.syncPeak.toNat ≤ 2 ^ 26
  rcases demodBody_cases s with ⟨hshort, _⟩ | ⟨_, hbelow, he⟩ | ⟨_, habove, he⟩
  · omega
  · have hpeak : (demodBody s).regs.syncPeak.toNat = (peak (demodCorrelations s)).2.natAbs / 16384 := by
      rw [he]; exact hfits
    have hsync : (demodBody s).regs.syncOk = false := by rw [he]; exact hok
    rw [hpeak, hsync]
    exact ⟨iff_of_false (by simp) (by omega), hpk⟩
  · have hpeak : (demodBody s).regs.syncPeak.toNat = (peak (demodCorrelations s)).2.natAbs / 16384 := by
      rw [he]; exact hfits
    have hsync : (demodBody s).regs.syncOk = true := by rw [he]; rfl
    rw [hpeak, hsync]
    exact ⟨iff_of_true rfl (by omega), hpk⟩

end Sys2Proof.Machine
end

section
/-! The rules about buffer accesses: the windows, the bytes a write stores, the data a read returns, and the step that
makes each access (20_memory.md R60 to R68). -/

namespace Sys2Proof.Machine

/-! The windows (20_memory.md R61). -/

theorem HostOp.inBlockSpace_iff (op : HostOp) : op.inBlockSpace = true ↔ op.addr < 262144 := decide_eq_true_iff

theorem HostOp.inBlockSpace_eq_false_iff (op : HostOp) : op.inBlockSpace = false ↔ 262144 ≤ op.addr :=
  decide_eq_false_iff_not.trans Nat.not_lt

theorem Buffer.pay_holds_iff (a : Nat) : Buffer.pay.holds a = true ↔ 0x100 ≤ a ∧ a < 0x200 := Buffer.holds_iff .pay a

theorem Buffer.bit_holds_iff (a : Nat) : Buffer.bit.holds a = true ↔ 0x200 ≤ a ∧ a < 0x400 := Buffer.holds_iff .bit a

theorem Buffer.samp_holds_iff (a : Nat) : Buffer.samp.holds a = true ↔ 0x20000 ≤ a ∧ a < 0x40000 :=
  Buffer.holds_iff .samp a

theorem exists_holds_iff (a : Nat) :
    (∃ b : Buffer, b.holds a = true) ↔ (0x100 ≤ a ∧ a < 0x400) ∨ (0x20000 ≤ a ∧ a < 0x40000) := by
  constructor
  · rintro ⟨b, hb⟩
    cases b with
    | pay => rw [Buffer.pay_holds_iff] at hb; omega
    | bit => rw [Buffer.bit_holds_iff] at hb; omega
    | samp => rw [Buffer.samp_holds_iff] at hb; omega
  · rintro (⟨hlo, hhi⟩ | hsamp)
    · by_cases hpay : a < 0x200
      · exact ⟨.pay, (Buffer.pay_holds_iff a).mpr ⟨hlo, hpay⟩⟩
      · exact ⟨.bit, (Buffer.bit_holds_iff a).mpr ⟨by omega, hhi⟩⟩
    · exact ⟨.samp, (Buffer.samp_holds_iff a).mpr hsamp⟩

theorem Buffer.lt_blockSpace_of_holds {b : Buffer} {a : Nat} (hb : b.holds a = true) : a < 262144 := by
  have := (exists_holds_iff a).mp ⟨b, hb⟩
  omega

/-! Bytes on the bus (20_memory.md R65). -/

/-- Some bytes and no more: the bits above them are 0. -/
theorem wordOfBytes_lt (bs : List Byte) : (wordOfBytes bs).toNat < 2 ^ (8 * bs.length) := by
  refine Nat.lt_pow_two_of_testBit _ fun k hk => ?_
  rw [BitVec.testBit_toNat]
  by_cases h32 : k < 32
  · have hnone : bs.length ≤ k / 8 := by omega
    simp [wordOfBytes_getLsbD bs k h32, List.getElem?_eq_none hnone]
  · exact BitVec.getLsbD_of_ge _ k (by omega)

/-- The first byte is the least significant one. -/
theorem wordOfBytes_cons_toNat (b : Byte) {bs : List Byte} (h : bs.length ≤ 3) :
    (wordOfBytes (b :: bs)).toNat = b.toNat + 2 ^ 8 * (wordOfBytes bs).toNat := by
  have hb := b.isLt
  have hbs : (wordOfBytes bs).toNat < 2 ^ 24 :=
    (wordOfBytes_lt bs).trans_le (Nat.pow_le_pow_right (by decide) (by omega))
  rw [wordOfBytes, BitVec.toNat_or, BitVec.toNat_shiftLeft, BitVec.toNat_setWidth, Nat.shiftLeft_eq,
    Nat.mod_eq_of_lt (a := _ * _) (by omega), Nat.mod_eq_of_lt (a := b.toNat) (by omega), Nat.mul_comm,
    ← Nat.two_pow_add_eq_or_of_lt hb, Nat.add_comm]

theorem wordOfBytes_range_toNat (f : Nat → Byte) {n : Nat} (hn : n ≤ 4) :
    (wordOfBytes ((List.range n).map f)).toNat = ∑ k ∈ Finset.range n, (f k).toNat * 2 ^ (8 * k) := by
  induction n generalizing f with
  | zero => rfl
  | succ n ih =>
    have htail : (((List.range n).map Nat.succ).map f).length ≤ 3 := by simpa using Nat.le_of_succ_le_succ hn
    rw [List.range_succ_eq_map, List.map_cons, wordOfBytes_cons_toNat _ htail, List.map_map, ih _ (by omega),
      Finset.sum_range_succ', Finset.mul_sum, Nat.add_comm]
    refine congrArg₂ (· + ·) (Finset.sum_congr rfl fun k _ => ?_) (by simp)
    rw [Function.comp_apply, Nat.mul_succ, pow_add]
    ring

theorem wordOfBytes_singleton (b : Byte) : wordOfBytes [b] = b.setWidth 32 := by simp [wordOfBytes]

theorem Size.bytes_le (size : Size) : size.bytes ≤ 4 := by cases size <;> decide

/-- The bytes of an n-byte write, put together again, are the low 8n bits of its data. -/
theorem lowBytes_eq (size : Size) (d : Word) :
    lowBytes size d = BitVec.ofNat 32 (d.toNat % 2 ^ (8 * size.bytes)) := by
  refine BitVec.eq_of_getLsbD_eq fun k hk => ?_
  rw [lowBytes, wordOfBytes_getLsbD _ k hk, BitVec.getLsbD_ofNat, Nat.testBit_mod_two_pow, BitVec.testBit_toNat]
  by_cases hin : k / 8 < size.bytes
  · have h8 : k % 8 < 8 := by omega
    have hk8 : k < 8 * size.bytes := by omega
    rw [List.getElem?_eq_getElem (by rwa [dataBytes_length]), dataBytes_getElem, Option.getD_some]
    simp [hk, hk8, h8, Nat.div_add_mod]
  · have hk8 : ¬ k < 8 * size.bytes := by omega
    rw [List.getElem?_eq_none (by rw [dataBytes_length]; omega)]
    simp [hk8]

/-! What the sequencer lets through. -/

theorem State.runningWriteSet_of_idle {s : State} (hs : s.seq = .idle) : s.runningWriteSet = [] := by
  rw [State.runningWriteSet, hs]

theorem notMem_runningWriteSet {l : Loc} (hl : ∀ i, l ∉ writeSet i) (s : State) : l ∉ s.runningWriteSet := by
  rw [State.runningWriteSet]
  split
  · simp
  · rw [opWriteSet]
    split
    · exact hl _
    · simp

theorem writeCause_buffer_busy {s : State} {size : Size} {a : Nat} {d : Word} {b : Buffer} (hs : s.busy = true)
    (hb : locate a = some (.buf b)) : writeCause s size a d ≠ none := by
  rw [writeCause]
  split
  · simp
  · simp [hb, hs]

theorem writeCause_input_busy {s : State} {size : Size} {a : Nat} {d : Word} {r : RegName} (hs : s.busy = true)
    (hr : locate a = some (.reg r)) (hin : r.input = true) : writeCause s size a d ≠ none := by
  rw [writeCause]
  split
  · simp
  · rw [hr]
    intro hc
    obtain ⟨_, hidle, _⟩ := (regWriteCause_eq_none_iff s r d).mp hc
    simp [hidle hin] at hs

theorem hostWrite_of_cause {s : State} {size : Size} {a : Nat} {d : Word} (h : writeCause s size a d ≠ none) :
    hostWrite s size a d = (.writeError, s) := by
  obtain ⟨e, he⟩ := Option.ne_none_iff_exists'.mp h
  rw [hostWrite, he]

/-! Aligned accesses inside a window. -/

section
variable {b : Buffer} {size : Size} {a : Nat}

theorem accessCause_buffer (hb : b.holds a = true) (hal : a % size.bytes = 0) : accessCause size a = none := by
  simp [accessCause, locate_of_holds hb, hal]

theorem hostRead_buffer (s : State) (hb : b.holds a = true) (hal : a % size.bytes = 0) :
    hostRead s size a =
      if Loc.buf b ∈ s.runningWriteSet then
        (.readOkay (lowBytes size (Config.drawRead s.drawCount)), { s with drawCount := s.drawCount + 1 })
      else (.readOkay (wordOfBytes (s.bytesAt a size.bytes)), s) := by
  rw [hostRead, accessCause_buffer hb hal, locate_of_holds hb]
  rfl

theorem hostRead_buffer_idle {s : State} (hs : s.seq = .idle) (hb : b.holds a = true) (hal : a % size.bytes = 0) :
    (hostRead s size a).1 = .readOkay (wordOfBytes (s.bytesAt a size.bytes)) := by
  rw [hostRead_buffer s hb hal, if_neg (by simp [State.runningWriteSet_of_idle hs])]

/-- A byte read returns the byte. -/
theorem hostRead_byte_idle {s : State} (hm : s.MemWf) (hs : s.seq = .idle) (hb : b.holds a = true) :
    (hostRead s .one a).1 = .readOkay ((s.byteAt a).setWidth 32) := by
  rw [hostRead_buffer_idle (size := .one) hs hb (Nat.mod_one a), State.bytesAt_eq hm]
  exact congrArg Reply.readOkay (wordOfBytes_singleton _)

theorem hostWrite_buffer_idle {s : State} (hs : s.seq = .idle) (hb : b.holds a = true) (hal : a % size.bytes = 0)
    (d : Word) : hostWrite s size a d = (.writeOkay, s.storeBytes a (dataBytes size.bytes d)) := by
  simp [hostWrite, writeCause, accessCause_buffer hb hal, locate_of_holds hb, (busy_eq_false_iff s).mpr hs]

theorem State.memWf_buffer_write {s : State} (hm : s.MemWf) (hb : b.holds a = true) (hal : a % size.bytes = 0)
    (d : Word) : (s.storeBytes a (dataBytes size.bytes d)).MemWf := by
  refine State.memWf_storeBytes hm fun i hi => ?_
  rw [dataBytes_length] at hi
  obtain ⟨hlo, hhi⟩ :=
    (b.holds_iff _).mp (access_inside (accessCause_buffer hb hal) (locate_of_holds hb) i hi)
  exact inBuffers_of_mem hlo hhi

end

/-- A run of bytes just written reads as it was written. -/
theorem State.bytesAt_storeBytes {s : State} {a : Nat} {vs : List Byte} (h : (s.storeBytes a vs).MemWf) :
    (s.storeBytes a vs).bytesAt a vs.length = vs := by
  refine List.ext_getElem (State.bytesAt_length _ _ _) fun i hi hv => ?_
  rw [State.bytesAt_getElem h, State.byteAt_storeBytes, dif_pos (by omega)]
  simp

/-! The steps that make them. -/

section
variable {s : State} {size : Size} {a : Nat} {d : Word} {rest : List HostOp}

/-- Taking the scheduler's choice off does not matter to a read. -/
theorem hostRead_afterTurn (s : State) (size : Size) (a : Nat) :
    hostRead (afterTurn s) size a = ((hostRead s size a).1, afterTurn (hostRead s size a).2) := by
  have hwrites : (afterTurn s).runningWriteSet = s.runningWriteSet := rfl
  rw [hostRead, hostRead, hwrites]
  split
  · split <;> rfl
  · rfl

/-- A read answers, and no more than the draw counter changes (20_memory.md R70). -/
theorem step_read (h : s.HostAbout (.read size a) rest) (ha : a < 262144) :
    step s = .next { s.answered rest (hostRead s size a).1 with drawCount := (hostRead s size a).2.drawCount } := by
  rw [step_of_hostAbout h ((HostOp.inBlockSpace_iff _).mpr ha), hostAccess,
    hostRead_afterTurn]
  obtain ⟨k, hk⟩ := hostRead_state s size a
  rw [hk]
  rfl

/-- A write with a cause of a bus error is refused and changes nothing (60_exceptions.md R190). -/
theorem step_write_refused (h : s.HostAbout (.write size a d) rest) (ha : a < 262144)
    (hc : writeCause s size a d ≠ none) : step s = .next (s.answered rest .writeError) := by
  have hc' : writeCause (afterTurn s) size a d ≠ none := hc
  rw [step_of_hostAbout h ((HostOp.inBlockSpace_iff _).mpr ha), hostAccess, hostWrite_of_cause hc']
  rfl

end

/-- The state after a host write to a buffer that ends OKAY: the answered access, and its bytes stored. -/
def State.stored (s : State) (rest : List HostOp) (size : Size) (a : Nat) (d : Word) : State :=
  (s.answered rest .writeOkay).storeBytes a (dataBytes size.bytes d)

section
variable {s : State} {b : Buffer} {size : Size} {a : Nat} {d : Word} {rest : List HostOp}

theorem step_buffer_write (hs : s.seq = .idle) (hb : b.holds a = true) (hal : a % size.bytes = 0)
    (h : s.HostAbout (.write size a d) rest) : step s = .next (s.stored rest size a d) := by
  have hidle : (afterTurn s).seq = .idle := hs
  rw [step_of_hostAbout h ((HostOp.inBlockSpace_iff _).mpr (Buffer.lt_blockSpace_of_holds hb)), hostAccess,
    hostWrite_buffer_idle hidle hb hal]
  rfl

/-- A buffer write changes nothing but the buffers' bytes. -/
theorem State.stored_frame : s.stored rest size a d =
    { s.answered rest .writeOkay with mem := (s.stored rest size a d).mem } := rfl

theorem State.byteAt_stored {k : Nat} (hk : k < size.bytes) :
    (s.stored rest size a d).byteAt (a + k) = d.extractLsb' (8 * k) 8 := by
  rw [State.stored, State.byteAt_storeBytes, dif_pos (by rw [dataBytes_length]; omega), dataBytes_getElem,
    Nat.add_sub_cancel_left]

theorem State.byteAt_stored_of_out {k : Nat} (hk : k < a ∨ a + size.bytes ≤ k) :
    (s.stored rest size a d).byteAt k = s.byteAt k :=
  State.byteAt_storeBytes_of_out (s.answered rest .writeOkay) (by rwa [dataBytes_length])

theorem State.byteAt_stored_byte : (s.stored rest .one a d).byteAt a = d.extractLsb' 0 8 :=
  State.byteAt_stored (k := 0) Nat.one_pos

theorem State.byteAt_stored_byte_of_ne {k : Nat} (hk : k ≠ a) : (s.stored rest .one a d).byteAt k = s.byteAt k :=
  State.byteAt_stored_of_out (Nat.lt_or_gt_of_ne hk)

theorem State.hostRead_stored (hm : s.MemWf) (hs : s.seq = .idle) (hb : b.holds a = true)
    (hal : a % size.bytes = 0) :
    (hostRead (s.stored rest size a d) size a).1 = .readOkay (lowBytes size d) := by
  have hwf : (s.stored rest size a d).MemWf := State.memWf_buffer_write (s := s.answered rest _) hm hb hal d
  have hidle : (s.stored rest size a d).seq = .idle := hs
  have hbytes : (s.stored rest size a d).bytesAt a size.bytes = dataBytes size.bytes d := by
    have := State.bytesAt_storeBytes hwf
    rwa [dataBytes_length] at this
  rw [hostRead_buffer_idle hidle hb hal, hbytes, lowBytes]

end

end Sys2Proof.Machine
end

section
/-! The host's accesses as steps: where a step stops, what a read answers and leaves alone, and what a write while
BUSY does (20_memory.md R61, R70, R73, R74). -/

namespace Sys2Proof.Machine

/-! Stops (20_memory.md R61; log 7). -/

theorem step_of_outside {s : State} {op : HostOp} {rest : List HostOp} (h : s.HostAbout op rest)
    (hout : 262144 ≤ op.addr) : step s = .fault (.outsideBlockSpace op.addr) := by
  obtain ⟨ht, hr, hh⟩ := h
  simp [step, nextMove, ht, moveOf, hostMove, hh, hr, (HostOp.inBlockSpace_eq_false_iff op).mpr hout]

/-- A step goes on, or the host names an offset outside the block space. -/
theorem step_next_or_outside (s : State) :
    (∃ t, step s = .next t) ∨ ∃ op rest, s.HostAbout op rest ∧ 262144 ≤ op.addr := by
  rcases step_cases s with ⟨_, _, he⟩ | ⟨_, i, _, _, _, he⟩ | ⟨_, _, _, _, _, he⟩ | ⟨_, _, he⟩ |
    ⟨_, _, _, _, _, _, he⟩ | ⟨op, rest, ht, hh, hr, hout, _⟩ | ⟨_, he⟩ | ⟨_, he⟩
  · exact .inl ⟨_, he⟩
  · exact .inl (he ▸ exec_next i _)
  · exact .inl ⟨_, he⟩
  · exact .inl ⟨_, he⟩
  · exact .inl ⟨_, he⟩
  · exact .inr ⟨op, rest, ⟨ht, hr, hh⟩, (HostOp.inBlockSpace_eq_false_iff op).mp hout⟩
  · exact .inl ⟨_, he⟩
  · exact .inl ⟨_, he⟩

/-- Settles O9: a step that does not go on is a host access outside the block space. -/
theorem stepStopsOnlyOutsideBlockSpace : Obligations.StepStopsOnlyOutsideBlockSpace := by
  unfold Obligations.StepStopsOnlyOutsideBlockSpace
  intro s
  rcases step_next_or_outside s with ⟨t, ht⟩ | ⟨op, rest, h, hout⟩
  · refine ⟨by simp [ht], fun a => ⟨by simp [ht], ?_⟩⟩
    rintro ⟨op, rest, h, rfl, hout⟩
    exact step_of_outside h hout
  · have hstep := step_of_outside h hout
    refine ⟨by simp [hstep], fun a => ⟨fun ha => ?_, ?_⟩⟩
    · rw [hstep, Host.Outcome.fault.injEq, Fault.outsideBlockSpace.injEq] at ha
      exact ⟨op, rest, h, ha, ha ▸ hout⟩
    · rintro ⟨op, rest, h, rfl, hout⟩
      exact step_of_outside h hout

/-! Reads (20_memory.md R65, R70, R73). -/

/-- Settles O19: the answered state has the block's registers, sequencer, buffers and draws. -/
theorem readsChangeNoBlockState : Obligations.ReadsChangeNoBlockState := by
  unfold Obligations.ReadsChangeNoBlockState
  intro s size a rest h ha
  refine ⟨_, step_read h ha, ⟨_, rfl⟩, rfl, fun r => ?_⟩
  cases r <;> rfl

theorem step_register_read {s : State} {k : Nat} {r : RegName} {rest : List HostOp} (hk : registers[k]? = some r)
    (h : s.HostAbout (.read .four (4 * k)) rest) :
    step s = .next (if Loc.reg r ∈ s.runningWriteSet then
      { s.answered rest (.readOkay (Config.drawRead s.drawCount &&& r.fields)) with drawCount := s.drawCount + 1 }
      else s.answered rest (.readOkay (s.readReg r))) := by
  have hlt := lt_of_registers hk
  rw [step_read h (by omega), hostRead_register s hk]
  split <;> rfl

theorem step_buffer_read {s : State} {b : Buffer} {size : Size} {a : Nat} {rest : List HostOp}
    (hb : b.holds a = true) (hal : a % size.bytes = 0) (h : s.HostAbout (.read size a) rest) :
    step s = .next (if Loc.buf b ∈ s.runningWriteSet then
      { s.answered rest (.readOkay (lowBytes size (Config.drawRead s.drawCount))) with drawCount := s.drawCount + 1 }
      else s.answered rest (.readOkay (wordOfBytes (s.bytesAt a size.bytes)))) := by
  rw [step_read h (Buffer.lt_blockSpace_of_holds hb), hostRead_buffer s hb hal]
  split <;> rfl

/-- Settles O20: an access without a cause of a bus error is a draw in the write set and a current value elsewhere,
and the bytes of a run are the digits of its word to the base 256. -/
theorem readsAreExactOutsideTheWriteSet : Obligations.ReadsAreExactOutsideTheWriteSet := by
  unfold Obligations.ReadsAreExactOutsideTheWriteSet
  constructor
  · intro s r k rest hk h
    have hstep := step_register_read hk h
    split
    next hmem => rw [hstep, if_pos hmem]
    next hmem => rw [hstep, if_neg hmem]
  · intro s b size a rest hm hb hal h
    have hstep := step_buffer_read hb hal h
    split
    next hmem => rw [hstep, if_pos hmem]
    next hmem =>
      refine ⟨_, by rw [hstep, if_neg hmem], ?_⟩
      rw [State.bytesAt_eq hm, wordOfBytes_range_toNat _ size.bytes_le]

/-! BUSY (20_memory.md R73, R74). -/

/-- With the flags acceptance leaves, STATUS holds BUSY and OVR only. -/
theorem Regs.statusWord_of_flagsClear {r : Regs} (h : r.FlagsClear) :
    r.statusWord true = if r.ovr then 0x21 else 0x1 := by
  obtain ⟨hdone, herr, hsync, hneg, hovf, hframe, hck⟩ := h
  rw [Regs.statusWord, hdone, herr, hsync, hneg, hovf, hframe, hck]
  cases r.ovr <;> rfl

/-- Settles O21: STATUS is in no write set, and the invariant keeps the other flags clear. -/
theorem statusWhileBusyIsExact : Obligations.StatusWhileBusyIsExact := by
  unfold Obligations.StatusWhileBusyIsExact
  intro s rest hinv hbusy h
  obtain ⟨_, _, hclear, _⟩ := hinv
  have hmem : Loc.reg .status ∉ s.runningWriteSet :=
    notMem_runningWriteSet (fun i => by cases i <;> decide) s
  rw [step_register_read (k := 4) (r := .status) rfl h, if_neg hmem, State.readReg, hbusy,
    Regs.statusWord_of_flagsClear (hclear hbusy)]

/-- Settles O22: while BUSY a write to an input register or to a buffer has a cause of a bus error, of whatever size
and alignment it is. -/
theorem busyInputWritesRefused : Obligations.BusyInputWritesRefused := by
  unfold Obligations.BusyInputWritesRefused
  intro s size a d rest hbusy h ha hwhere
  refine step_write_refused h ha ?_
  have hbuffer (hwin : (0x100 ≤ a ∧ a < 0x400) ∨ (0x20000 ≤ a ∧ a < 0x40000)) : writeCause s size a d ≠ none := by
    obtain ⟨b, hb⟩ := (exists_holds_iff a).mpr hwin
    exact writeCause_buffer_busy hbusy (locate_of_holds hb)
  rcases hwhere with rfl | rfl | rfl | rfl | rfl | rfl | hlow | hsamp
  · exact writeCause_input_busy (r := .cfg) hbusy rfl rfl
  · exact writeCause_input_busy (r := .bitlen) hbusy rfl rfl
  · exact writeCause_input_busy (r := .samplen) hbusy rfl rfl
  · exact writeCause_input_busy (r := .frameHdr) hbusy rfl rfl
  · exact writeCause_input_busy (r := .frameLc) hbusy rfl rfl
  · exact writeCause_input_busy (r := .syncThr) hbusy rfl rfl
  · exact hbuffer (by omega)
  · exact hbuffer (by omega)

end Sys2Proof.Machine
end

section
/-! What a buffer write stores, in the operand views: bytes, bits, samples and payload bytes (20_memory.md R63 to
R68). -/

namespace Sys2Proof.Machine

/-- Settles O23: the read's run of bytes is the run that was written. -/
theorem bufferReadAfterWrite : Obligations.BufferReadAfterWrite := by
  unfold Obligations.BufferReadAfterWrite
  intro s size a d rest hm hs h hal hwin
  obtain ⟨b, hb⟩ := (exists_holds_iff a).mpr hwin
  refine ⟨_, step_buffer_write hs hb hal h, State.stored_frame, ?_, fun k hk => ?_,
    fun k hk => State.byteAt_stored_of_out hk⟩
  · rw [State.hostRead_stored hm hs hb hal, lowBytes_eq]
  · rw [State.byteAt_stored hk, BitVec.extractLsb', Nat.shiftRight_eq_div_pow]

/-! Bits (20_memory.md R67). -/

theorem State.bit_of_bitByte (s : State) (i : Nat) {k : Nat} (hk : k < 8) :
    s.bit (8 * i + k) = (s.bitByte i).getLsbD (7 - k) := by
  have hdiv : (8 * i + k) / 8 = i := by omega
  have hmod : (8 * i + k) % 8 = k := by omega
  rw [State.bit, hdiv, hmod]

/-- Byte(i) is its eight bits, bit 7 first. -/
theorem msb8_bitByte (s : State) (i : Nat) : msb8 (s.bitByte i) = (List.range 8).map fun k => s.bit (8 * i + k) := by
  refine List.ext_getElem (by simp) fun k hk _ => ?_
  rw [msb8_getElem, List.getElem_map, List.getElem_range, s.bit_of_bitByte i hk]

theorem State.bit_congr {s t : State} {j : Nat} (h : t.byteAt (0x200 + j / 8) = s.byteAt (0x200 + j / 8)) :
    t.bit j = s.bit j := by
  rw [State.bit, State.bit, State.bitByte, State.bitByte, h]

/-- Settles O24: Bit(8i+k) is a bit of the byte at 0x200 + i, and every other bit one of another byte. -/
theorem bitBufferByteMapping : Obligations.BitBufferByteMapping := by
  unfold Obligations.BitBufferByteMapping
  intro s i d rest hm hs hi
  have hb : Buffer.bit.holds (0x200 + i) = true := (Buffer.bit_holds_iff _).mpr (by omega)
  refine ⟨hostRead_byte_idle hm hs hb, ?_, fun h => ⟨_, step_buffer_write hs hb (Nat.mod_one _) h,
    State.stored_frame, fun k hk => ?_, fun j hj => ?_, fun a ha => ?_⟩⟩
  · rw [← msb8_bitByte, byteOfBits_msb8]
  · have hlow : 7 - k < 8 := by omega
    rw [State.bit_of_bitByte _ i hk, State.bitByte, State.byteAt_stored_byte]
    simp [hlow]
  · exact State.bit_congr (State.byteAt_stored_byte_of_ne (by omega))
  · exact State.byteAt_stored_byte_of_ne ha

/-! Samples (20_memory.md R68). -/

theorem patternOf_extractLsb' (d : Word) (start : Nat) :
    patternOf (d.extractLsb' start 8) (d.extractLsb' (start + 8) 8) = d.extractLsb' start 16 := by
  refine BitVec.eq_of_getLsbD_eq fun i hi => ?_
  rw [patternOf, BitVec.getLsbD_append]
  by_cases hlow : i < 8
  · simp [hlow, hi]
  · have hhigh : i - 8 < 8 := by omega
    have hsum : start + 8 + (i - 8) = start + i := by omega
    simp [hlow, hi, hhigh, hsum]

section
variable {s : State} {size : Size} {a : Nat} {d : Word} {rest : List HostOp}

/-- A write that covers both bytes of a sample moves its whole pattern. -/
theorem State.samp_stored {j k : Nat} (ha : 0x20000 + 2 * j = a + k) (hk : k + 2 ≤ size.bytes) :
    (s.stored rest size a d).samp j = (d.extractLsb' (8 * k) 16).toInt := by
  rw [State.samp, Nat.add_assoc, ← Nat.add_assoc, ha, State.byteAt_stored (by omega), Nat.add_assoc,
    State.byteAt_stored (by omega), Nat.mul_succ, patternOf_extractLsb']

theorem State.samp_stored_of_out {j : Nat} (h : 0x20000 + 2 * j + 2 ≤ a ∨ a + size.bytes ≤ 0x20000 + 2 * j) :
    (s.stored rest size a d).samp j = s.samp j := by
  rw [State.samp, State.byteAt_stored_of_out (by omega), State.byteAt_stored_of_out (by omega), State.samp]

end

/-- Settles O25: a sample is its two bytes, of which a write stores both, one, or none. -/
theorem sampleBufferMapping : Obligations.SampleBufferMapping := by
  unfold Obligations.SampleBufferMapping
  refine ⟨fun s j d rest hs hj h => ?_, fun s m d rest hs hm h => ?_, fun s j high d rest hs hj h => ?_⟩
  · have hb : Buffer.samp.holds (0x20000 + 2 * j) = true := (Buffer.samp_holds_iff _).mpr (by omega)
    exact ⟨_, step_buffer_write hs hb (by simp only [Size.bytes]; omega) h, State.stored_frame,
      State.samp_stored (k := 0) rfl le_rfl,
      fun k hk => State.samp_stored_of_out (by simp only [Size.bytes]; omega)⟩
  · have hb : Buffer.samp.holds (0x20000 + 4 * m) = true := (Buffer.samp_holds_iff _).mpr (by omega)
    exact ⟨_, step_buffer_write hs hb (by simp only [Size.bytes]; omega) h, State.stored_frame,
      State.samp_stored (k := 0) (by omega) (by decide), State.samp_stored (k := 2) (by omega) le_rfl,
      fun k hk => State.samp_stored_of_out (by simp only [Size.bytes]; omega)⟩
  · have hhigh := high.toNat_lt
    have hb : Buffer.samp.holds (0x20000 + 2 * j + high.toNat) = true := (Buffer.samp_holds_iff _).mpr (by omega)
    refine ⟨_, step_buffer_write hs hb (Nat.mod_one _) h, State.stored_frame, ?_,
      fun k hk => State.samp_stored_of_out (by simp only [Size.bytes]; omega)⟩
    cases high with
    | false =>
      rw [State.samp, Bool.toNat_false, Nat.add_zero, State.byteAt_stored_byte,
        State.byteAt_stored_byte_of_ne (by omega)]
      rfl
    | true =>
      rw [State.samp, Bool.toNat_true, State.byteAt_stored_byte, State.byteAt_stored_byte_of_ne (by omega)]
      rfl

/-- Settles O26: Pay(k) is the byte at 0x100 + k. -/
theorem payloadByteMapping : Obligations.PayloadByteMapping := by
  unfold Obligations.PayloadByteMapping
  intro s k d rest hm hs hk
  have hb : Buffer.pay.holds (0x100 + k) = true := (Buffer.pay_holds_iff _).mpr (by omega)
  refine ⟨hostRead_byte_idle hm hs hb, fun h => ⟨_, step_buffer_write hs hb (Nat.mod_one _) h, State.stored_frame,
    State.byteAt_stored_byte, fun j hj => ?_, fun a ha => State.byteAt_stored_byte_of_ne ha⟩⟩
  exact State.byteAt_stored_byte_of_ne (by omega)

end Sys2Proof.Machine
end

section
/-! What decoding reads: the rows of the opcode table against OP, and the words and bytes that carry one
(30_encoding.md R90 to R93). -/

namespace Sys2Proof

/-! The opcode table (30_encoding.md R91, R92). -/

/-- The facts proved for each command in Laws/PerInstr.lean, gathered (30_encoding.md R90 to R92). -/
theorem Laws.Encoding.statement_all (i : Instr) : Laws.Encoding.Statement i := by
  cases i with
  | nop => exact Laws.Encoding.nop
  | mod => exact Laws.Encoding.mod
  | demod => exact Laws.Encoding.demod
  | ser => exact Laws.Encoding.ser
  | parse => exact Laws.Encoding.parse
  | cksum => exact Laws.Encoding.cksum
  | ckchk => exact Laws.Encoding.ckchk
  | tx => exact Laws.Encoding.tx
  | rx => exact Laws.Encoding.rx

theorem decode_encode (i : Instr) : decode (encode i) = .ok i := by
  obtain ⟨_, hdecode, _⟩ := Laws.Encoding.statement_all i
  exact hdecode

/-- No two commands share an OP: a command is what its own word decodes to. -/
theorem opcode_injective : Function.Injective Machine.opcode := by
  intro i j h
  have hword : encode i = encode j := congrArg (BitVec.setWidth 32) h
  exact Except.ok.inj (by rw [← decode_encode i, hword, decode_encode j])

theorem opcodeTable_row : ∀ row ∈ opcodeTable, row.mask = 0xFF ∧ row.bits = encode row.instr := by decide

theorem exists_opcodeTable_row (i : Instr) : ∃ row ∈ opcodeTable, row.instr = i := by
  cases i <;> decide

/-! OP of a word (30_encoding.md R90). -/

theorem and_lowByte_eq_setWidth_iff (w : Word) (op : BitVec 8) :
    w &&& 0xFF = op.setWidth 32 ↔ w.extractLsb' 0 8 = op := by
  have hmask : w &&& 0xFF = (w.extractLsb' 0 8).setWidth 32 := (Machine.setWidth_extractLsb' 8 w).symm
  rw [hmask]
  refine ⟨fun h => ?_, fun h => h ▸ rfl⟩
  simpa using congrArg (BitVec.setWidth 8) h

/-- A row of the table takes a word exactly when the word's OP is the row's. -/
theorem opcodeTable_matches_iff {row : OpRow} (hrow : row ∈ opcodeTable) (w : Word) :
    (w &&& row.mask == row.bits) = true ↔ w.extractLsb' 0 8 = Machine.opcode row.instr := by
  obtain ⟨hmask, hbits⟩ := opcodeTable_row row hrow
  rw [beq_iff_eq, hmask, hbits, encode, and_lowByte_eq_setWidth_iff]

/-- Decoding reads OP and nothing else. -/
theorem decode_eq_ok_iff (w : Word) (i : Instr) : decode w = .ok i ↔ w.extractLsb' 0 8 = Machine.opcode i := by
  rw [decode]
  split
  next row hfind =>
    have hmatch := List.find?_some hfind
    have hop := (opcodeTable_matches_iff (List.mem_of_find?_eq_some hfind) w).mp hmatch
    rw [hop, Except.ok.injEq, opcode_injective.eq_iff]
  next hfind =>
    refine ⟨nofun, fun hop => ?_⟩
    obtain ⟨row, hrow, rfl⟩ := exists_opcodeTable_row i
    exact absurd ((opcodeTable_matches_iff hrow w).mpr hop) (List.find?_eq_none.mp hfind row hrow)

/-- A word is rejected when its OP is no command's (30_encoding.md R93). -/
theorem exists_decode_eq_error_iff (w : Word) :
    (∃ r, decode w = .error r) ↔ ∀ i, w.extractLsb' 0 8 ≠ Machine.opcode i := by
  simp only [ne_eq, ← decode_eq_ok_iff]
  cases decode w with
  | ok i => simp
  | error r => simp

theorem decodeOp_opcode (i : Instr) : decodeOp (Machine.opcode i) = .ok i := decode_encode i

/-! Words and bytes of a command (30_encoding.md R90, 20_memory.md R65). -/

theorem extractLsb'_encodeWith (ignored : BitVec 24) (i : Instr) :
    (encodeWith ignored i).extractLsb' 0 8 = Machine.opcode i := BitVec.extractLsb'_append_eq_right

theorem extractLsb'_encode (i : Instr) : (encode i).extractLsb' 0 8 = Machine.opcode i :=
  (decode_eq_ok_iff _ i).mp (decode_encode i)

theorem decode_encodeWith (ignored : BitVec 24) (i : Instr) : decode (encodeWith ignored i) = .ok i :=
  (decode_eq_ok_iff _ i).mpr (extractLsb'_encodeWith ignored i)

/-- The bytes of a word, in the bus's order, are the word again. -/
theorem decodeBytes_wordBytes (w : Word) : decodeBytes (wordBytes w) = decode w := by
  rw [wordBytes, decodeBytes, Machine.append_extractLsb'_bytes]

/-- Settles O1: a row of the table matches on OP alone, and every OP has one row. -/
theorem decodeReadsExactlyTheOpByte : Obligations.DecodeReadsExactlyTheOpByte := by
  unfold Obligations.DecodeReadsExactlyTheOpByte
  refine ⟨decode_eq_ok_iff, fun i ignored _ => ⟨decode_encodeWith ignored i, ?_⟩⟩
  rw [decodeBytes_wordBytes, decode_encodeWith]

/-- The values of R92 leave the four ranges of R93. -/
theorem ne_opcode_iff_illegal {n : Nat} (hn : n < 256) :
    (∀ i, n ≠ (Machine.opcode i).toNat) ↔
      (0x03 ≤ n ∧ n ≤ 0x0F) ∨ (0x12 ≤ n ∧ n ≤ 0x1F) ∨ (0x22 ≤ n ∧ n ≤ 0x2F) ∨ 0x32 ≤ n := by
  constructor
  · intro h
    have hnop : n ≠ 0x00 := h .nop
    have hmod : n ≠ 0x01 := h .mod
    have hdemod : n ≠ 0x02 := h .demod
    have hser : n ≠ 0x10 := h .ser
    have hparse : n ≠ 0x11 := h .parse
    have hcksum : n ≠ 0x20 := h .cksum
    have hckchk : n ≠ 0x21 := h .ckchk
    have htx : n ≠ 0x30 := h .tx
    have hrx : n ≠ 0x31 := h .rx
    omega
  · intro h i
    cases i <;> simp only [Machine.opcode, BitVec.reduceToNat] <;> omega

/-- Settles O2: a rejected word's OP is none of the nine values. -/
theorem illegalOpcodesAreTheOtherValues : Obligations.IllegalOpcodesAreTheOtherValues := by
  unfold Obligations.IllegalOpcodesAreTheOtherValues
  intro w
  have hop : (w.extractLsb' 0 8).toNat = w.toNat % 256 := by simp
  rw [exists_decode_eq_error_iff, ← hop, ← ne_opcode_iff_illegal (w.extractLsb' 0 8).isLt]
  simp only [ne_eq, BitVec.toNat_inj]

/-- Settles O3: the low byte of each word is the OP of its command. -/
theorem sampleCommandWordsDecode : Obligations.SampleCommandWordsDecode := by
  unfold Obligations.SampleCommandWordsDecode
  simp only [decode_eq_ok_iff]
  decide

end Sys2Proof
end

section
/-! RUN as steps: the CMD write accepted, the command completed, STATUS polled (30_encoding.md R102, R103). -/

namespace Sys2Proof.Machine

/-! Polls (30_encoding.md R102; log 15). -/

/-- A POLL makes one read, and is done when the read's data matches. -/
theorem step_poll {s : State} {a : Nat} {mask value : Word} {rest : List HostOp}
    (h : s.HostAbout (.poll a mask value) rest) (ha : a < 262144) :
    step s = .next { s.answered (if (hostRead s .four a).1.data &&& mask = value then rest else s.host)
      (hostRead s .four a).1 with drawCount := (hostRead s .four a).2.drawCount } := by
  rw [step_of_hostAbout h ((HostOp.inBlockSpace_iff _).mpr ha), hostAccess, hostRead_afterTurn]
  obtain ⟨_, _, hhost⟩ := h
  obtain ⟨k, hk⟩ := hostRead_state s .four a
  rw [hk, hhost]
  rfl

/-- Settles O56: the step of a POLL, with the read's own draw counter. -/
theorem pollRepeatsUntilMatched : Obligations.PollRepeatsUntilMatched := by
  unfold Obligations.PollRepeatsUntilMatched
  intro s a mask value rest h ha
  exact ⟨_, _, rfl, step_poll h ha⟩

/-- Bit 0 of STATUS is BUSY (10_state.md R26). -/
theorem Regs.statusWord_and_one (r : Regs) (busy : Bool) :
    r.statusWord busy &&& 1 = (flag busy).setWidth 32 := by
  have hmask : r.statusWord busy &&& 1 = ((r.statusWord busy).extractLsb' 0 1).setWidth 32 :=
    (setWidth_extractLsb' 1 _).symm
  rw [hmask, Regs.statusWord, BitVec.extractLsb'_append_eq_right]

/-- Polled while IDLE, STATUS has BUSY = 0, so the first read ends the POLL. -/
theorem step_status_poll_idle {s : State} {rest : List HostOp} (hs : s.seq = .idle)
    (h : s.HostAbout (.poll 0x010 1 0) rest) :
    step s = .next (s.answered rest (.readOkay (s.readReg .status))) := by
  have hread : hostRead s .four 0x010 = (.readOkay (s.readReg .status), s) := by
    rw [hostRead_register (k := 4) (r := .status) s rfl, if_neg (by simp [State.runningWriteSet_of_idle hs])]
  have hbusy : s.readReg .status &&& 1 = 0 := by
    rw [State.readReg, (busy_eq_false_iff s).mpr hs, Regs.statusWord_and_one]
    rfl
  rw [step_poll h (by decide), hread, Reply.data, if_pos hbusy]
  rfl

/-! Acceptance and completion (43_sequencing.md R170, R172). -/

/-- With no choice left to the scheduler, a BUSY block completes its command and an IDLE one waits for the host
(43_sequencing.md R180; log 4). -/
theorem turnOf_of_turns_nil {s : State} (h : s.turns = []) :
    turnOf s = if s.busy then .sequencer else .host := by
  rw [turnOf, h]

theorem turnOf_idle {s : State} (h : s.turns = []) (hs : s.seq = .idle) : turnOf s = .host := by
  rw [turnOf_of_turns_nil h, (busy_eq_false_iff s).mpr hs]
  rfl

theorem turnOf_busy {s : State} {op : BitVec 8} (h : s.turns = []) (hs : s.seq = .busy op) :
    turnOf s = .sequencer := by
  have hb : s.busy = true := by simp [State.busy, hs]
  rw [turnOf_of_turns_nil h, if_pos hb]

/-- A CMD write to an IDLE block is accepted. -/
theorem step_command_write_idle {s : State} {d : Word} {rest : List HostOp} (hs : s.seq = .idle)
    (h : s.HostAbout (.write .four 0x00C d) rest) :
    step s = .next ((s.answered rest .writeOkay).accept (d.extractLsb' 0 8)) := by
  have hidle : (afterTurn s).seq = .idle := hs
  rw [step_register_write_okay (k := 3) (r := .cmd) rfl h
    ((regWriteCause_eq_none_iff_of_idle hs rfl d).mpr (by simp)), State.writeReg, State.writeCmd, hidle]
  rfl

/-- The sequencer's turn runs the command that OP decodes to. -/
theorem step_sequencer_command {s : State} {op : BitVec 8} {i : Instr} (ht : turnOf s = .sequencer)
    (hs : s.seq = .busy op) (hd : decodeOp op = .ok i) : step s = exec i (afterTurn s) := by
  simp [step, nextMove, ht, moveOf, sequencerMove, hs, hd, afterTurn]

/-- A completed command leaves the block IDLE, and the pins, the environment and the draws as they were. -/
theorem exec_frame {i : Instr} {s t : State} (h : exec i s = .next t) :
    t = { s with seq := .idle, regs := t.regs, mem := t.mem } := by
  have hsame := bodyOf_sameOutside i s
  rw [exec_eq, Host.Outcome.next.injEq] at h
  rw [← h, complete, State.finish, hsame]

/-! RUN (30_encoding.md R103). -/

theorem run_succ_of_step {s t : State} (h : step s = .next t) (k : Nat) :
    Sys2Proof.core.run (k + 1) s = Sys2Proof.core.run k t := by
  have hcore : Sys2Proof.core.step s = .next t := h
  simp only [Host.Core.run, hcore]

theorem afterTurn_of_turns_nil {s : State} (h : s.turns = []) : afterTurn s = s := by
  rw [afterTurn, h, List.tail_nil, ← h]

theorem State.answered_of_turns_nil {s : State} (h : s.turns = []) (rest : List HostOp) (r : Reply) :
    s.answered rest r = { s with host := rest, reply := some r } :=
  congrArg (fun t : State => { t with host := rest, reply := some r }) (afterTurn_of_turns_nil h)

/-- With STATUS polled next, a running command completes and the POLL's first read ends it. -/
theorem run_two_of_busy {s : State} {i : Instr} {rest : List HostOp} (hs : s.seq = .busy (opcode i))
    (hrst : s.rstN = true) (hturns : s.turns = []) (hhost : s.host = .poll 0x010 1 0 :: rest) :
    ∃ u, exec i s = .next u ∧
      Sys2Proof.core.run 2 s = .next { u with host := rest, reply := some (.readOkay (u.readReg .status)) } := by
  obtain ⟨u, hu⟩ := exec_next i s
  have hcompleted : step s = .next u := by
    rw [step_sequencer_command (turnOf_busy hturns hs) hs (decodeOp_opcode i), afterTurn_of_turns_nil hturns, hu]
  have hframe := exec_frame hu
  have huidle : u.seq = .idle := congrArg State.seq hframe
  have huturns : u.turns = [] := (congrArg State.turns hframe).trans hturns
  have hpolled := step_status_poll_idle huidle
    ⟨turnOf_idle huturns huidle, (congrArg State.rstN hframe).trans hrst, (congrArg State.host hframe).trans hhost⟩
  refine ⟨u, hu, ?_⟩
  rw [run_succ_of_step hcompleted, run_succ_of_step hpolled, State.answered_of_turns_nil huturns]
  rfl

/-- Settles O57: an idle block accepts the CMD write, and then completes the command and ends the POLL. -/
theorem runCompletesTheCommand : Obligations.RunCompletesTheCommand := by
  unfold Obligations.RunCompletesTheCommand
  intro s i rest hidle hrst hturns hhost
  have haccepted := step_command_write_idle hidle ⟨turnOf_idle hturns hidle, hrst, hhost⟩
  rw [← encode, extractLsb'_encode] at haccepted
  rw [run_succ_of_step haccepted]
  exact run_two_of_busy rfl hrst (congrArg List.tail hturns) rfl

end Sys2Proof.Machine
end

section
/-! The carrier tables against real sine and cosine: how far the model's Taylor polynomials are from the exact values,
that no entry is that close to a rounding tie, and which entries are 0 (40_modem.md R111, R112, R128, 93 K1; log 10). -/

namespace Sys2Proof.Machine

/-! The polynomials and the exact values. -/

/-- The polynomial of `sinNum`. -/
noncomputable def sinTaylor (x : ℝ) : ℝ :=
  x - x ^ 3 / 6 + x ^ 5 / 120 - x ^ 7 / 5040 + x ^ 9 / 362880 - x ^ 11 / 39916800

/-- The polynomial of `cosNum`. -/
noncomputable def cosTaylor (x : ℝ) : ℝ :=
  1 - x ^ 2 / 2 + x ^ 4 / 24 - x ^ 6 / 720 + x ^ 8 / 40320 - x ^ 10 / 3628800 + x ^ 12 / 479001600

theorem sinDen_pos {b : ℤ} (hb : 0 < b) : 0 < sinDen b := by
  rw [sinDen]
  positivity

theorem cosDen_pos {b : ℤ} (hb : 0 < b) : 0 < cosDen b := by
  rw [cosDen]
  positivity

theorem sinNum_div_sinDen (a : ℤ) {b : ℤ} (hb : 0 < b) : (sinNum a b : ℝ) / sinDen b = sinTaylor (a / b) := by
  have hb' : (b : ℝ) ≠ 0 := by exact_mod_cast hb.ne'
  simp only [sinNum, sinDen, sinTaylor]
  push_cast
  field_simp
  ring

theorem cosNum_div_cosDen (a : ℤ) {b : ℤ} (hb : 0 < b) : (cosNum a b : ℝ) / cosDen b = cosTaylor (a / b) := by
  have hb' : (b : ℝ) ≠ 0 := by exact_mod_cast hb.ne'
  simp only [cosNum, cosDen, cosTaylor]
  push_cast
  field_simp
  ring

/-- The terms of exp(x·i) up to degree 12. -/
theorem sum_exp_terms_mul_I (x : ℝ) :
    ∑ m ∈ Finset.range 13, (x * Complex.I) ^ m / (m.factorial : ℂ) = cosTaylor x + sinTaylor x * Complex.I := by
  have hperiod (k : ℕ) : Complex.I ^ (k + 4) = Complex.I ^ k := by rw [pow_add, Complex.I_pow_four, mul_one]
  simp only [Finset.sum_range_succ, Finset.sum_range_zero, mul_pow, hperiod, Complex.I_sq, Complex.I_pow_three,
    pow_zero, pow_one, Nat.factorial, cosTaylor, sinTaylor]
  push_cast
  ring

section
variable {x : ℝ} (h0 : 0 ≤ x) (h1 : x ≤ 4 / 5)
include h0 h1

theorem norm_exp_mul_I_sub_taylor_le :
    ‖Complex.exp (x * Complex.I) - (cosTaylor x + sinTaylor x * Complex.I)‖ ≤ 1 / 10 ^ 10 := by
  have hnorm : ‖(x : ℂ) * Complex.I‖ = x := by simp [abs_of_nonneg h0]
  have hterms := Complex.exp_bound (x := x * Complex.I) (by rw [hnorm]; linarith) (n := 13) (by norm_num)
  rw [sum_exp_terms_mul_I, hnorm] at hterms
  have hpow : x ^ 13 ≤ (4 / 5) ^ 13 := pow_le_pow_left₀ h0 h1 13
  refine hterms.trans ?_
  norm_num [Nat.factorial] at hpow ⊢
  linarith

theorem abs_sin_sub_sinTaylor_le : |Real.sin x - sinTaylor x| ≤ 1 / 10 ^ 10 := by
  refine le_trans ?_ (norm_exp_mul_I_sub_taylor_le h0 h1)
  simpa [Complex.exp_ofReal_mul_I_im] using
    Complex.abs_im_le_norm (Complex.exp (x * Complex.I) - (cosTaylor x + sinTaylor x * Complex.I))

theorem abs_cos_sub_cosTaylor_le : |Real.cos x - cosTaylor x| ≤ 1 / 10 ^ 10 := by
  refine le_trans ?_ (norm_exp_mul_I_sub_taylor_le h0 h1)
  simpa [Complex.exp_ofReal_mul_I_re] using
    Complex.abs_re_le_norm (Complex.exp (x * Complex.I) - (cosTaylor x + sinTaylor x * Complex.I))

end

/-- π/2·r/D, the angle that `angleNum r` over `angleDen D` stands for. -/
noncomputable def quarterAngle (r D : ℕ) : ℝ := Real.pi / 2 * (r / D)

/-- The 20 decimals of π are enough. -/
theorem abs_quarterAngle_sub_le {r D : ℕ} (hD : 0 < D) (h : r ≤ D) :
    |quarterAngle r D - angleNum r / angleDen D| ≤ 1 / 10 ^ 10 := by
  have hDpos : (0 : ℝ) < D := by exact_mod_cast hD
  have hlo := Real.pi_gt_d20
  have hhi := Real.pi_lt_d20
  have hratio0 : (0 : ℝ) ≤ r / D := by positivity
  have hratio1 : (r : ℝ) / D ≤ 1 := (div_le_one hDpos).mpr (by exact_mod_cast h)
  have hdiff : quarterAngle r D - angleNum r / angleDen D =
      (Real.pi - 3.14159265358979323846) / 2 * (r / D) := by
    simp only [quarterAngle, angleNum, angleDen, piScaled]
    push_cast
    field_simp
    ring
  rw [hdiff, abs_of_nonneg (mul_nonneg (by linarith) hratio0)]
  calc (Real.pi - 3.14159265358979323846) / 2 * (r / D)
      ≤ (Real.pi - 3.14159265358979323846) / 2 * 1 := mul_le_mul_of_nonneg_left hratio1 (by linarith)
    _ ≤ 1 / 10 ^ 10 := by norm_num at hhi ⊢; linarith

theorem abs_sub_le_of_near {f : ℝ → ℝ} {x y t ε : ℝ} (hf : |f x - f y| ≤ |x - y|) (hxy : |x - y| ≤ ε)
    (ht : |f y - t| ≤ ε) : |f x - t| ≤ 2 * ε := by
  have htriangle := abs_sub_le (f x) (f y) t
  linarith

section
variable {r D : ℕ} (hD : 0 < D) (h : 2 * r ≤ D)
include hD h

/-- The angles of `sinPart` and `cosPart` lie between 0 and π/4. -/
theorem angle_ratio_mem : (0 : ℝ) ≤ (angleNum r : ℝ) / angleDen D ∧ (angleNum r : ℝ) / angleDen D ≤ 4 / 5 := by
  have hden : (0 : ℝ) < angleDen D := by exact_mod_cast angleDen_pos hD
  obtain ⟨hnum0, hnum1⟩ : 0 ≤ angleNum r ∧ 5 * angleNum r ≤ 4 * angleDen D := by
    simp only [angleNum, angleDen, piScaled]
    omega
  have hnum0' : (0 : ℝ) ≤ angleNum r := by exact_mod_cast hnum0
  have hnum1' : 5 * (angleNum r : ℝ) ≤ 4 * angleDen D := by exact_mod_cast hnum1
  exact ⟨by positivity, by rw [div_le_iff₀ hden]; linarith⟩

theorem abs_sin_quarterAngle_sub_le :
    |Real.sin (quarterAngle r D) - sinNum (angleNum r) (angleDen D) / sinDen (angleDen D)| ≤ 2 * (1 / 10 ^ 10) := by
  obtain ⟨hratio0, hratio1⟩ := angle_ratio_mem hD h
  rw [sinNum_div_sinDen _ (angleDen_pos hD)]
  exact abs_sub_le_of_near (Real.abs_sin_sub_sin_le _ _) (abs_quarterAngle_sub_le hD (by omega))
    (abs_sin_sub_sinTaylor_le hratio0 hratio1)

theorem abs_cos_quarterAngle_sub_le :
    |Real.cos (quarterAngle r D) - cosNum (angleNum r) (angleDen D) / cosDen (angleDen D)| ≤ 2 * (1 / 10 ^ 10) := by
  obtain ⟨hratio0, hratio1⟩ := angle_ratio_mem hD h
  rw [cosNum_div_cosDen _ (angleDen_pos hD)]
  exact abs_sub_le_of_near (Real.abs_cos_sub_cos_le _ _) (abs_quarterAngle_sub_le hD (by omega))
    (abs_cos_sub_cosTaylor_le hratio0 hratio1)

end

/-! Rounding away from ties (93 K1). -/

/-- rnd14 of a nonnegative real value (40_modem.md R111). -/
noncomputable def floorQ14 (y : ℝ) : ℤ := ⌊y * 2 ^ 14 + 1 / 2⌋

/-- num/den·2^14 is at least 2^-17 from every rounding tie. -/
def clearOfTie (num den : ℕ) : Bool :=
  Nat.ble den (65536 * ((32768 * num + den) % (2 * den)))
    && Nat.ble (65536 * ((32768 * num + den) % (2 * den))) (131071 * den)

/-- Clear of ties, a value and its approximation round alike. -/
theorem rnd14_eq_floorQ14 {num den : ℕ} {y : ℝ} (hden : 0 < den)
    (hy : |y - num / den| ≤ 2 * (1 / 10 ^ 10)) (h : clearOfTie num den = true) : rnd14 num den = floorQ14 y := by
  rw [clearOfTie, Bool.and_eq_true, Nat.ble_eq, Nat.ble_eq] at h
  obtain ⟨hclear0, hclear1⟩ := h
  have hdiv := Int.mul_ediv_add_emod (32768 * num + den : ℤ) (2 * den)
  rw [← rnd14, show (32768 * num + den : ℤ) % (2 * den) = ((32768 * num + den) % (2 * den) : ℕ) by norm_cast] at hdiv
  generalize (32768 * num + den) % (2 * den) = rest at hdiv hclear0 hclear1
  have hden' : (0 : ℝ) < den := by exact_mod_cast hden
  have hdiv' : 2 * den * (rnd14 num den : ℝ) + rest = 32768 * num + den := by exact_mod_cast hdiv
  have hlo : (den : ℝ) ≤ 65536 * rest := by exact_mod_cast hclear0
  have hhi : (65536 * rest : ℝ) ≤ 131071 * den := by exact_mod_cast hclear1
  have herr : |y * den - num| ≤ 2 * (1 / 10 ^ 10) * den := by
    rw [show y * den - num = (y - num / den) * den by field_simp, abs_mul, abs_of_pos hden']
    exact mul_le_mul_of_nonneg_right hy hden'.le
  obtain ⟨herr0, herr1⟩ := abs_le.mp herr
  refine (Int.floor_eq_iff.mpr ⟨?_, ?_⟩).symm
  · refine le_of_mul_le_mul_right ?_ hden'
    linarith
  · refine lt_of_mul_lt_mul_right ?_ hden'.le
    linarith

/-! `sinNum` and `cosNum` on natural numbers, as the difference of their positive and their negative terms: the form
in which the kernel evaluates them fast. -/

/-- The positive terms of `sinNum`. -/
def sinPos (a b : ℕ) : ℕ :=
  let A := a * a
  let B := b * b
  a * B * (B * B * (39916800 * (B * B) + 332640 * (A * A)) + 110 * (A * A * (A * A)))

/-- The negative terms of `sinNum`. -/
def sinNeg (a b : ℕ) : ℕ :=
  let A := a * a
  let B := b * b
  a * A * (B * B * (6652800 * (B * B) + 7920 * (A * A)) + A * A * (A * A))

/-- The positive terms of `cosNum`. -/
def cosPos (a b : ℕ) : ℕ :=
  let A := a * a
  let B := b * b
  B * B * (B * B * (479001600 * (B * B) + 19958400 * (A * A)) + 11880 * (A * A * (A * A)))
    + A * A * (A * A * (A * A))

/-- The negative terms of `cosNum`. -/
def cosNeg (a b : ℕ) : ℕ :=
  let A := a * a
  let B := b * b
  A * B * (B * B * (239500800 * (B * B) + 665280 * (A * A)) + 132 * (A * A * (A * A)))

theorem sinNum_eq_natCast {a b : ℕ} (h : a ≤ b) : sinNum a b = (sinPos a b - sinNeg a b : ℕ) := by
  have hterms : sinNum a b = sinPos a b - sinNeg a b := by
    simp only [sinNum, sinPos, sinNeg]
    push_cast
    ring
  have hnonneg := (sinNum_bounds (Int.natCast_nonneg a) (Int.ofNat_le.mpr h)).1
  omega

theorem cosNum_eq_natCast {a b : ℕ} (h : a ≤ b) : cosNum a b = (cosPos a b - cosNeg a b : ℕ) := by
  have hterms : cosNum a b = cosPos a b - cosNeg a b := by
    simp only [cosNum, cosPos, cosNeg]
    push_cast
    ring
  have hnonneg := (cosNum_bounds (Int.natCast_nonneg a) (Int.ofNat_le.mpr h)).1
  omega

theorem sinDen_eq_natCast (b : ℕ) : sinDen b = (39916800 * b ^ 11 : ℕ) := by
  rw [sinDen]
  push_cast
  ring

theorem cosDen_eq_natCast (b : ℕ) : cosDen b = (479001600 * b ^ 12 : ℕ) := by
  rw [cosDen]
  push_cast
  ring

theorem angleNum_eq_natCast (r : ℕ) : angleNum r = (piScaled * r : ℕ) := (Int.natCast_mul _ _).symm

theorem angleDen_eq_natCast (D : ℕ) : angleDen D = (2 * D * 100000000000000000000 : ℕ) := by
  rw [angleDen]
  push_cast
  rfl

/-- `sinNum a b / sinDen b` is clear of ties. -/
def sinClear (a b : ℕ) : Bool := clearOfTie (sinPos a b - sinNeg a b) (39916800 * b ^ 11)

/-- `cosNum a b / cosDen b` is clear of ties. -/
def cosClear (a b : ℕ) : Bool := clearOfTie (cosPos a b - cosNeg a b) (479001600 * b ^ 12)

/-- The numerical fact behind the tables, which no general argument gives: up to D = 256 every value that `sinPart`
and `cosPart` round is clear of ties. -/
theorem sinClear_and_cosClear : ∀ D < 257, ∀ r < D / 2 + 1,
    sinClear (piScaled * r) (2 * D * 100000000000000000000) = true ∧
      cosClear (piScaled * r) (2 * D * 100000000000000000000) = true := by
  decide +kernel

section
variable {r D : ℕ} (hD : 0 < D) (hD' : D ≤ 256) (h : 2 * r ≤ D)
include hD hD' h

theorem sinPart_eq_floorQ14 : sinPart r D = floorQ14 (Real.sin (quarterAngle r D)) := by
  obtain ⟨hclear, _⟩ := sinClear_and_cosClear D (by omega) r (by omega)
  have hle : piScaled * r ≤ 2 * D * 100000000000000000000 := by simp only [piScaled]; omega
  have hnear := abs_sin_quarterAngle_sub_le hD h
  simp only [sinPart, angleNum_eq_natCast, angleDen_eq_natCast, sinNum_eq_natCast hle, sinDen_eq_natCast,
    Int.cast_natCast] at hnear ⊢
  exact rnd14_eq_floorQ14 (by positivity) hnear hclear

theorem cosPart_eq_floorQ14 : cosPart r D = floorQ14 (Real.cos (quarterAngle r D)) := by
  obtain ⟨_, hclear⟩ := sinClear_and_cosClear D (by omega) r (by omega)
  have hle : piScaled * r ≤ 2 * D * 100000000000000000000 := by simp only [piScaled]; omega
  have hnear := abs_cos_quarterAngle_sub_le hD h
  simp only [cosPart, angleNum_eq_natCast, angleDen_eq_natCast, cosNum_eq_natCast hle, cosDen_eq_natCast,
    Int.cast_natCast] at hnear ⊢
  exact rnd14_eq_floorQ14 (by positivity) hnear hclear

end

/-! A whole turn from its quarters (40_modem.md R112). -/

/-- rnd14 of a real value (40_modem.md R111). -/
noncomputable def roundQ14 (y : ℝ) : ℤ := (SignType.sign y : ℤ) * floorQ14 |y|

theorem roundQ14_of_nonneg {y : ℝ} (h : 0 ≤ y) : roundQ14 y = floorQ14 y := by
  rw [roundQ14, abs_of_nonneg h]
  rcases h.eq_or_lt with rfl | hpos
  · norm_num [floorQ14]
  · simp [sign_pos hpos]

theorem roundQ14_neg (y : ℝ) : roundQ14 (-y) = -roundQ14 y := by
  rw [roundQ14, roundQ14, abs_neg, Left.sign_neg]
  simp

theorem quarterAngle_sub {r D : ℕ} (hD : 0 < D) (h : r ≤ D) :
    quarterAngle (D - r) D = Real.pi / 2 - quarterAngle r D := by
  have hD' : (D : ℝ) ≠ 0 := by exact_mod_cast hD.ne'
  rw [quarterAngle, quarterAngle, Nat.cast_sub h]
  field_simp

theorem quarterAngle_mem {r D : ℕ} (hD : 0 < D) (h : r ≤ D) :
    0 ≤ quarterAngle r D ∧ quarterAngle r D ≤ Real.pi / 2 := by
  have hD' : (0 : ℝ) < D := by exact_mod_cast hD
  have hratio : (r : ℝ) / D ≤ 1 := (div_le_one hD').mpr (by exact_mod_cast h)
  exact ⟨by rw [quarterAngle]; positivity, mul_le_of_le_one_right (by positivity) hratio⟩

section
variable {r D : ℕ} (hD : 0 < D) (hD' : D ≤ 256) (h : r ≤ D)
include hD hD' h

theorem sinQuarter_eq_floorQ14 : sinQuarter r D = floorQ14 (Real.sin (quarterAngle r D)) := by
  rw [sinQuarter]
  split
  · exact sinPart_eq_floorQ14 hD hD' ‹_›
  · rw [cosPart_eq_floorQ14 hD hD' (by omega), quarterAngle_sub hD h, Real.cos_pi_div_two_sub]

theorem cosQuarter_eq_floorQ14 : cosQuarter r D = floorQ14 (Real.cos (quarterAngle r D)) := by
  rw [cosQuarter]
  split
  · exact cosPart_eq_floorQ14 hD hD' ‹_›
  · rw [sinPart_eq_floorQ14 hD hD' (by omega), quarterAngle_sub hD h, Real.sin_pi_div_two_sub]

theorem roundQ14_sin_quarterAngle : roundQ14 (Real.sin (quarterAngle r D)) = sinQuarter r D := by
  obtain ⟨h0, h1⟩ := quarterAngle_mem hD h
  rw [sinQuarter_eq_floorQ14 hD hD' h]
  exact roundQ14_of_nonneg (Real.sin_nonneg_of_nonneg_of_le_pi h0 (by linarith [Real.pi_pos]))

theorem roundQ14_cos_quarterAngle : roundQ14 (Real.cos (quarterAngle r D)) = cosQuarter r D := by
  obtain ⟨h0, h1⟩ := quarterAngle_mem hD h
  rw [cosQuarter_eq_floorQ14 hD hD' h]
  exact roundQ14_of_nonneg (Real.cos_nonneg_of_neg_pi_div_two_le_of_le (by linarith [Real.pi_pos]) h1)

end

/-- Turns as `sinTurn` and `cosTurn` cut them: an angle inside a quarter, a quarter, and whole turns. -/
theorem turn_eq_quarterAngle {D : ℕ} (hD : 0 < D) (m : ℕ) :
    2 * Real.pi * m / D =
      quarterAngle (4 * m % D) D + (4 * m / D % 4 : ℕ) * (Real.pi / 2) + (4 * m / D / 4 : ℕ) * (2 * Real.pi) := by
  have hD' : (D : ℝ) ≠ 0 := by exact_mod_cast hD.ne'
  have hm : (4 * m : ℝ) = D * (4 * (4 * m / D / 4 : ℕ) + (4 * m / D % 4 : ℕ)) + (4 * m % D : ℕ) := by
    have hquot := Nat.div_add_mod (4 * m / D) 4
    have hturn := Nat.div_add_mod (4 * m) D
    rw [← hquot] at hturn
    exact_mod_cast hturn.symm
  rw [quarterAngle]
  field_simp
  linear_combination hm

theorem mod_four_cases (n : ℕ) : n % 4 = 0 ∨ n % 4 = 1 ∨ n % 4 = 2 ∨ n % 4 = 3 := by omega

theorem three_mul_pi_div_two_eq : 3 * (Real.pi / 2) = Real.pi / 2 + Real.pi := by ring

section
variable {D : ℕ} (hD : 0 < D) (hD' : D ≤ 256) (m : ℕ)
include hD hD'

theorem sinTurn_eq_roundQ14 : sinTurn m D = roundQ14 (Real.sin (2 * Real.pi * m / D)) := by
  have hsin := roundQ14_sin_quarterAngle hD hD' (Nat.mod_lt (4 * m) hD).le
  have hcos := roundQ14_cos_quarterAngle hD hD' (Nat.mod_lt (4 * m) hD).le
  rw [turn_eq_quarterAngle hD m, Real.sin_add_nat_mul_two_pi, sinTurn]
  rcases mod_four_cases (4 * m / D) with hq | hq | hq | hq
  · simp [hq, hsin]
  · simp [hq, hcos, Real.sin_add_pi_div_two]
  · simp [hq, hsin, mul_div_cancel₀, Real.sin_add_pi, roundQ14_neg]
  · simp [hq, hcos, three_mul_pi_div_two_eq, ← add_assoc, Real.sin_add_pi, Real.sin_add_pi_div_two, roundQ14_neg]

theorem cosTurn_eq_roundQ14 : cosTurn m D = roundQ14 (Real.cos (2 * Real.pi * m / D)) := by
  have hsin := roundQ14_sin_quarterAngle hD hD' (Nat.mod_lt (4 * m) hD).le
  have hcos := roundQ14_cos_quarterAngle hD hD' (Nat.mod_lt (4 * m) hD).le
  rw [turn_eq_quarterAngle hD m, Real.cos_add_nat_mul_two_pi, cosTurn]
  rcases mod_four_cases (4 * m / D) with hq | hq | hq | hq
  · simp [hq, hcos]
  · simp [hq, hsin, Real.cos_add_pi_div_two, roundQ14_neg]
  · simp [hq, hcos, mul_div_cancel₀, Real.cos_add_pi, roundQ14_neg]
  · simp [hq, hsin, three_mul_pi_div_two_eq, ← add_assoc, Real.cos_add_pi, Real.cos_add_pi_div_two]

end

/-- Settles O53: an entry is the rounded sine or cosine of the turn c·k/N. -/
theorem carrierTablesAreRoundedSinusoids : Obligations.CarrierTablesAreRoundedSinusoids := by
  unfold Obligations.CarrierTablesAreRoundedSinusoids
  intro c N k _ hN hN' _
  have hangle : 2 * Real.pi * c * k / N = 2 * Real.pi * (c * k : ℕ) / N := by
    push_cast
    ring
  rw [hangle]
  exact ⟨sinTurn_eq_roundQ14 hN hN' (c * k), cosTurn_eq_roundQ14 hN hN' (c * k)⟩

/-! The vanishing entries (40_modem.md R128). -/

theorem one_le_floorQ14 {y : ℝ} (h : 1 / 256 ≤ y) : 1 ≤ floorQ14 y := by
  rw [floorQ14, Int.le_floor]
  norm_num
  linarith

section
variable {r D : ℕ} (hD' : D ≤ 256)
include hD'

/-- Jordan's inequality keeps the sine of a quarter's angle above r/D. -/
theorem one_le_sinQuarter (h0 : 0 < r) (h : r ≤ D) : 1 ≤ sinQuarter r D := by
  have hD : 0 < D := by omega
  obtain ⟨hang0, hang1⟩ := quarterAngle_mem hD h
  have hratio : (1 : ℝ) / 256 ≤ r / D := by
    have hr : (1 : ℝ) ≤ r := by exact_mod_cast h0
    have hD256 : (D : ℝ) ≤ 256 := by exact_mod_cast hD'
    have hDpos : (0 : ℝ) < D := by exact_mod_cast hD
    exact div_le_div₀ (by positivity) hr hDpos hD256
  rw [sinQuarter_eq_floorQ14 hD hD' h]
  refine one_le_floorQ14 (hratio.trans ?_)
  calc (r : ℝ) / D = 2 / Real.pi * quarterAngle r D := by rw [quarterAngle]; field_simp
    _ ≤ Real.sin (quarterAngle r D) := Real.mul_le_sin hang0 hang1

theorem sinQuarter_zero (hD : 0 < D) : sinQuarter 0 D = 0 := by
  rw [sinQuarter_eq_floorQ14 hD hD' (Nat.zero_le D)]
  norm_num [quarterAngle, floorQ14]

/-- The cosine of an angle is the sine of its complement in the quarter. -/
theorem one_le_cosQuarter (h : r < D) : 1 ≤ cosQuarter r D := by
  have hD : 0 < D := by omega
  have hsin := one_le_sinQuarter hD' (r := D - r) (by omega) (by omega)
  rwa [sinQuarter_eq_floorQ14 hD hD' (by omega), quarterAngle_sub hD h.le, Real.sin_pi_div_two_sub,
    ← cosQuarter_eq_floorQ14 hD hD' h.le] at hsin

end

theorem dvd_two_mul_iff {D : ℕ} (hD : 0 < D) (m : ℕ) : D ∣ 2 * m ↔ 4 * m % D = 0 ∧ 4 * m / D % 2 = 0 := by
  have hdiv := Nat.div_add_mod (4 * m) D
  constructor
  · rintro ⟨t, ht⟩
    have hm : 4 * m = D * (2 * t) := by linarith
    rw [hm, Nat.mul_mod_right, Nat.mul_div_cancel_left _ hD]
    exact ⟨rfl, Nat.mul_mod_right 2 t⟩
  · rintro ⟨hr, hq⟩
    obtain ⟨t, ht⟩ := Nat.dvd_of_mod_eq_zero hq
    rw [ht, hr] at hdiv
    exact ⟨t, by linarith⟩

/-- An entry vanishes at whole half turns and nowhere else. -/
theorem sinTurn_eq_zero_iff {D : ℕ} (hD : 0 < D) (hD' : D ≤ 256) (m : ℕ) : sinTurn m D = 0 ↔ D ∣ 2 * m := by
  have hr := Nat.mod_lt (4 * m) hD
  have hcos : cosQuarter (4 * m % D) D ≠ 0 := by
    have := one_le_cosQuarter hD' hr
    omega
  have hsin : sinQuarter (4 * m % D) D = 0 ↔ 4 * m % D = 0 := by
    constructor
    · intro hzero
      by_contra hne
      have := one_le_sinQuarter hD' (Nat.pos_of_ne_zero hne) hr.le
      omega
    · intro hzero
      rw [hzero, sinQuarter_zero hD' hD]
  rw [dvd_two_mul_iff hD, sinTurn]
  rcases mod_four_cases (4 * m / D) with hq | hq | hq | hq
  · have heven : 4 * m / D % 2 = 0 := by omega
    simp [hq, heven, hsin]
  · have hodd : 4 * m / D % 2 = 1 := by omega
    simp [hq, hodd, hcos]
  · have heven : 4 * m / D % 2 = 0 := by omega
    simp [hq, heven, hsin]
  · have hodd : 4 * m / D % 2 = 1 := by omega
    simp [hq, hodd, hcos]

/-- The entry at k = 1 decides whether a table vanishes; the table of one entry is sin 0. -/
theorem sinTable_vanishes_iff {N : ℕ} (hN : 1 ≤ N) (hN' : N ≤ 256) (c : ℕ) :
    (∀ k, k < N → sinEntry c N k = 0) ↔ N ∣ 2 * c := by
  simp only [sinEntry, sinTurn_eq_zero_iff hN hN']
  constructor
  · intro h
    rcases hN.eq_or_lt with rfl | hlt
    · exact one_dvd _
    · simpa using h 1 hlt
  · intro h k _
    exact (h.mul_right k).trans (dvd_of_eq (mul_assoc 2 c k))

/-- Settles O54: N divides 4, and N divides 2. -/
theorem zeroCarrierTables : Obligations.ZeroCarrierTables := by
  unfold Obligations.ZeroCarrierTables
  intro N hN hN'
  rw [sinTable_vanishes_iff hN hN', sinTable_vanishes_iff hN hN']
  constructor
  · constructor
    · intro h
      have hle := Nat.le_of_dvd (by decide) h
      interval_cases N <;> omega
    · rintro (rfl | rfl | rfl) <;> decide
  · constructor
    · intro h
      have hle := Nat.le_of_dvd (by decide) h
      omega
    · rintro (rfl | rfl) <;> decide

end Sys2Proof.Machine
end

section
/-! MOD and DEMOD sample by sample: the waveform in the sample buffer, the correlations and their peak, the decided
bits, and ASK over a noiseless channel (40_modem.md R113 to R126). -/

namespace Sys2Proof.Machine

/-! Waveforms (40_modem.md R113 to R115). -/

theorem seg_getElem? (sch : Scheme) {N k : Nat} (b : Bool) (hk : k < N) :
    (seg sch N b)[k]? = some (segSample sch N b k) := by
  cases sch <;> cases b <;> simp [seg, segSample, sinTable, hk, Config.one]

theorem segSample_natAbs_le (sch : Scheme) {N k : Nat} (b : Bool) (hk : k < N) :
    (segSample sch N b k).natAbs ≤ 16384 :=
  seg_natAbs_le (List.mem_of_getElem? (seg_getElem? sch b hk))

theorem wave_getElem?_segment (sch : Scheme) {N k : Nat} (bs : List Bool) (i : Nat) (hk : k < N) :
    (wave sch N bs)[i * N + k]? = bs[i]?.map (fun b => segSample sch N b k) := by
  have hN : 0 < N := by omega
  have hdiv : (i * N + k) / N = i := by rw [Nat.mul_comm, Nat.mul_add_div hN, Nat.div_eq_of_lt hk, Nat.add_zero]
  have hmod : (i * N + k) % N = k := by rw [Nat.mul_comm, Nat.mul_add_mod, Nat.mod_eq_of_lt hk]
  rw [wave_getElem? sch hN, hdiv, hmod]
  cases bs[i]? with
  | none => rfl
  | some b => simp [seg_getElem? sch b hk]

theorem preamble_getElem? : ∀ i < 8, Config.preamble[i]? = some (i % 2 == 0) := by decide

theorem preambleWave_getElem? (sch : Scheme) {N k : Nat} (hk : k < 8 * N) :
    (preambleWave sch N)[k]? = some (refSample sch N k) := by
  have hN : 0 < N := by omega
  have hsplit : k = k / N * N + k % N := by rw [Nat.mul_comm, Nat.div_add_mod]
  rw [preambleWave, refSample]
  conv_lhs => rw [hsplit]
  rw [wave_getElem?_segment sch _ _ (Nat.mod_lt k hN),
    preamble_getElem? _ (Nat.div_lt_of_lt_mul (by rwa [Nat.mul_comm])), Option.map_some]

/-! The sample buffer after MOD (40_modem.md R116). -/

theorem State.samp_writeSamps_of_getElem? (s : State) {vs : List Int} {j : Nat} {v : Int} (hj : vs[j]? = some v)
    (hv : v.natAbs ≤ 16384) : (s.writeSamps vs).samp j = v := by
  obtain ⟨hlt, rfl⟩ := List.getElem?_eq_some_iff.mp hj
  rw [State.samp_writeSamps, dif_pos hlt]
  exact toInt_ofInt_of_fits (by omega) (by omega)

/-- The state in which MOD completes when the waveform fits. -/
def modDone (s : State) : State :=
  complete (.done ((s.writeSamps (wave s.regs.scheme s.n (Config.preamble ++ s.bits s.regs.bitlen.toNat))).setSamplen
    ((8 + s.regs.bitlen.toNat) * s.n)))

theorem exec_mod_of_fits {s : State} (h : (8 + s.regs.bitlen.toNat) * s.n ≤ 65536) :
    exec .mod s = .next (modDone s) := by
  rcases modBody_cases s with ⟨hover, _⟩ | ⟨_, hdone⟩
  · omega
  · rw [exec_eq, bodyOf, hdone, modDone]

theorem exec_mod_of_overflow {s : State} (h : 65536 < (8 + s.regs.bitlen.toNat) * s.n) :
    exec .mod s = .next (complete (.raise .capacity s)) := by
  rcases modBody_cases s with ⟨_, hraise⟩ | ⟨hfits, _⟩
  · rw [exec_eq, bodyOf, hraise]
  · omega

theorem memWf_modDone {s : State} (hm : s.MemWf) (h : (8 + s.regs.bitlen.toNat) * s.n ≤ 65536) :
    (modDone s).MemWf := by
  refine State.memWf_writeSamps hm ?_
  rwa [wave_length, List.length_append, State.bits_length]

section
variable {s : State}

theorem modDone_samplen (h : (8 + s.regs.bitlen.toNat) * s.n ≤ 65536) :
    (modDone s).regs.samplen.toNat = (8 + s.regs.bitlen.toNat) * s.n := by
  show (BitVec.ofNat 17 _).toNat = _
  rw [BitVec.toNat_ofNat, Nat.mod_eq_of_lt (by omega)]

theorem modDone_samp {j : Nat} {v : Int}
    (hj : (wave s.regs.scheme s.n (Config.preamble ++ s.bits s.regs.bitlen.toNat))[j]? = some v) :
    (modDone s).samp j = v :=
  s.samp_writeSamps_of_getElem? hj (wave_natAbs_le (List.mem_of_getElem? hj))

theorem modDone_samp_preamble {i k : Nat} (hi : i < 8) (hk : k < s.n) :
    (modDone s).samp (i * s.n + k) = segSample s.regs.scheme s.n (i % 2 == 0) k := by
  apply modDone_samp
  rw [wave_getElem?_segment _ _ _ hk, List.getElem?_append_left hi, preamble_getElem? i hi, Option.map_some]

theorem modDone_samp_data (hm : s.MemWf) {i k : Nat} (hi : i < s.regs.bitlen.toNat) (hk : k < s.n) :
    (modDone s).samp ((8 + i) * s.n + k) = segSample s.regs.scheme s.n (s.bit i) k := by
  have hpre : Config.preamble.length = 8 := rfl
  apply modDone_samp
  rw [wave_getElem?_segment _ _ _ hk, List.getElem?_append_right (by omega), hpre, Nat.add_sub_cancel_left,
    State.bits_eq hm]
  simp [hi]

theorem modDone_byteAt_of_out {a : Nat} (ha : a < 0x20000 ∨ 0x20000 + 2 * ((8 + s.regs.bitlen.toNat) * s.n) ≤ a) :
    (modDone s).byteAt a = s.byteAt a := by
  refine s.byteAt_writeSamps_of_out ?_
  rwa [wave_length, List.length_append, State.bits_length]

end

/-- Settles O37: MOD ends in the state with the waveform, or raises CAPACITY. -/
theorem modWritesTheWaveform : Obligations.ModWritesTheWaveform := by
  unfold Obligations.ModWritesTheWaveform
  refine ⟨fun s hm hfits => ⟨modDone s, exec_mod_of_fits hfits, rfl, modDone_samplen hfits, ?_⟩,
    fun s hover => exec_mod_of_overflow hover⟩
  exact ⟨fun i k hi hk => modDone_samp_preamble hi hk, fun i k hi hk => modDone_samp_data hm hi hk,
    fun a ha => modDone_byteAt_of_out ha⟩

/-! The peak (40_modem.md R118, R119). -/

/-- Settles O40: the search finds such an entry, and there is only one. -/
theorem peakIsSmallestLagOfLargestMagnitude : Obligations.PeakIsSmallestLagOfLargestMagnitude := by
  unfold Obligations.PeakIsSmallestLagOfLargestMagnitude
  intro cs hne L c
  obtain ⟨hentry, hmax, hfirst⟩ := peak_spec cs hne
  generalize peak cs = best at *
  obtain ⟨p, v⟩ := best
  dsimp only at hentry hmax hfirst
  obtain ⟨hp, rfl⟩ := List.getElem?_eq_some_iff.mp hentry
  rw [Prod.mk.injEq]
  constructor
  · rintro ⟨rfl, rfl⟩
    exact ⟨hp, rfl, fun j hj => hmax _ (List.getElem_mem hj),
      fun j hj => hfirst j _ hj (List.getElem?_eq_getElem (hj.trans hp))⟩
  · rintro ⟨hL, rfl, hLmax, hLfirst⟩
    have hpL := hmax _ (List.getElem_mem hL)
    have hLp := hLmax p hp
    obtain rfl : p = L := by
      rcases Nat.lt_trichotomy p L with hlow | heq | hhigh
      · have := hLfirst p hlow
        omega
      · exact heq
      · have := hfirst L _ hhigh (List.getElem?_eq_getElem hL)
        omega
    exact ⟨rfl, rfl⟩

/-- A sum of products by index. -/
theorem dot_eq_sum {n : Nat} {f g : Nat → Int} {xs ys : List Int} (hlen : ys.length = n)
    (hx : ∀ k < n, xs[k]? = some (f k)) (hy : ∀ k < n, ys[k]? = some (g k)) :
    dot xs ys = ∑ k ∈ Finset.range n, f k * g k := by
  induction ys generalizing n f g xs with
  | nil =>
    obtain rfl : 0 = n := hlen
    rw [dot_nil_right, Finset.sum_range_zero]
  | cons y ys ih =>
    obtain rfl : ys.length + 1 = n := hlen
    cases xs with
    | nil => simpa using hx 0 (by omega)
    | cons x xs =>
      have h0 : x = f 0 := by simpa using hx 0 (by omega)
      have h0' : y = g 0 := by simpa using hy 0 (by omega)
      rw [dot, Finset.sum_range_succ', ← h0, ← h0', add_comm]
      congr 1
      exact ih rfl (fun k hk => by simpa using hx (k + 1) (by omega)) (fun k hk => by simpa using hy (k + 1) (by omega))

theorem sumSamples_eq_dot (xs : List Int) : sumSamples xs = dot xs (List.replicate xs.length 1) := by
  induction xs with
  | nil => rfl
  | cons x xs ih =>
    rw [List.length_cons, List.replicate_succ, dot, ← ih, mul_one]
    rfl

theorem demodCorrelations_ne_nil (s : State) : demodCorrelations s ≠ [] := by
  rw [← List.length_pos_iff, demodCorrelations, correlations_length]
  omega

section
variable {s : State} (hm : s.MemWf)
include hm

theorem State.samps_getElem? {n j : Nat} (hj : j < n) : (s.samps n)[j]? = some (s.samp j) := by
  rw [List.getElem?_eq_getElem (by rwa [State.samps_length]), State.samps_getElem hm]

theorem demodCorrelations_getElem? {L : Nat} (hL : L + 8 * s.n ≤ s.regs.samplen.toNat) :
    (demodCorrelations s)[L]? = some (s.corr L) := by
  rw [demodCorrelations, correlations_getElem? _ _ _ _ (by omega), State.corr]
  refine congrArg some (dot_eq_sum (preambleWave_length _ _) (fun k hk => ?_) fun k hk => preambleWave_getElem? _ hk)
  rw [List.getElem?_drop, State.samps_getElem? hm (by omega)]

theorem corr_peak (hlong : 8 * s.n ≤ s.regs.samplen.toNat) :
    s.corr (peak (demodCorrelations s)).1 = (peak (demodCorrelations s)).2 := by
  have hlag := demodPeak_lag_le s
  have hentry := (peak_spec _ (demodCorrelations_ne_nil s)).1
  rw [demodCorrelations_getElem? hm (by omega), Option.some.injEq] at hentry
  exact hentry

theorem isPeak_peak (hlong : 8 * s.n ≤ s.regs.samplen.toNat) : s.IsPeak (peak (demodCorrelations s)).1 := by
  have hlag := demodPeak_lag_le s
  obtain ⟨_, hmax, hfirst⟩ := peak_spec _ (demodCorrelations_ne_nil s)
  rw [← corr_peak hm hlong] at hmax hfirst
  exact ⟨by omega, fun m hm' => hmax _ (List.mem_of_getElem? (demodCorrelations_getElem? hm hm')),
    fun m hm' => hfirst m _ hm' (demodCorrelations_getElem? hm (by omega))⟩

end

theorem State.IsPeak.unique {s : State} {L L' : Nat} (h : s.IsPeak L) (h' : s.IsPeak L') : L = L' := by
  obtain ⟨hfit, hmax, hfirst⟩ := h
  obtain ⟨hfit', hmax', hfirst'⟩ := h'
  have hle := hmax L' hfit'
  have hle' := hmax' L hfit
  rcases Nat.lt_trichotomy L L' with hlow | heq | hhigh
  · have := hfirst' L hlow
    omega
  · exact heq
  · have := hfirst L' hhigh
    omega

/-! The decided bits (40_modem.md R121 to R126). -/

section
variable {s : State} {a : Nat} {xs : List Int} (hxs : ∀ k < s.n, xs[k]? = some (s.samp (a + k)))
include hxs

theorem dot_sinTable_eq_inner (c : Nat) : dot xs (sinTable c s.n) = s.inner a (sinEntry c s.n) :=
  dot_eq_sum (sinTable_length c s.n) hxs fun k hk => by simp [sinTable, hk]

theorem dot_cosTable_eq_inner (c : Nat) : dot xs (cosTable c s.n) = s.inner a (cosEntry c s.n) :=
  dot_eq_sum (cosTable_length c s.n) hxs fun k hk => by simp [cosTable, hk]

theorem energy_eq_energyAt (c : Nat) : energy c s.n xs = s.energyAt a c := by
  rw [energy, dot_sinTable_eq_inner hxs, dot_cosTable_eq_inner hxs, State.energyAt, sq, sq]

variable (hlen : xs.length = s.n)
include hlen

theorem sumSamples_eq_inner : sumSamples xs = s.inner a (fun _ => 1) := by
  rw [sumSamples_eq_dot, hlen]
  exact dot_eq_sum (by simp) hxs fun k hk => by simp [hk]

/-- One segment's decision with the polarity correction (40_modem.md R125). -/
theorem decideBit_eq_bitAt (neg : Bool) :
    (if s.regs.scheme = .bpsk ∧ neg then !decideBit s.regs.scheme s.n xs else decideBit s.regs.scheme s.n xs) =
      s.bitAt neg a := by
  rw [State.bitAt]
  cases s.regs.scheme with
  | ask => simp [decideBit, sumSamples_eq_inner hxs hlen]
  | fsk => simp [decideBit, energy_eq_energyAt hxs]
  | bpsk => cases neg <;> simp [decideBit, dot_sinTable_eq_inner hxs]

end

theorem correctPolarity_eq_map (sch : Scheme) (neg : Bool) (bs : List Bool) :
    correctPolarity sch neg bs = bs.map (fun b => if sch = .bpsk ∧ neg then !b else b) := by
  rw [correctPolarity]
  split <;> simp

/-- The whole segments after a preamble at lag `L` (40_modem.md R121). -/
def State.segmentsFrom (s : State) (L : Nat) : Nat := (s.regs.samplen.toNat - (L + 8 * s.n)) / s.n

/-- The bits DEMOD decides when the preamble is at lag `L`. -/
def State.decidedBits (s : State) (L : Nat) : List Bool :=
  demodBits s.regs.scheme s.n (decide (s.corr L < 0)) (s.segmentsFrom L)
    ((s.samps s.regs.samplen.toNat).drop (L + 8 * s.n))

@[simp] theorem State.decidedBits_length (s : State) (L : Nat) : (s.decidedBits L).length = s.segmentsFrom L :=
  demodBits_length _ _ _ _ _

/-- The segment of a decided bit lies in the received samples. -/
theorem State.segment_fits {s : State} {L i : Nat} (hfit : L + 8 * s.n ≤ s.regs.samplen.toNat)
    (hi : i < s.segmentsFrom L) : L + 8 * s.n + i * s.n + s.n ≤ s.regs.samplen.toNat := by
  have hall := Nat.div_mul_le_self (s.regs.samplen.toNat - (L + 8 * s.n)) s.n
  have hseg := Nat.mul_le_mul_right s.n (Nat.succ_le_of_lt hi)
  rw [Nat.succ_mul, State.segmentsFrom] at hseg
  omega

theorem State.decidedBits_getElem? {s : State} (hm : s.MemWf) {L i : Nat}
    (hfit : L + 8 * s.n ≤ s.regs.samplen.toNat) (hi : i < s.segmentsFrom L) :
    (s.decidedBits L)[i]? = some (s.bitAt (decide (s.corr L < 0)) (L + 8 * s.n + i * s.n)) := by
  have hseg := State.segment_fits hfit hi
  rw [State.decidedBits, demodBits, correctPolarity_eq_map, List.map_map, List.getElem?_map,
    segments_getElem? _ _ _ _ hi, Option.map_some, Function.comp_apply, List.drop_drop]
  refine congrArg some (decideBit_eq_bitAt (fun k hk => ?_) ?_ _)
  · rw [List.getElem?_take_of_lt hk, List.getElem?_drop, State.samps_getElem? hm (by omega)]
  · rw [List.length_take, List.length_drop, State.samps_length]
    omega

/-! DEMOD's three outcomes (40_modem.md R117). -/

/-- The state in which DEMOD completes when it finds the preamble at lag `L`. -/
def demodDone (s : State) (L : Nat) : State :=
  complete (.done (demodAt s (s.samps s.regs.samplen.toNat) L (s.corr L)))

theorem exec_demod_of_short {s : State} (h : s.regs.samplen.toNat < 8 * s.n) :
    exec .demod s = .next (complete (.done (demodFailed s 0))) := by
  rcases demodBody_cases s with ⟨_, hbody⟩ | ⟨hlong, _⟩ | ⟨hlong, _⟩
  · rw [exec_eq, bodyOf, hbody]
  · omega
  · omega

section
variable {s : State} {L : Nat} (hm : s.MemWf) (hL : s.IsPeak L)
include hm hL

theorem peak_eq_of_isPeak : peak (demodCorrelations s) = (L, s.corr L) := by
  have ⟨hfit, _⟩ := hL
  have hlag := (isPeak_peak hm (by omega)).unique hL
  have hval := corr_peak hm (by omega)
  rw [hlag] at hval
  exact Prod.ext hlag hval.symm

theorem exec_demod_of_below (h : (s.corr L).natAbs < s.regs.syncThr.toNat * 16384) :
    exec .demod s = .next (complete (.done (demodFailed s ((s.corr L).natAbs / 16384)))) := by
  have ⟨hfit, _⟩ := hL
  have hcases := demodBody_cases s
  rw [peak_eq_of_isPeak hm hL] at hcases
  rcases hcases with ⟨hshort, _⟩ | ⟨_, _, hbody⟩ | ⟨_, habove, _⟩
  · omega
  · rw [exec_eq, bodyOf, hbody]
  · omega

theorem exec_demod_of_above (h : s.regs.syncThr.toNat * 16384 ≤ (s.corr L).natAbs) :
    exec .demod s = .next (demodDone s L) := by
  have ⟨hfit, _⟩ := hL
  have hcases := demodBody_cases s
  rw [peak_eq_of_isPeak hm hL] at hcases
  rcases hcases with ⟨hshort, _⟩ | ⟨_, hbelow, _⟩ | ⟨_, _, hbody⟩
  · omega
  · omega
  · rw [exec_eq, bodyOf, hbody, demodDone]

/-- SYNC_PEAK holds |C(Ls)| div 2^14 without loss (40_modem.md R127). -/
theorem toNat_ofNat_peak : (BitVec.ofNat 32 ((s.corr L).natAbs / 16384)).toNat = (s.corr L).natAbs / 16384 := by
  have hbound := demodPeak_natAbs_le s hm
  have hN : s.n < 512 := s.regs.spb.isLt
  rw [peak_eq_of_isPeak hm hL] at hbound
  dsimp only at hbound
  rw [BitVec.toNat_ofNat, Nat.mod_eq_of_lt (by omega)]

end

section
variable (s : State) (L : Nat)

theorem demodDone_frame : demodDone s L = { s with
    seq := .idle, mem := (demodDone s L).mem
    regs := { s.regs with
      done := true, err := 0, bitlen := (demodDone s L).regs.bitlen, syncLag := (demodDone s L).regs.syncLag
      syncPeak := (demodDone s L).regs.syncPeak, syncOk := true, peakNeg := decide (s.corr L < 0)
      bitOvf := decide (4096 < s.segmentsFrom L) } } := rfl

theorem demodDone_bitlen : (demodDone s L).regs.bitlen.toNat = min (s.segmentsFrom L) 4096 := by
  show (BitVec.ofNat 13 (min (s.segmentsFrom L) 4096)).toNat = _
  rw [BitVec.toNat_ofNat, Nat.mod_eq_of_lt (by omega)]

theorem demodDone_byteAt_of_out {a : Nat} (ha : a < 0x200 ∨ 0x400 ≤ a) : (demodDone s L).byteAt a = s.byteAt a := by
  refine State.byteAt_writeBits_of_out { s with regs := _ } (bs := (s.decidedBits L).take 4096) ?_
  rw [List.length_take]
  omega

theorem demodDone_bit (hm : s.MemWf) (hfit : L + 8 * s.n ≤ s.regs.samplen.toNat) (i : Nat) :
    (demodDone s L).bit i = if i < min (s.segmentsFrom L) 4096
      then s.bitAt (decide (s.corr L < 0)) (L + 8 * s.n + i * s.n) else s.bit i := by
  have hlen : ((s.decidedBits L).take 4096).length = min (s.segmentsFrom L) 4096 := by
    rw [List.length_take, State.decidedBits_length, Nat.min_comm]
  have hwrite : (demodDone s L).bit i =
      if h : i < ((s.decidedBits L).take 4096).length then ((s.decidedBits L).take 4096)[i] else s.bit i :=
    State.bit_writeBits (s := { s with regs := _ }) hm _ i
  rw [hwrite]
  by_cases hi : i < min (s.segmentsFrom L) 4096
  · rw [if_pos hi, dif_pos (hi.trans_eq hlen.symm)]
    apply Option.some.inj
    rw [← List.getElem?_eq_getElem, List.getElem?_take_of_lt (by omega),
      State.decidedBits_getElem? hm hfit (by omega)]
  · rw [if_neg hi, dif_neg (fun h => hi (h.trans_eq hlen))]

end

/-- Settles O38: DEMOD is too short, below the threshold, or synchronized, with Ls the lag that the peak search
finds. -/
theorem demodLocatesAndDecides : Obligations.DemodLocatesAndDecides := by
  unfold Obligations.DemodLocatesAndDecides
  refine ⟨fun s hshort => exec_demod_of_short hshort, fun s hm hlegal hlong => ?_⟩
  have ⟨hN, _, _, hsamplen, _⟩ := hlegal
  obtain ⟨L, hpeak⟩ : ∃ L, s.IsPeak L := ⟨_, isPeak_peak hm hlong⟩
  have ⟨hfit, _⟩ := hpeak
  have hval := toNat_ofNat_peak hm hpeak
  have hN' : 1 ≤ s.n := hN
  by_cases hthr : (s.corr L).natAbs < s.regs.syncThr.toNat * 16384
  · exact ⟨L, _, hpeak, exec_demod_of_below hm hpeak hthr, hval, fun _ => rfl, fun h => by omega⟩
  · have hlag : (BitVec.ofNat 16 L).toNat = L := by rw [BitVec.toNat_ofNat, Nat.mod_eq_of_lt (by omega)]
    have hbitlen := demodDone_bitlen s L
    refine ⟨L, demodDone s L, hpeak, exec_demod_of_above hm hpeak (by omega), hval, fun h => by omega, fun _ =>
      ⟨demodDone_frame s L, hlag, hbitlen, ?_, ?_, fun a ha => demodDone_byteAt_of_out s L ha⟩⟩
    · intro i hi
      rw [demodDone_bit s L hm hfit, if_pos (hbitlen ▸ hi)]
    · intro i hi
      rw [demodDone_bit s L hm hfit, if_neg (by omega)]

/-! ASK over a noiseless channel (40_modem.md R116 to R122). -/

theorem segSample_ask (N k : Nat) (b : Bool) : segSample .ask N b k = if b then 16384 else -16384 := by
  cases b <;> rfl

/-- The waveform begins with the reference (40_modem.md R114). -/
theorem modDone_samp_eq_refSample {s : State} {k : Nat} (hk : k < 8 * s.n) :
    (modDone s).samp k = refSample s.regs.scheme s.n k :=
  modDone_samp (by
    rw [wave_append, List.getElem?_append_left (by rwa [← preambleWave, preambleWave_length])]
    exact preambleWave_getElem? _ hk)

theorem modDone_samp_natAbs_le {s : State} {j : Nat} (hj : j < (8 + s.regs.bitlen.toNat) * s.n) :
    ((modDone s).samp j).natAbs ≤ 16384 := by
  have hlen : j < (wave s.regs.scheme s.n (Config.preamble ++ s.bits s.regs.bitlen.toNat)).length := by
    rwa [wave_length, List.length_append, State.bits_length]
  rw [modDone_samp (List.getElem?_eq_getElem hlen)]
  exact wave_natAbs_le (List.getElem_mem hlen)

/-- No correlation is larger than that of full-scale samples (40_modem.md R120). -/
theorem State.corr_natAbs_le {s : State} {L : Nat} (h : ∀ k < 8 * s.n, (s.samp (L + k)).natAbs ≤ 16384) :
    (s.corr L).natAbs ≤ 8 * s.n * (16384 * 16384) := by
  have hterm : ∀ k ∈ Finset.range (8 * s.n),
      (s.samp (L + k) * refSample s.regs.scheme s.n k).natAbs ≤ 16384 * 16384 := by
    intro k hk
    have hk' := Finset.mem_range.mp hk
    rw [Int.natAbs_mul]
    exact Nat.mul_le_mul (h k hk') (segSample_natAbs_le _ _ (Nat.mod_lt k (by omega)))
  have hsum := Finset.sum_le_card_nsmul _ _ _ hterm
  rw [Finset.card_range, smul_eq_mul] at hsum
  exact (Int.natAbs_sum_le _ _).trans hsum

section
variable {s : State} (hask : s.regs.scheme = .ask)
include hask

/-- At lag 0 the reference meets itself, and every product is 2^28. -/
theorem corr_modDone_zero : (modDone s).corr 0 = 8 * s.n * (16384 * 16384) := by
  have hterm : ∀ k ∈ Finset.range (8 * s.n),
      (modDone s).samp (0 + k) * refSample s.regs.scheme s.n k = 16384 * 16384 := by
    intro k hk
    rw [Nat.zero_add, modDone_samp_eq_refSample (Finset.mem_range.mp hk), hask, refSample, segSample_ask]
    split <;> rfl
  show ∑ k ∈ Finset.range (8 * s.n), (modDone s).samp (0 + k) * refSample s.regs.scheme s.n k = _
  rw [Finset.sum_congr rfl hterm, Finset.sum_const, Finset.card_range, nsmul_eq_mul]
  push_cast
  rfl

theorem isPeak_modDone (hfits : (8 + s.regs.bitlen.toNat) * s.n ≤ 65536) : (modDone s).IsPeak 0 := by
  have hsamplen := modDone_samplen hfits
  have hn : (modDone s).n = s.n := rfl
  refine ⟨?_, fun m hm => ?_, fun m hm => by omega⟩
  · rw [hsamplen, hn, Nat.add_mul]
    omega
  · have hle := State.corr_natAbs_le (s := modDone s) (L := m) fun k hk => modDone_samp_natAbs_le (by omega)
    rw [corr_modDone_zero hask]
    rw [hn] at hle
    omega

/-- The sum of a segment has the sign of its bit (40_modem.md R122). -/
theorem bitAt_modDone (hm : s.MemWf) (hN : 0 < s.n) (neg : Bool) {i : Nat} (hi : i < s.regs.bitlen.toNat) :
    (modDone s).bitAt neg ((8 + i) * s.n) = s.bit i := by
  have hterm : ∀ k ∈ Finset.range s.n,
      (modDone s).samp ((8 + i) * s.n + k) * 1 = if s.bit i then 16384 else -16384 := by
    intro k hk
    rw [modDone_samp_data hm hi (Finset.mem_range.mp hk), hask, segSample_ask, mul_one]
  have hsum : (modDone s).inner ((8 + i) * s.n) (fun _ => 1) = s.n * if s.bit i then 16384 else -16384 := by
    show ∑ k ∈ Finset.range s.n, (modDone s).samp ((8 + i) * s.n + k) * 1 = _
    rw [Finset.sum_congr rfl hterm, Finset.sum_const, Finset.card_range, nsmul_eq_mul]
  have hscheme : (modDone s).regs.scheme = .ask := hask
  rw [State.bitAt, hscheme]
  dsimp only
  rw [hsum]
  cases s.bit i with
  | false => simp
  | true => simpa using hN

end

/-- Settles O51: the peak is at lag 0, and every segment after the preamble has the sign of its bit. -/
theorem askDemodRecoversModulatedBits : Obligations.AskDemodRecoversModulatedBits := by
  unfold Obligations.AskDemodRecoversModulatedBits
  intro s t hm hask hN hbits hfits hthr ht
  rw [exec_mod_of_fits hfits, Host.Outcome.next.injEq] at ht
  subst ht
  have hn : (modDone s).n = s.n := rfl
  have hwf := memWf_modDone hm hfits
  have hpeak := isPeak_modDone hask hfits
  have ⟨hfit, _⟩ := hpeak
  have hcorr := corr_modDone_zero hask
  have hnonneg : ¬ (modDone s).corr 0 < 0 := by rw [hcorr]; omega
  have hmag : ((modDone s).corr 0).natAbs = 8 * s.n * (16384 * 16384) := by rw [hcorr]; omega
  have hthr' : (modDone s).regs.syncThr.toNat ≤ 8 * s.n * 2 ^ 14 := hthr
  have hsegs : (modDone s).segmentsFrom 0 = s.regs.bitlen.toNat := by
    rw [State.segmentsFrom, modDone_samplen hfits, hn, Nat.add_mul, Nat.zero_add, Nat.add_sub_cancel_left,
      Nat.mul_div_cancel _ hN]
  have hkept : ¬ 4096 < (modDone s).segmentsFrom 0 := by omega
  have hbitlen := demodDone_bitlen (modDone s) 0
  rw [hsegs, Nat.min_eq_left hbits] at hbitlen
  refine ⟨demodDone (modDone s) 0, exec_demod_of_above hwf hpeak (by omega), rfl, decide_eq_false hnonneg,
    decide_eq_false hkept, rfl, (toNat_ofNat_peak hwf hpeak).trans (by omega),
    BitVec.eq_of_toNat_eq hbitlen, fun i hi => ?_⟩
  have hstart : 0 + 8 * (modDone s).n + i * (modDone s).n = (8 + i) * s.n := by rw [hn, Nat.zero_add, Nat.add_mul]
  rw [demodDone_bit _ _ hwf hfit, hsegs, if_pos (by omega), hstart, bitAt_modDone hask hm hN _ hi]

end Sys2Proof.Machine
end

section
/-! SER and PARSE byte by byte: the frame SER stores, the frames PARSE accepts and what it loads from them, and the
two after one another (41_frame.md R140 to R146). -/

namespace Sys2Proof.Machine

/-! Bits of whole bytes. -/

/-- A write of whole bytes' bits stores the bytes. -/
theorem State.writeBits_flatMap (s : State) (vs : List Byte) :
    s.writeBits (vs.flatMap msb8) = s.storeBytes 0x200 vs := by
  have hlen : (vs.flatMap msb8).length = 8 * vs.length := by
    rw [length_flatMap_const msb8_length, Nat.mul_comm]
  have hbytes : (8 * vs.length + 7) / 8 = vs.length := by omega
  have hkept : (s.bits (8 * vs.length)).drop (8 * vs.length) = [] := List.drop_eq_nil_of_le (by simp)
  simp only [State.writeBits, hlen, hbytes, hkept, List.append_nil, packBytes_of_flatMap]

theorem State.bitByte_congr {s t : State} {i : Nat} (h : ∀ k < 8, t.bit (8 * i + k) = s.bit (8 * i + k)) :
    t.bitByte i = s.bitByte i := by
  apply msb8_injective
  rw [msb8_bitByte, msb8_bitByte]
  exact List.map_congr_left fun k hk => h k (List.mem_range.mp hk)

theorem State.ones_congr {s t : State} {n : Nat} (h : ∀ i < n, t.bit i = s.bit i) : t.ones n = s.ones n :=
  List.countP_congr fun i hi => by rw [h i (List.mem_range.mp hi)]

/-- The checksum of a run of bits is its bit count modulo 256 (42_checksum.md R160). -/
theorem State.toNat_checksum_bits {s : State} (hm : s.MemWf) (n : Nat) :
    (checksum (s.bits n)).toNat = s.ones n % 256 := by
  rw [checksum, BitVec.toNat_ofNat, State.bits_eq hm, List.count, List.countP_map, State.ones]
  congr 2
  funext i
  simp

/-! SER (41_frame.md R140). -/

/-- The bytes SER stores before the checksum field. -/
def frameBytes (s : State) : List Byte :=
  s.regs.src :: s.regs.dst :: s.regs.typ :: s.regs.sqn :: s.regs.len :: s.pays s.regs.len.toNat

@[simp] theorem frameBytes_length (s : State) : (frameBytes s).length = 5 + s.regs.len.toNat := by
  simp only [frameBytes, State.pays, List.length_cons, State.bytesAt_length]
  omega

theorem frameBody_eq_flatMap (s : State) : frameBody s = (frameBytes s).flatMap msb8 := by
  simp [frameBody, frameBytes]

/-- The state in which SER completes. -/
def serDone (s : State) : State := complete (.done (serBody s))

section
variable (s : State)

theorem exec_ser : exec .ser s = .next (serDone s) := exec_eq .ser s

theorem serDone_frame : serDone s = { s with
    seq := .idle, mem := (serDone s).mem
    regs := { s.regs with
      done := true, err := 0, bitlen := (serDone s).regs.bitlen, chk := (serDone s).regs.chk } } := rfl

theorem serDone_chk : (serDone s).regs.chk = checksum (frameBody s) := rfl

theorem serDone_bitlen : (serDone s).regs.bitlen.toNat = 48 + 8 * s.regs.len.toNat := by
  have hlen := s.regs.len.isLt
  show (BitVec.ofNat 13 _).toNat = _
  rw [BitVec.toNat_ofNat, Nat.mod_eq_of_lt (by omega)]

theorem serDone_byteAt (a : Nat) :
    (serDone s).byteAt a = (s.storeBytes 0x200 (frameBytes s ++ [checksum (frameBody s)])).byteAt a := by
  have hbits : frameBody s ++ msb8 (checksum (frameBody s)) =
      (frameBytes s ++ [checksum (frameBody s)]).flatMap msb8 := by
    rw [List.flatMap_append, ← frameBody_eq_flatMap, List.flatMap_singleton]
  rw [← State.writeBits_flatMap, ← hbits]
  rfl

theorem serDone_byteAt_of_out {a : Nat} (ha : a < 0x200 ∨ 0x206 + s.regs.len.toNat ≤ a) :
    (serDone s).byteAt a = s.byteAt a := by
  rw [serDone_byteAt, State.byteAt_storeBytes_of_out]
  rw [List.length_append, frameBytes_length, List.length_singleton]
  omega

end

section
variable {s : State}

theorem serDone_bitByte {i : Nat} {v : Byte} (hv : (frameBytes s ++ [checksum (frameBody s)])[i]? = some v) :
    (serDone s).bitByte i = v := by
  obtain ⟨hi, rfl⟩ := List.getElem?_eq_some_iff.mp hv
  rw [State.bitByte, serDone_byteAt, State.byteAt_storeBytes, dif_pos ⟨by omega, by omega⟩]
  simp only [Nat.add_sub_cancel_left]

theorem serDone_bitByte_checksum : (serDone s).bitByte (5 + s.regs.len.toNat) = (serDone s).regs.chk :=
  serDone_bitByte (by rw [← frameBytes_length, List.getElem?_concat_length]; rfl)

variable (hm : s.MemWf)
include hm

theorem serDone_bitByte_payload {k : Nat} (hk : k < s.regs.len.toNat) :
    (serDone s).bitByte (5 + k) = s.pay k := by
  apply serDone_bitByte
  rw [List.getElem?_append_left (by rw [frameBytes_length]; omega), Nat.add_comm, frameBytes]
  simp only [List.getElem?_cons_succ]
  rw [State.pays, State.bytesAt_eq hm, List.getElem?_map, List.getElem?_range hk]
  rfl

theorem memWf_serDone : (serDone s).MemWf := memWf_serBody hm

theorem serDone_bits_body : (serDone s).bits (40 + 8 * s.regs.len.toNat) = frameBody s := by
  refine List.ext_getElem (by simp) fun i hi hbody => ?_
  have hwrite := State.bit_writeBits hm (frameBody s ++ msb8 (checksum (frameBody s))) i
  rw [dif_pos (by rw [List.length_append]; omega), List.getElem_append_left hbody] at hwrite
  rw [State.bits_getElem (memWf_serDone hm), ← hwrite]
  rfl

/-- The checksum SER stores counts the bits it stored before it. -/
theorem serDone_chk_toNat : (serDone s).regs.chk.toNat = (serDone s).ones (40 + 8 * s.regs.len.toNat) % 256 := by
  rw [← State.toNat_checksum_bits (memWf_serDone hm), serDone_bits_body hm, serDone_chk]

end

/-- Settles O41: SER stores the frame's bytes one after another. -/
theorem serBuildsTheFrame : Obligations.SerBuildsTheFrame := by
  unfold Obligations.SerBuildsTheFrame
  intro s hm
  exact ⟨serDone s, exec_ser s, serDone_frame s, serDone_bitlen s, serDone_bitByte rfl, serDone_bitByte rfl,
    serDone_bitByte rfl, serDone_bitByte rfl, serDone_bitByte rfl, fun k hk => serDone_bitByte_payload hm hk,
    serDone_bitByte_checksum, serDone_chk_toNat hm, fun a ha => serDone_byteAt_of_out s ha⟩

/-! PARSE (41_frame.md R141 to R144). -/

/-- The bit buffer begins with a whole frame whose checksum field is its bit count: PARSE's checks (41_frame.md
R142). -/
def State.WellFramed (s : State) : Prop :=
  48 + 8 * (s.bitByte 4).toNat ≤ s.regs.bitlen.toNat ∧
    s.ones (40 + 8 * (s.bitByte 4).toNat) % 256 = (s.bitByte (5 + (s.bitByte 4).toNat)).toNat

/-- The state in which PARSE completes on a well-formed frame. -/
def parseDone (s : State) : State := complete (.done (loadFrame s))

section
variable {s : State}

theorem frameGood_iff (hm : s.MemWf) : frameGood s = true ↔ s.WellFramed := by
  have hck : bodyChecksum s = s.bitByte (5 + (s.bitByte 4).toNat) ↔
      s.ones (40 + 8 * (s.bitByte 4).toNat) % 256 = (s.bitByte (5 + (s.bitByte 4).toNat)).toNat := by
    rw [← BitVec.toNat_inj, bodyChecksum, State.toNat_checksum_bits hm, declaredLen]
  rw [frameGood, Bool.and_eq_true, Bool.and_eq_true, decide_eq_true_eq, decide_eq_true_eq, beq_iff_eq, declaredLen,
    hck, State.WellFramed]
  constructor
  · rintro ⟨⟨_, hfits⟩, hsum⟩
    exact ⟨hfits, hsum⟩
  · rintro ⟨hfits, hsum⟩
    exact ⟨⟨by omega, hfits⟩, hsum⟩

theorem exec_parse_of_wellFramed (hm : s.MemWf) (h : s.WellFramed) : exec .parse s = .next (parseDone s) := by
  rw [exec_eq, bodyOf, parseBody, if_pos ((frameGood_iff hm).mpr h), parseDone]

theorem exec_parse_of_not_wellFramed (hm : s.MemWf) (h : ¬ s.WellFramed) :
    exec .parse s = .next { s with seq := .idle, regs := { s.regs with done := true, err := 0 } } := by
  rw [exec_eq, bodyOf, parseBody, if_neg (mt (frameGood_iff hm).mp h)]
  rfl

/-- CHK takes the checksum field, which a well-formed frame has equal to the computed checksum. -/
theorem parseDone_frame (hm : s.MemWf) (h : s.WellFramed) : parseDone s = { s with
    seq := .idle, mem := (parseDone s).mem
    regs := { s.regs with
      done := true, err := 0, frameOk := true, src := s.bitByte 0, dst := s.bitByte 1, typ := s.bitByte 2
      sqn := s.bitByte 3, len := s.bitByte 4, chk := s.bitByte (5 + (s.bitByte 4).toNat) } } := by
  have ⟨_, hsum⟩ := h
  have hck : s.bitByte (5 + (s.bitByte 4).toNat) = bodyChecksum s := by
    rw [← BitVec.toNat_inj, ← hsum, bodyChecksum, State.toNat_checksum_bits hm, declaredLen]
  rw [hck]
  rfl

theorem parseDone_chk (hm : s.MemWf) (h : s.WellFramed) :
    (parseDone s).regs.chk = s.bitByte (5 + (s.bitByte 4).toNat) :=
  congrArg (fun t => t.regs.chk) (parseDone_frame hm h)

theorem parseDone_pay (hm : s.MemWf) {k : Nat} (hk : k < (s.bitByte 4).toNat) :
    (parseDone s).pay k = s.bitByte (5 + k) := by
  have hwrite : (parseDone s).pay k = if h : k < (s.bytesAt 0x205 (s.bitByte 4).toNat).length
      then (s.bytesAt 0x205 (s.bitByte 4).toNat)[k] else s.pay k :=
    State.pay_writePays { s with regs := _ } _ k
  rw [hwrite, dif_pos (by rwa [State.bytesAt_length]), State.bytesAt_getElem hm, State.bitByte, ← Nat.add_assoc]

theorem parseDone_byteAt_of_out {a : Nat} (ha : a < 0x100 ∨ 0x100 + (s.bitByte 4).toNat ≤ a) :
    (parseDone s).byteAt a = s.byteAt a := by
  refine State.byteAt_writePays_of_out { s with regs := _ } (vs := s.bytesAt 0x205 (s.bitByte 4).toNat) ?_
  rwa [State.bytesAt_length]

theorem memWf_parseDone (hm : s.MemWf) : (parseDone s).MemWf := by
  have hlen := (s.bitByte 4).isLt
  refine State.memWf_writePays (s := { s with regs := _ }) hm (vs := s.bytesAt 0x205 (s.bitByte 4).toNat) ?_
  rw [State.bytesAt_length]
  omega

theorem parseDone_bitByte (i : Nat) : (parseDone s).bitByte i = s.bitByte i := by
  have hlen := (s.bitByte 4).isLt
  exact parseDone_byteAt_of_out (by omega)

end

/-- Settles O42: PARSE loads the frame when its checks pass, and only completes when one fails. -/
theorem parseChecksAndLoads : Obligations.ParseChecksAndLoads := by
  unfold Obligations.ParseChecksAndLoads
  refine ⟨fun s hm hfits hsum => ?_, fun s hm hbad => ?_⟩
  · have hframed : s.WellFramed := ⟨hfits, hsum⟩
    exact ⟨parseDone s, exec_parse_of_wellFramed hm hframed, parseDone_frame hm hframed,
      fun k hk => parseDone_pay hm hk, fun a ha => parseDone_byteAt_of_out ha⟩
  · refine exec_parse_of_not_wellFramed hm ?_
    rintro ⟨hfits, hsum⟩
    rcases hbad with hshort | hpast | hdiffers
    · omega
    · omega
    · exact hdiffers hsum

/-! One after the other (41_frame.md R145, R146). -/

theorem wellFramed_serDone {s : State} (hm : s.MemWf) : (serDone s).WellFramed := by
  have hlen : (serDone s).bitByte 4 = s.regs.len := serDone_bitByte rfl
  rw [State.WellFramed, hlen, serDone_bitlen, serDone_bitByte_checksum, serDone_chk_toNat hm]
  exact ⟨le_rfl, rfl⟩

/-- PARSE writes back the payload that SER took from PAY. -/
theorem parseDone_serDone_byteAt {s : State} (hm : s.MemWf) (a : Nat) :
    (parseDone (serDone s)).byteAt a = (serDone s).byteAt a := by
  have hlen : (serDone s).bitByte 4 = s.regs.len := serDone_bitByte rfl
  by_cases ha : a < 0x100 ∨ 0x100 + s.regs.len.toNat ≤ a
  · exact parseDone_byteAt_of_out (by rwa [hlen])
  · obtain ⟨k, rfl⟩ : ∃ k, a = 0x100 + k := ⟨a - 0x100, by omega⟩
    have hk : k < s.regs.len.toNat := by omega
    have hlt := s.regs.len.isLt
    have hpay : (parseDone (serDone s)).pay k = s.pay k := by
      rw [parseDone_pay (memWf_serDone hm) (by rwa [hlen]), serDone_bitByte_payload hm hk]
    rw [State.pay, State.pay] at hpay
    rw [hpay, serDone_byteAt_of_out s (by omega)]

/-- Settles O47: the frame SER stored passes PARSE's checks, and holds what the registers and PAY hold already. -/
theorem parseAcceptsWhatSerBuilt : Obligations.ParseAcceptsWhatSerBuilt := by
  unfold Obligations.ParseAcceptsWhatSerBuilt
  intro s t hm ht
  rw [exec_ser, Host.Outcome.next.injEq] at ht
  subst ht
  have hwf := memWf_serDone hm
  have hframed := wellFramed_serDone hm
  have hsrc : (serDone s).bitByte 0 = s.regs.src := serDone_bitByte rfl
  have hdst : (serDone s).bitByte 1 = s.regs.dst := serDone_bitByte rfl
  have htyp : (serDone s).bitByte 2 = s.regs.typ := serDone_bitByte rfl
  have hsqn : (serDone s).bitByte 3 = s.regs.sqn := serDone_bitByte rfl
  have hlen : (serDone s).bitByte 4 = s.regs.len := serDone_bitByte rfl
  have hload := parseDone_frame hwf hframed
  rw [hsrc, hdst, htyp, hsqn, hlen, serDone_bitByte_checksum] at hload
  exact ⟨parseDone (serDone s), exec_parse_of_wellFramed hwf hframed, hload, parseDone_serDone_byteAt hm⟩

section
variable {s : State} (hm : s.MemWf)
include hm

/-- SER stores the bytes that PARSE loaded where PARSE read them. -/
theorem serDone_parseDone_bitByte_body {i : Nat} (hi : i < 5 + (s.bitByte 4).toNat) :
    (serDone (parseDone s)).bitByte i = s.bitByte i := by
  match i with
  | 0 | 1 | 2 | 3 | 4 => exact serDone_bitByte rfl
  | k + 5 =>
    have hk : k < (s.bitByte 4).toNat := by omega
    rw [Nat.add_comm k 5, serDone_bitByte_payload (memWf_parseDone hm) hk, parseDone_pay hm hk]

variable (h : s.WellFramed)
include h

/-- SER computes the checksum that PARSE checked. -/
theorem serDone_parseDone_chk : (serDone (parseDone s)).regs.chk = (parseDone s).regs.chk := by
  have ⟨_, hsum⟩ := h
  have hones : (serDone (parseDone s)).ones (40 + 8 * (s.bitByte 4).toNat) = s.ones (40 + 8 * (s.bitByte 4).toNat) :=
    State.ones_congr fun i hi => State.bit_congr (serDone_parseDone_bitByte_body hm (by omega))
  rw [parseDone_chk hm h, ← BitVec.toNat_inj, ← hsum, ← hones]
  exact serDone_chk_toNat (memWf_parseDone hm)

theorem serDone_parseDone_bitByte (i : Nat) : (serDone (parseDone s)).bitByte i = s.bitByte i := by
  have hlen : (parseDone s).regs.len = s.bitByte 4 := rfl
  rcases Nat.lt_trichotomy i (5 + (s.bitByte 4).toNat) with hbody | rfl | hafter
  · exact serDone_parseDone_bitByte_body hm hbody
  · rw [← hlen, serDone_bitByte_checksum, serDone_parseDone_chk hm h, parseDone_chk hm h, hlen]
  · rw [State.bitByte, serDone_byteAt_of_out _ (by rw [hlen]; omega), ← State.bitByte, parseDone_bitByte]

end

/-- Settles O48: the frame PARSE loaded is the frame SER stores, byte by byte. -/
theorem serRebuildsWhatParseAccepted : Obligations.SerRebuildsWhatParseAccepted := by
  unfold Obligations.SerRebuildsWhatParseAccepted
  intro s t hm hclear ht hok
  by_cases h : s.WellFramed
  · rw [exec_parse_of_wellFramed hm h, Host.Outcome.next.injEq] at ht
    subst ht
    have hbytes := serDone_parseDone_bitByte hm h
    refine ⟨?_, serDone (parseDone s), exec_ser _, serDone_bitlen _, fun i _ => State.bit_congr (hbytes _),
      fun i => State.bit_congr ((hbytes _).trans (parseDone_bitByte _).symm)⟩
    rw [← serDone_parseDone_chk hm h, serDone_chk]
  · rw [exec_parse_of_not_wellFramed hm h, Host.Outcome.next.injEq] at ht
    subst ht
    exact absurd (hclear.symm.trans hok) Bool.false_ne_true

/-- Two states hold the same declared frame, within the available bits of both. -/
structure State.SameFrame (s s' : State) : Prop where
  fits : 48 + 8 * (s.bitByte 4).toNat ≤ s.regs.bitlen.toNat
  fits' : 48 + 8 * (s.bitByte 4).toNat ≤ s'.regs.bitlen.toNat
  bits : ∀ i, i < 48 + 8 * (s.bitByte 4).toNat → s'.bit i = s.bit i

section
variable {s s' : State} (h : s.SameFrame s')
include h

theorem State.SameFrame.bitByte {i : Nat} (hi : i < 6 + (s.bitByte 4).toNat) : s'.bitByte i = s.bitByte i :=
  State.bitByte_congr fun k hk => h.bits _ (by omega)

theorem State.SameFrame.wellFramed_iff : s'.WellFramed ↔ s.WellFramed := by
  have hlen : s'.bitByte 4 = s.bitByte 4 := h.bitByte (by omega)
  have hones : s'.ones (40 + 8 * (s.bitByte 4).toNat) = s.ones (40 + 8 * (s.bitByte 4).toNat) :=
    State.ones_congr fun i hi => h.bits i (by omega)
  rw [State.WellFramed, State.WellFramed, hlen, hones, h.bitByte (by omega)]
  exact and_congr_left fun _ => iff_of_true h.fits' h.fits

end

/-- Settles O49: the checks and the loaded fields read only the declared frame. -/
theorem trailingBitsTakeNoPart : Obligations.TrailingBitsTakeNoPart := by
  unfold Obligations.TrailingBitsTakeNoPart
  intro s s' t t' hm hm' hfits hfits' hregs hbits hpays ht ht'
  have hsame : s.SameFrame s' := ⟨hfits, hfits', hbits⟩
  by_cases h : s.WellFramed
  · have h' := hsame.wellFramed_iff.mpr h
    rw [exec_parse_of_wellFramed hm h, Host.Outcome.next.injEq] at ht
    rw [exec_parse_of_wellFramed hm' h', Host.Outcome.next.injEq] at ht'
    subst ht ht'
    have hlen : s'.bitByte 4 = s.bitByte 4 := hsame.bitByte (by omega)
    refine ⟨?_, fun k hk => ?_⟩
    · rw [parseDone_frame hm h, parseDone_frame hm' h']
      dsimp only
      rw [hlen, hsame.bitByte (i := 0) (by omega), hsame.bitByte (i := 1) (by omega),
        hsame.bitByte (i := 2) (by omega), hsame.bitByte (i := 3) (by omega), hsame.bitByte (by omega), hregs]
    · by_cases hload : k < (s.bitByte 4).toNat
      · rw [parseDone_pay hm hload, parseDone_pay hm' (by rwa [hlen]), hsame.bitByte (by omega)]
      · have hkept := hpays k hk
        rw [State.pay, State.pay] at hkept ⊢
        rw [parseDone_byteAt_of_out (by rw [hlen]; omega), parseDone_byteAt_of_out (by omega), hkept]
  · have h' := mt hsame.wellFramed_iff.mp h
    rw [exec_parse_of_not_wellFramed hm h, Host.Outcome.next.injEq] at ht
    rw [exec_parse_of_not_wellFramed hm' h', Host.Outcome.next.injEq] at ht'
    subst ht ht'
    exact ⟨by dsimp only; rw [hregs], hpays⟩

end Sys2Proof.Machine
end

section
/-! CKSUM and CKCHK: the bit count they take, the field CKCHK compares it with, and what a change of one bit does to
each (42_checksum.md R160 to R163). -/

namespace Sys2Proof.Machine

/-! The number a run of bits renders (42_checksum.md R162). -/

theorem msbNat_append_singleton (bs : List Bool) (b : Bool) : msbNat (bs ++ [b]) = 2 * msbNat bs + b.toNat := by
  rw [msbNat, List.foldl_append, List.foldl_cons, List.foldl_nil, msbNat]

theorem msbNat_lt (bs : List Bool) : msbNat bs < 2 ^ bs.length := by
  induction bs using List.reverseRecOn with
  | nil => exact Nat.one_pos
  | append_singleton bs b ih =>
    have hb := b.toNat_le
    rw [msbNat_append_singleton, List.length_append, List.length_singleton, Nat.pow_succ]
    omega

/-- The first bit weighs most. -/
theorem msbNat_map_range (f : Nat → Bool) (n : Nat) :
    msbNat ((List.range n).map f) = ∑ j ∈ Finset.range n, (f j).toNat * 2 ^ (n - 1 - j) := by
  induction n with
  | zero => rfl
  | succ n ih =>
    have hdouble : ∀ j ∈ Finset.range n, 2 * ((f j).toNat * 2 ^ (n - 1 - j)) = (f j).toNat * 2 ^ (n - j) := by
      intro j hj
      have hexp : n - j = n - 1 - j + 1 := by
        have := Finset.mem_range.mp hj
        omega
      rw [hexp, Nat.pow_succ]
      ring
    rw [List.range_succ, List.map_append, List.map_singleton, msbNat_append_singleton, ih, Finset.mul_sum,
      Finset.sum_congr rfl hdouble, Finset.sum_range_succ, Nat.add_sub_cancel, Nat.sub_self, Nat.pow_zero,
      Nat.mul_one]

theorem toNat_byteOfBits {bs : List Bool} (h : bs.length = 8) : (byteOfBits bs).toNat = msbNat bs := by
  have hlt := msbNat_lt bs
  rw [h] at hlt
  rw [byteOfBits, BitVec.toNat_ofNat, Nat.mod_eq_of_lt hlt]

theorem byteOfBits_inj {bs cs : List Bool} (hb : bs.length = 8) (hc : cs.length = 8) :
    byteOfBits bs = byteOfBits cs ↔ bs = cs := by
  refine ⟨fun h => ?_, congrArg byteOfBits⟩
  rw [← msb8_byteOfBits hb, h, msb8_byteOfBits hc]

/-! The checksum field: the last 8 bits of the bit buffer (42_checksum.md R162). -/

/-- The last 8 of the BITLEN bits, first bit most significant. -/
def State.checkField (s : State) : Byte :=
  byteOfBits ((List.range 8).map fun j => s.bit (s.regs.bitlen.toNat - 8 + j))

theorem State.bits_drop {s : State} (hm : s.MemWf) (m k : Nat) :
    (s.bits (m + k)).drop m = (List.range k).map fun j => s.bit (m + j) := by
  rw [State.bits_eq hm, List.range_add, List.map_append, List.drop_left' (by simp), List.map_map]
  rfl

theorem State.toNat_checkField (s : State) : s.checkField.toNat =
    ∑ j ∈ Finset.range 8, (s.bit (s.regs.bitlen.toNat - 8 + j)).toNat * 2 ^ (7 - j) := by
  rw [State.checkField, toNat_byteOfBits (by simp), msbNat_map_range]

/-- Equal fields have equal bits. -/
theorem State.bit_eq_of_checkField_eq {s s' : State} (hlen : s'.regs.bitlen = s.regs.bitlen)
    (h : s'.checkField = s.checkField) {j : Nat} (hj : j < 8) :
    s'.bit (s.regs.bitlen.toNat - 8 + j) = s.bit (s.regs.bitlen.toNat - 8 + j) := by
  rw [State.checkField, State.checkField, byteOfBits_inj (by simp) (by simp), List.map_inj_left, hlen] at h
  exact h j (List.mem_range.mpr hj)

theorem State.checkField_congr {s s' : State} (hlen : s'.regs.bitlen = s.regs.bitlen)
    (h : ∀ j < 8, s'.bit (s.regs.bitlen.toNat - 8 + j) = s.bit (s.regs.bitlen.toNat - 8 + j)) :
    s'.checkField = s.checkField := by
  rw [State.checkField, State.checkField, hlen]
  exact congrArg byteOfBits (List.map_congr_left fun j hj => h j (List.mem_range.mp hj))

/-! The bit count. -/

theorem State.ones_succ (s : State) (n : Nat) : s.ones (n + 1) = s.ones n + (s.bit n).toNat := by
  rw [State.ones, List.range_succ, List.countP_append, List.countP_singleton, ← State.ones]
  cases s.bit n <;> rfl

/-- The second buffer's first `n` bits are the first's with exactly bit `j` changed. -/
structure State.FlipsBit (s s' : State) (j n : Nat) : Prop where
  flipped : s'.bit j = !s.bit j
  kept : ∀ i < n, i ≠ j → s'.bit i = s.bit i

theorem State.FlipsBit.mono {s s' : State} {j m n : Nat} (h : s.FlipsBit s' j n) (hmn : m ≤ n) : s.FlipsBit s' j m :=
  ⟨h.flipped, fun i hi => h.kept i (by omega)⟩

/-- The count changes by what the changed bit does. -/
theorem State.FlipsBit.ones_add {s s' : State} {j n : Nat} (h : s.FlipsBit s' j n) (hj : j < n) :
    s'.ones n + (s.bit j).toNat = s.ones n + (s'.bit j).toNat := by
  induction n with
  | zero => omega
  | succ n ih =>
    rw [State.ones_succ, State.ones_succ]
    by_cases hlast : j = n
    · have hbefore : s'.ones n = s.ones n := State.ones_congr fun i hi => h.kept i (by omega) (by omega)
      rw [hbefore, hlast]
      omega
    · have hcount := ih (h.mono (by omega)) (by omega)
      rw [h.kept n (by omega) (by omega)]
      omega

/-- A count that changes by 1 changes modulo 256 (42_checksum.md R163). -/
theorem State.FlipsBit.ones_mod_ne {s s' : State} {j n : Nat} (h : s.FlipsBit s' j n) (hj : j < n) :
    s'.ones n % 256 ≠ s.ones n % 256 := by
  have hcount := h.ones_add hj
  rw [h.flipped] at hcount
  cases hbit : s.bit j with
  | false =>
    rw [hbit, Bool.not_false, Bool.toNat_false, Bool.toNat_true] at hcount
    omega
  | true =>
    rw [hbit, Bool.not_true, Bool.toNat_false, Bool.toNat_true] at hcount
    omega

/-! CKSUM (42_checksum.md R161). -/

/-- Settles O43: CKSUM's body writes the checksum of the BITLEN bits, and completion the flags. -/
theorem cksumCountsOneBits : Obligations.CksumCountsOneBits := by
  unfold Obligations.CksumCountsOneBits
  intro s hm
  exact ⟨complete (.done (cksumBody s)), exec_eq .cksum s, rfl, State.toNat_checksum_bits hm _⟩

/-! CKCHK (42_checksum.md R162, R163). -/

/-- The state in which CKCHK completes with at least 8 bits. -/
def ckchkDone (s : State) : State :=
  complete (.done ((s.setCkResult (checksum (s.bits (s.regs.bitlen.toNat - 8)))).setCkOk
    (checksum (s.bits (s.regs.bitlen.toNat - 8)) == s.checkField)))

theorem exec_ckchk_of_short {s : State} (h : s.regs.bitlen.toNat < 8) : exec .ckchk s =
    .next { s with seq := .idle, regs := { s.regs with done := true, err := 0, ckResult := 0 } } := by
  rw [exec_eq, bodyOf, ckchkBody, if_pos h]
  rfl

section
variable {s : State} (hm : s.MemWf)
include hm

theorem exec_ckchk_of_field (h : 8 ≤ s.regs.bitlen.toNat) : exec .ckchk s = .next (ckchkDone s) := by
  have hbody := State.bits_take s hm (Nat.sub_le s.regs.bitlen.toNat 8)
  have hfield := State.bits_drop hm (s.regs.bitlen.toNat - 8) 8
  rw [Nat.sub_add_cancel h] at hfield
  rw [exec_eq, bodyOf, ckchkBody, if_neg (Nat.not_lt.mpr h), hbody, hfield]
  rfl

theorem ckchkDone_ckResult : (ckchkDone s).regs.ckResult.toNat = s.ones (s.regs.bitlen.toNat - 8) % 256 :=
  State.toNat_checksum_bits hm _

theorem ckchkDone_ckOk : (ckchkDone s).regs.ckOk = true ↔
    s.ones (s.regs.bitlen.toNat - 8) % 256 = s.checkField.toNat := by
  rw [← State.toNat_checksum_bits hm, BitVec.toNat_inj]
  exact beq_iff_eq

end

/-- Settles O44: CKCHK cuts the BITLEN bits into the checked ones and the field. -/
theorem ckchkComparesTheLastEightBits : Obligations.CkchkComparesTheLastEightBits := by
  unfold Obligations.CkchkComparesTheLastEightBits
  refine ⟨fun s hshort => exec_ckchk_of_short hshort, fun s hm hlen => ?_⟩
  refine ⟨ckchkDone s, exec_ckchk_of_field hm hlen, rfl, ckchkDone_ckResult hm, ?_⟩
  rw [ckchkDone_ckOk hm, ckchkDone_ckResult hm, State.toNat_checkField]

/-- A changed body bit changes the count and not the field; a changed field bit changes the field and not the
count. -/
theorem State.FlipsBit.count_ne_checkField {s s' : State} {j : Nat} (h : s.FlipsBit s' j s.regs.bitlen.toNat)
    (hj : j < s.regs.bitlen.toNat) (h8 : 8 ≤ s.regs.bitlen.toNat) (hlen : s'.regs.bitlen = s.regs.bitlen)
    (hs : s.ones (s.regs.bitlen.toNat - 8) % 256 = s.checkField.toNat) :
    s'.ones (s'.regs.bitlen.toNat - 8) % 256 ≠ s'.checkField.toNat := by
  rw [hlen]
  by_cases hbody : j < s.regs.bitlen.toNat - 8
  · have hfield : s'.checkField = s.checkField :=
      State.checkField_congr hlen fun k hk => h.kept _ (by omega) (by omega)
    rw [hfield, ← hs]
    exact (h.mono (Nat.sub_le _ _)).ones_mod_ne hbody
  · have hones : s'.ones (s.regs.bitlen.toNat - 8) = s.ones (s.regs.bitlen.toNat - 8) :=
      State.ones_congr fun i hi => h.kept i (by omega) (by omega)
    obtain ⟨k, rfl⟩ : ∃ k, j = s.regs.bitlen.toNat - 8 + k := ⟨j - (s.regs.bitlen.toNat - 8), by omega⟩
    rw [hones, hs]
    intro hsame
    have hbit := State.bit_eq_of_checkField_eq hlen (BitVec.toNat_inj.mp hsame.symm) (j := k) (by omega)
    rw [h.flipped] at hbit
    exact Bool.not_ne_self _ hbit

/-- Settles O50: the changed bit lies in the body or in the field, and CKCHK compares the two. -/
theorem ckchkDetectsEverySingleBitError : Obligations.CkchkDetectsEverySingleBitError := by
  unfold Obligations.CkchkDetectsEverySingleBitError
  intro s s' t t' j hm hm' h8 hregs hj hflipped hkept ht ht' hok
  have hlen : s'.regs.bitlen = s.regs.bitlen := by rw [hregs]
  rw [exec_ckchk_of_field hm h8, Host.Outcome.next.injEq] at ht
  rw [exec_ckchk_of_field hm' (by rwa [hlen]), Host.Outcome.next.injEq] at ht'
  subst ht ht'
  have hdiffers := State.FlipsBit.count_ne_checkField ⟨hflipped, hkept⟩ hj h8 hlen ((ckchkDone_ckOk hm).mp hok)
  exact Bool.eq_false_of_not_eq_true (mt (ckchkDone_ckOk hm').mp hdiffers)

end Sys2Proof.Machine
end

section
/-! The life of a command: its acceptance by a CMD write, its completion at the sequencer's turn, and the STATUS word
that each leaves (43_sequencing.md R170 to R174, R177, R179). -/

namespace Sys2Proof.Machine

/-! Acceptance (43_sequencing.md R170, R173). -/

/-- Settles O6: a CMD write to an idle block is the host's answered access and acceptance. -/
theorem commandWriteAcceptedWhenIdle : Obligations.CommandWriteAcceptedWhenIdle := by
  unfold Obligations.CommandWriteAcceptedWhenIdle
  intro s w rest h hidle
  exact ⟨_, step_command_write_idle hidle h, rfl, Regs.statusWord_of_flagsClear s.regs.flagsClear_acceptClears⟩

/-- CMD is no input of the running command, so no CMD write is refused (20_memory.md R74). -/
theorem regWriteCause_cmd (s : State) (d : Word) : regWriteCause s .cmd d = none := rfl

theorem State.writeCmd_of_busy {s : State} {op : BitVec 8} (hs : s.seq = .busy op) (d : Word) :
    s.writeCmd d = { s with regs := { s.regs with ovr := true } } := by
  rw [State.writeCmd, hs]

/-- Settles O7: the write is made, and a BUSY block makes of it no more than OVR. -/
theorem commandWriteDroppedWhileBusy : Obligations.CommandWriteDroppedWhileBusy := by
  unfold Obligations.CommandWriteDroppedWhileBusy
  intro s op w rest h hbusy
  have hbusy' : (afterTurn s).seq = .busy op := hbusy
  rw [step_register_write_okay (k := 3) (r := .cmd) rfl h (regWriteCause_cmd s w), State.writeReg,
    State.writeCmd_of_busy hbusy']
  rfl

/-! Completion (43_sequencing.md R172, R174, R177). -/

/-- Settles O4: the sequencer's turn runs the command that its OP decodes to. -/
theorem stepRunsDecodedCommand : Obligations.StepRunsDecodedCommand := by
  unfold Obligations.StepRunsDecodedCommand
  intro s op i hbusy hdecode _ hturn
  exact step_sequencer_command hturn hbusy hdecode

/-- The sequencer's turn completes an OP that decodes to no command with ILLEGAL_OP. -/
theorem step_sequencer_illegal {s : State} {op : BitVec 8} {r : Reject} (ht : turnOf s = .sequencer)
    (hs : s.seq = .busy op) (hd : decodeOp op = .error r) :
    step s = .next (complete (.raise .illegalOp (afterTurn s))) := by
  simp [step, nextMove, ht, moveOf, sequencerMove, hs, hd, afterTurn]

/-- Completed with the flags acceptance leaves, STATUS holds DONE, OVR and the error code in bits [4:2]. -/
theorem Regs.statusWord_completeFlags {r : Regs} (h : r.FlagsClear) (e : CmdError) :
    (r.completeFlags e).statusWord false =
      (if r.ovr then 0x22 else 0x2 : Word) ||| e.code.setWidth 32 <<< 2 := by
  obtain ⟨_, _, hsync, hneg, hovf, hframe, hck⟩ := h
  simp only [Regs.statusWord, Regs.completeFlags_ckOk, Regs.completeFlags_frameOk, Regs.completeFlags_bitOvf,
    Regs.completeFlags_peakNeg, Regs.completeFlags_syncOk, Regs.completeFlags_ovr, Regs.completeFlags_err,
    Regs.completeFlags_done, hsync, hneg, hovf, hframe, hck]
  cases r.ovr <;> cases e <;> rfl

theorem State.readReg_status_finish {s : State} (h : s.regs.FlagsClear) (e : CmdError) :
    (s.finish e).readReg .status = (if s.regs.ovr then 0x22 else 0x2 : Word) ||| e.code.setWidth 32 <<< 2 :=
  Regs.statusWord_completeFlags h e

/-- Settles O5: an illegal OP has no body, so completion with code 1 is its only effect. -/
theorem illegalCommandCompletesWithError : Obligations.IllegalCommandCompletesWithError := by
  unfold Obligations.IllegalCommandCompletesWithError
  intro s op r hbusy hdecode hturn
  refine ⟨_, step_sequencer_illegal hturn hbusy hdecode, rfl, fun hclear => ?_⟩
  have hword := State.readReg_status_finish (s := afterTurn s) hclear .illegalOp
  refine hword.trans ?_
  show (if s.regs.ovr then (0x22 : Word) else 0x2) ||| 0x4 = _
  cases s.regs.ovr <;> rfl

/-- Settles O36: NOP's body is empty, so completion with code 0 is its only effect. -/
theorem nopOnlyCompletes : Obligations.NopOnlyCompletes := by
  unfold Obligations.NopOnlyCompletes
  intro s
  refine ⟨s.finish .none, exec_eq .nop s, rfl, fun hclear => ?_⟩
  rw [State.readReg_status_finish hclear]
  exact BitVec.or_zero

/-! Placing a command (log 5). -/

theorem decodeTableWord_eq_some_iff (w : Nat) (i : Instr) :
    decodeTableWord 32 w = some i ↔ (BitVec.ofNat 32 (w % 2 ^ 32)).extractLsb' 0 8 = opcode i := by
  rw [decodeTableWord, decodeBytes_wordBytes, ← decode_eq_ok_iff]
  cases decode (BitVec.ofNat 32 (w % 2 ^ 32)) <;> simp

/-- A placed word is accepted, and the sequencer's turn is next. -/
theorem State.withFetchWord_eq {s : State} {w : Nat} {i : Instr} (h : decodeTableWord 32 w = some i) :
    s.withFetchWord 32 w = { s.accept (opcode i) with rstN := true, turns := .sequencer :: s.turns } := by
  rw [State.withFetchWord, placeCommand, (decodeTableWord_eq_some_iff w i).mp h]

/-- Settles O55: the accepted OP is the command's, and decoding the OP held gives the command back. -/
theorem placedCommandRunsNext : Obligations.PlacedCommandRunsNext := by
  unfold Obligations.PlacedCommandRunsNext
  intro s w i h
  rw [State.withFetchWord_eq h]
  exact step_sequencer_command rfl rfl (decodeOp_opcode i)

end Sys2Proof.Machine
end

section
/-! A running command over the steps until its completion: the steps are finitely many, and none of them changes what
the command reads (43_sequencing.md R171, R180; log 4). -/

namespace Sys2Proof.Machine

/-! What a step takes off its environment's lists. -/

theorem State.writeCmd_turns (s : State) (d : Word) : (s.writeCmd d).turns = s.turns := by
  rw [State.writeCmd]
  split <;> rfl

theorem State.softReset_keeps_turns (s : State) : s.softReset.turns = s.turns := by
  obtain ⟨_, _, _, _, _, hturns, _⟩ := s.abortBuffers_rest
  exact hturns

theorem State.writeReg_turns (s : State) (r : RegName) (d : Word) : (s.writeReg r d).turns = s.turns := by
  cases r with
  | ctrl =>
    rw [State.writeReg]
    split
    · exact s.softReset_keeps_turns
    · rfl
  | cmd => exact s.writeCmd_turns d
  | id | cfg | status | irqEn | bitlen | samplen | frameHdr | frameLc | syncThr | syncLag | syncPeak | ckResult => rfl

theorem hostWrite_turns (s : State) (size : Size) (a : Nat) (d : Word) :
    (hostWrite s size a d).2.turns = s.turns := by
  rcases hostWrite_cases s size a d with ⟨_, he⟩ | ⟨r, _, _, _, _, he⟩ | ⟨_, _, _, _, he⟩ <;> rw [he]
  · exact s.writeReg_turns r d
  · rfl

theorem hostRead_turns (s : State) (size : Size) (a : Nat) : (hostRead s size a).2.turns = s.turns := by
  obtain ⟨k, hk⟩ := hostRead_state s size a
  rw [hk]

theorem hostAccess_turns (s : State) (op : HostOp) (rest : List HostOp) :
    (hostAccess s op rest).turns = s.turns := by
  cases op with
  | read size a => exact hostRead_turns s size a
  | write size a d => exact hostWrite_turns s size a d
  | poll a mask value => exact hostRead_turns s .four a

/-- A POLL may stay the next access; any other access is done. -/
theorem hostAccess_host (s : State) (op : HostOp) (rest : List HostOp) :
    (hostAccess s op rest).host = op :: rest ∨ (hostAccess s op rest).host = rest := by
  cases op with
  | read size a => exact .inr rfl
  | write size a d => exact .inr rfl
  | poll a mask value =>
    rw [hostAccess]
    dsimp only
    split
    · exact .inr rfl
    · exact .inl rfl

/-- A step takes the scheduler's choice off its list, and at most the next access off the host's. -/
theorem step_environment {s t : State} (h : step s = .next t) :
    t.turns = s.turns.tail ∧ (t.host = s.host ∨ t.host = s.host.tail) := by
  rcases step_cases s with ⟨_, _, he⟩ | ⟨_, i, _, _, _, he⟩ | ⟨_, _, _, _, _, he⟩ | ⟨_, _, he⟩ |
    ⟨op, rest, _, hhost, _, _, he⟩ | ⟨_, _, _, _, _, _, he⟩ | ⟨_, he⟩ | ⟨_, he⟩ <;>
    rw [he] at h
  · exact Host.Outcome.next.inj h ▸ ⟨rfl, .inl rfl⟩
  · have hframe := exec_frame h
    exact ⟨(congrArg State.turns hframe :), .inl (congrArg State.host hframe :)⟩
  · exact Host.Outcome.next.inj h ▸ ⟨rfl, .inl rfl⟩
  · exact Host.Outcome.next.inj h ▸ ⟨rfl, .inl rfl⟩
  · rw [← Host.Outcome.next.inj h, hhost]
    exact ⟨hostAccess_turns _ op rest, hostAccess_host _ op rest⟩
  · cases h
  · exact Host.Outcome.next.inj h ▸ ⟨rfl, .inl rfl⟩
  · rw [← Host.Outcome.next.inj h]
    split
    · exact ⟨rfl, .inl rfl⟩
    · exact ⟨rfl, .inl rfl⟩

/-! Fairness (43_sequencing.md R180). -/

theorem hostInSpace_step {s t : State} (h : s.HostInSpace) (hstep : step s = .next t) : t.HostInSpace := by
  obtain ⟨_, hhost | hhost⟩ := step_environment hstep <;> rw [State.HostInSpace, hhost]
  · exact h
  · rw [State.HostInSpace, List.all_eq_true] at h
    exact List.all_eq_true.mpr fun op hop => h op (List.mem_of_mem_tail hop)

/-- A host that stays inside the block space never stops the machine. -/
theorem exists_step_of_hostInSpace {s : State} (h : s.HostInSpace) : ∃ t, step s = .next t := by
  rcases step_next_or_outside s with hnext | ⟨op, rest, ⟨_, _, hhost⟩, hout⟩
  · exact hnext
  · rw [State.HostInSpace, hhost, List.all_cons, Bool.and_eq_true, HostOp.inBlockSpace_iff] at h
    obtain ⟨hin, _⟩ := h
    omega

/-- The sequencer's turn leaves the block IDLE. -/
theorem step_sequencer_idle {s t : State} (ht : turnOf s = .sequencer) (h : step s = .next t) : t.seq = .idle := by
  cases hs : s.seq with
  | idle =>
    have hstay : step s = .next (afterTurn s) := by
      simp [step, nextMove, ht, moveOf, sequencerMove, hs, afterTurn]
    rw [hstay, Host.Outcome.next.injEq] at h
    exact h ▸ hs
  | busy op =>
    cases hd : decodeOp op with
    | ok i =>
      rw [step_sequencer_command ht hs hd] at h
      exact congrArg State.seq (exec_frame h)
    | error r =>
      rw [step_sequencer_illegal ht hs hd, Host.Outcome.next.injEq] at h
      exact h ▸ rfl

theorem run_one_of_step {s t : State} (h : step s = .next t) : Sys2Proof.core.run 1 s = .next t :=
  run_succ_of_step h 0

/-- Settles O8, by induction on the scheduler's choices: each step takes one, and with none left a BUSY sequencer
moves. -/
theorem runningCommandEnds : Obligations.RunningCommandEnds := by
  unfold Obligations.RunningCommandEnds
  intro s op hbusy hspace
  induction hturns : s.turns generalizing s op with
  | nil =>
    obtain ⟨t, hstep⟩ := exists_step_of_hostInSpace hspace
    exact ⟨1, le_rfl, t, run_one_of_step hstep, step_sequencer_idle (turnOf_busy hturns hbusy) hstep⟩
  | cons turn turns ih =>
    obtain ⟨t, hstep⟩ := exists_step_of_hostInSpace hspace
    obtain ⟨htail, _⟩ := step_environment hstep
    rw [hturns, List.tail_cons] at htail
    cases hseq : t.seq with
    | idle => exact ⟨1, by simp, t, run_one_of_step hstep, hseq⟩
    | busy op' =>
      obtain ⟨k, hk, u, hrun, hidle⟩ := ih t op' hseq (hostInSpace_step hspace hstep) htail
      refine ⟨k + 1, ?_, u, (run_succ_of_step hstep k).trans hrun, hidle⟩
      rw [List.length_cons]
      omega

/-! What stays while a command runs (43_sequencing.md R171). -/

/-- Between the two states lies no more than what the host and the scheduler change while a command runs: DONE, OVR, the
interrupt enables, and what is not the block's. -/
def State.SameInputs (s t : State) : Prop := t = { s with
  regs := { s.regs with done := t.regs.done, ovr := t.regs.ovr, doneIe := t.regs.doneIe, ovrIe := t.regs.ovrIe }
  drawCount := t.drawCount, host := t.host, turns := t.turns, reply := t.reply }

theorem State.ne_idle_of_busy {s : State} (h : s.busy = true) : s.seq ≠ .idle := by simpa [State.busy] using h

section
variable {s : State} (hb : s.busy = true)
include hb

theorem State.writeCmd_sameInputs (d : Word) : s.SameInputs (s.writeCmd d) := by
  cases hs : s.seq with
  | idle => exact absurd hs (State.ne_idle_of_busy hb)
  | busy op =>
    rw [State.writeCmd_of_busy hs]
    rfl

/-- A register write that ends OKAY while BUSY and leaves the command running changes no input of it. -/
theorem State.writeReg_sameInputs {r : RegName} {d : Word} (hc : regWriteCause s r d = none)
    (hseq : (s.writeReg r d).seq = s.seq) : s.SameInputs (s.writeReg r d) := by
  obtain ⟨_, hidle, _⟩ := (regWriteCause_eq_none_iff s r d).mp hc
  cases r with
  | id | status | irqEn | syncLag | syncPeak | ckResult => rfl
  | cmd => exact State.writeCmd_sameInputs hb d
  | ctrl =>
    rw [State.writeReg] at hseq ⊢
    split at hseq
    next hreset => exact absurd hseq.symm (State.ne_idle_of_busy hb)
    next hreset =>
      rw [if_neg hreset]
      rfl
  | cfg | bitlen | samplen | frameHdr | frameLc | syncThr => exact absurd hb (by simp [hidle rfl])

theorem hostWrite_sameInputs {size : Size} {a : Nat} {d : Word}
    (hseq : (hostWrite s size a d).2.seq = s.seq) : s.SameInputs (hostWrite s size a d).2 := by
  rcases hostWrite_cases s size a d with ⟨_, he⟩ | ⟨r, _, _, _, hc, he⟩ | ⟨_, _, _, hidle, _⟩
  · rw [he]
    rfl
  · rw [he] at hseq ⊢
    exact State.writeReg_sameInputs hb hc hseq
  · exact absurd hb (by simp [hidle])

omit hb in
theorem hostRead_sameInputs (size : Size) (a : Nat) : s.SameInputs (hostRead s size a).2 := by
  obtain ⟨k, hk⟩ := hostRead_state s size a
  rw [hk]
  rfl

omit hb in
/-- The environment's own fields are no inputs. -/
theorem State.SameInputs.environment {t : State} (h : s.SameInputs t) (hosts : List HostOp) (turns : List Turn)
    (reply : Option Reply) : s.SameInputs { t with host := hosts, turns := turns, reply := reply } := by
  rw [State.SameInputs] at h ⊢
  rw [h]

theorem hostAccess_sameInputs {op : HostOp} {rest : List HostOp} (hseq : (hostAccess s op rest).seq = s.seq) :
    s.SameInputs (hostAccess s op rest) := by
  cases op with
  | read size a => exact (hostRead_sameInputs size a).environment _ _ _
  | write size a d => exact (hostWrite_sameInputs hb hseq).environment _ _ _
  | poll a mask value => exact (hostRead_sameInputs .four a).environment _ _ _

/-- A step that leaves the command running is a host access or an empty turn. -/
theorem step_sameInputs {t : State} (h : step s = .next t) (hseq : t.seq = s.seq) : s.SameInputs t := by
  have hne := State.ne_idle_of_busy hb
  have hturn : (afterTurn s).busy = true := hb
  rcases step_cases s with ⟨_, hidle, _⟩ | ⟨_, i, _, _, _, he⟩ | ⟨_, _, _, _, _, he⟩ | ⟨_, _, he⟩ |
    ⟨op, rest, _, _, _, _, he⟩ | ⟨_, _, _, _, _, _, he⟩ | ⟨_, he⟩ | ⟨_, he⟩
  · exact absurd hidle hne
  · rw [he] at h
    have hidle : t.seq = .idle := congrArg State.seq (exec_frame h)
    exact absurd (hseq.symm.trans hidle) hne
  · rw [he, Host.Outcome.next.injEq] at h
    subst h
    exact absurd hseq.symm hne
  · rw [he, Host.Outcome.next.injEq] at h
    subst h
    rfl
  · rw [he, Host.Outcome.next.injEq] at h
    subst h
    exact hostAccess_sameInputs hturn hseq
  · rw [he] at h
    cases h
  · rw [he, Host.Outcome.next.injEq] at h
    subst h
    exact absurd hseq.symm hne
  · rw [he, Host.Outcome.next.injEq] at h
    subst h
    split at hseq
    next hlevel =>
      rw [if_pos hlevel]
      rfl
    next => exact absurd hseq.symm hne

end

/-- Settles O15: the registers and buffers a command reads are not among what such a step changes. -/
theorem runningCommandInputsStay : Obligations.RunningCommandInputsStay := by
  unfold Obligations.RunningCommandInputsStay
  intro s t hb hstep hseq
  have hsame := step_sameInputs hb hstep hseq
  have hregs := congrArg State.regs hsame
  have hbytes : t.byteAt = s.byteAt := State.byteAt_congr (congrArg State.mem hsame :) (congrArg State.payGen hsame :)
    (congrArg State.bitGen hsame :) (congrArg State.sampGen hsame :)
  exact ⟨(congrArg Regs.scheme hregs :), (congrArg Regs.spb hregs :), (congrArg Regs.bitlen hregs :),
    (congrArg Regs.samplen hregs :), (congrArg Regs.frameHdrWord hregs :), (congrArg Regs.frameLcWord hregs :),
    (congrArg Regs.syncThr hregs :), congrFun hbytes⟩

end Sys2Proof.Machine
end

section
/-! The composite commands against their parts: a completion changes only what the next body writes over, so that TX is
SER and then MOD, and RX is DEMOD and then PARSE (43_sequencing.md R175, R176). -/

namespace Sys2Proof.Machine

/-! A body after a completion. -/

/-- A second completion decides: the first one's IDLE, DONE and ERR are written again. -/
theorem finish_finish (s : State) (e e' : CmdError) : (s.finish e).finish e' = s.finish e' := rfl

/-- MOD reads nothing that a completion writes. -/
theorem complete_modBody_finish (s : State) (e : CmdError) :
    complete (modBody (s.finish e)) = complete (modBody s) := by
  rcases modBody_cases s with ⟨hover, hbody⟩ | ⟨hfits, hbody⟩
  · rcases modBody_cases (s.finish e) with ⟨_, hbody'⟩ | ⟨hfits', _⟩
    · rw [hbody, hbody']
      rfl
    · exact absurd hfits' (Nat.not_le.mpr hover)
  · rcases modBody_cases (s.finish e) with ⟨hover', _⟩ | ⟨_, hbody'⟩
    · exact absurd hover' (Nat.not_lt.mpr hfits)
    · rw [hbody, hbody']
      rfl

/-- PARSE reads nothing that a completion writes. -/
theorem complete_parseBody_finish (s : State) (e : CmdError) :
    complete (.done (parseBody (s.finish e))) = complete (.done (parseBody s)) := by
  have hgood : frameGood (s.finish e) = frameGood s := rfl
  rw [parseBody, parseBody, hgood]
  split <;> rfl

/-! TX (43_sequencing.md R175). -/

theorem exec_tx (s : State) : exec .tx s = exec .mod (serDone s) := by
  rw [exec_eq, exec_eq, bodyOf, bodyOf, serDone]
  exact congrArg Host.Outcome.next (complete_modBody_finish (serBody s) .none).symm

/-- The samples of the preamble and the frame SER builds. -/
theorem serDone_waveform_length (s : State) :
    (8 + (serDone s).regs.bitlen.toNat) * (serDone s).n = (56 + 8 * s.regs.len.toNat) * s.n := by
  have hn : (serDone s).n = s.n := rfl
  rw [serDone_bitlen, hn, ← Nat.add_assoc]

/-- Settles O45: MOD runs on what SER left, and fits when the whole frame's waveform does. -/
theorem txIsSerThenMod : Obligations.TxIsSerThenMod := by
  unfold Obligations.TxIsSerThenMod
  intro s
  obtain ⟨t, ht⟩ := exec_next .mod (serDone s)
  refine ⟨serDone s, t, exec_ser s, ht, (exec_tx s).trans ht, fun hover => ?_, fun hfits => ?_⟩
  · rw [← serDone_waveform_length] at hover
    rw [exec_mod_of_overflow hover, Host.Outcome.next.injEq] at ht
    exact ht.symm
  · rw [← serDone_waveform_length] at hfits ⊢
    rw [exec_mod_of_fits hfits, Host.Outcome.next.injEq] at ht
    subst ht
    exact ⟨rfl, modDone_samplen hfits⟩

/-! RX (43_sequencing.md R176). -/

/-- The state in which DEMOD completes, whichever way it ends. -/
def demodEnd (s : State) : State := complete (.done (demodBody s))

theorem exec_demod (s : State) : exec .demod s = .next (demodEnd s) := exec_eq .demod s

theorem exec_rx (s : State) : exec .rx s = exec .parse (demodEnd s) := by
  rw [exec_eq, exec_eq, bodyOf, bodyOf, demodEnd]
  exact congrArg Host.Outcome.next (complete_parseBody_finish (demodBody s) .none).symm

/-- Of fewer samples than the preamble has DEMOD recovers no bit (40_modem.md R117). -/
theorem demodEnd_bitlen_of_short {s : State} (h : s.regs.samplen.toNat < 8 * s.n) : (demodEnd s).regs.bitlen = 0 := by
  have hend := exec_demod_of_short h
  rw [exec_demod, Host.Outcome.next.injEq] at hend
  rw [hend]
  rfl

/-- PARSE leaves alone what is shorter than any frame (41_frame.md R142). -/
theorem parseBody_of_short {s : State} (h : s.regs.bitlen.toNat < 48) : parseBody s = s := by
  have hbad : frameGood s = false := by simp [frameGood, Nat.not_le.mpr h]
  rw [parseBody, hbad]
  rfl

/-- Settles O46: PARSE runs on what DEMOD left, and fewer than 48 bits are no frame. -/
theorem rxIsDemodThenParse : Obligations.RxIsDemodThenParse := by
  unfold Obligations.RxIsDemodThenParse
  intro s
  refine ⟨demodEnd s, _, exec_demod s, exec_eq .parse _, (exec_rx s).trans (exec_eq .parse _),
    demodEnd_bitlen_of_short, fun hshort => ?_⟩
  rw [bodyOf, parseBody_of_short hshort]
  rfl

end Sys2Proof.Machine
end

section
/-! What a command changes: the registers and buffers of its write set, STATUS, and nothing else (43_sequencing.md
R172, R178). -/

namespace Sys2Proof.Machine

/-- The second state differs from the first in no register but STATUS and no buffer outside `ws`, and has its OVR. -/
structure ChangesOnly (ws : List Loc) (s t : State) : Prop where
  ovr : t.regs.ovr = s.regs.ovr
  reg : ∀ r : RegName, r ≠ .status → Loc.reg r ∉ ws → t.readReg r = s.readReg r
  buf : ∀ (b : Buffer) (a : Nat), Loc.buf b ∉ ws → b.holds a = true → t.byteAt a = s.byteAt a

theorem ChangesOnly.refl (ws : List Loc) (s : State) : ChangesOnly ws s s :=
  ⟨rfl, fun _ _ _ => rfl, fun _ _ _ _ => rfl⟩

/-- Two changes after one another stay inside every set that holds both. -/
theorem ChangesOnly.seq {ws ws' vs : List Loc} {s t u : State} (h : ChangesOnly ws s t) (h' : ChangesOnly ws' t u)
    (hvs : ∀ l ∈ ws ++ ws', l ∈ vs) : ChangesOnly vs s u where
  ovr := h'.ovr.trans h.ovr
  reg r hr hmem := (h'.reg r hr fun hw => hmem (hvs _ (List.mem_append_right ws hw))).trans
    (h.reg r hr fun hw => hmem (hvs _ (List.mem_append_left ws' hw)))
  buf b a hmem hb := (h'.buf b a (fun hw => hmem (hvs _ (List.mem_append_right ws hw))) hb).trans
    (h.buf b a (fun hw => hmem (hvs _ (List.mem_append_left ws' hw))) hb)

/-! Register updates. -/

section
variable {s : State}

theorem changesOnly_of_regs {ws : List Loc} {r' : Regs} (hovr : r'.ovr = s.regs.ovr)
    (hreg : ∀ r : RegName, r ≠ .status → Loc.reg r ∉ ws → State.readReg { s with regs := r' } r = s.readReg r) :
    ChangesOnly ws s { s with regs := r' } :=
  ⟨hovr, hreg, fun _ _ _ _ => rfl⟩

theorem finish_changesOnly (e : CmdError) : ChangesOnly [] s (s.finish e) := by
  refine ⟨rfl, fun r hr _ => ?_, fun _ _ _ _ => rfl⟩
  cases r with
  | status => exact absurd rfl hr
  | _ => rfl

theorem setBitlen_changesOnly (n : Nat) : ChangesOnly [.reg .bitlen] s (s.setBitlen n) := by
  refine changesOnly_of_regs rfl fun r _ hmem => ?_
  cases r with
  | bitlen => simp at hmem
  | _ => rfl

theorem setSamplen_changesOnly (n : Nat) : ChangesOnly [.reg .samplen] s (s.setSamplen n) := by
  refine changesOnly_of_regs rfl fun r _ hmem => ?_
  cases r with
  | samplen => simp at hmem
  | _ => rfl

theorem setChk_changesOnly (c : Byte) : ChangesOnly [.reg .frameLc] s (s.setChk c) := by
  refine changesOnly_of_regs rfl fun r _ hmem => ?_
  cases r with
  | frameLc => simp at hmem
  | _ => rfl

theorem setCkResult_changesOnly (c : Byte) : ChangesOnly [.reg .ckResult] s (s.setCkResult c) := by
  refine changesOnly_of_regs rfl fun r _ hmem => ?_
  cases r with
  | ckResult => simp at hmem
  | _ => rfl

theorem setCkOk_changesOnly (ok : Bool) : ChangesOnly [] s (s.setCkOk ok) := by
  refine changesOnly_of_regs rfl fun r hr _ => ?_
  cases r with
  | status => exact absurd rfl hr
  | _ => rfl

theorem syncFailed_changesOnly (p : Nat) :
    ChangesOnly [.reg .syncLag, .reg .syncPeak] s { s with regs := s.regs.syncFailed p } := by
  refine changesOnly_of_regs rfl fun r _ hmem => ?_
  cases r with
  | syncLag | syncPeak => simp at hmem
  | _ => rfl

theorem synced_changesOnly (p lag : Nat) (neg ovf : Bool) :
    ChangesOnly [.reg .syncLag, .reg .syncPeak] s { s with regs := s.regs.synced p lag neg ovf } := by
  refine changesOnly_of_regs rfl fun r hr hmem => ?_
  cases r with
  | status => exact absurd rfl hr
  | syncLag | syncPeak => simp at hmem
  | _ => rfl

theorem loadFrame_changesOnly (src dst typ sqn len chk : Byte) : ChangesOnly [.reg .frameHdr, .reg .frameLc] s
    { s with regs := s.regs.loadFrame src dst typ sqn len chk } := by
  refine changesOnly_of_regs rfl fun r hr hmem => ?_
  cases r with
  | status => exact absurd rfl hr
  | frameHdr | frameLc => simp at hmem
  | _ => rfl

/-! Buffer writes. -/

/-- A write of bytes inside one buffer's window leaves the other two alone. -/
theorem storeBytes_changesOnly {b : Buffer} {a : Nat} {vs : List Byte} (hlo : b.base ≤ a)
    (hhi : a + vs.length ≤ b.base + b.size) : ChangesOnly [.buf b] s (s.storeBytes a vs) := by
  refine ⟨rfl, fun r _ _ => by cases r <;> rfl, fun c k hmem hc => s.byteAt_storeBytes_of_out ?_⟩
  by_contra hin
  have hb : b.holds k = true := (b.holds_iff k).mpr (by omega)
  exact hmem (by rw [Buffer.holds_unique hb hc, List.mem_singleton])

theorem writeBits_changesOnly {bs : List Bool} (h : bs.length ≤ 4096) :
    ChangesOnly [.buf .bit] s (s.writeBits bs) := by
  refine storeBytes_changesOnly (b := .bit) le_rfl ?_
  rw [packBytes_length]
  simp only [Buffer.base, Buffer.size]
  omega

theorem writePays_changesOnly {vs : List Byte} (h : vs.length ≤ 256) :
    ChangesOnly [.buf .pay] s (s.writePays vs) :=
  storeBytes_changesOnly (b := .pay) le_rfl (Nat.add_le_add_left h _)

theorem writeSamps_changesOnly {vs : List Int} (h : vs.length ≤ 65536) :
    ChangesOnly [.buf .samp] s (s.writeSamps vs) := by
  refine storeBytes_changesOnly (b := .samp) le_rfl ?_
  rw [length_flatMap_const sampleBytes_length]
  simp only [Buffer.base, Buffer.size]
  omega

end

/-! Command bodies. -/

section
variable (s : State)

theorem modBody_changesOnly : ChangesOnly (writeSet .mod) s (modBody s).state := by
  rcases modBody_cases s with ⟨_, hbody⟩ | ⟨hfits, hbody⟩ <;> rw [hbody]
  · exact .refl _ s
  · exact (writeSamps_changesOnly (by rwa [wave_length, List.length_append, State.bits_length])).seq
      (setSamplen_changesOnly _) (by decide)

theorem demodFailed_changesOnly (p : Nat) : ChangesOnly (writeSet .demod) s (demodFailed s p) :=
  (syncFailed_changesOnly p).seq (setBitlen_changesOnly 0) (by decide)

theorem demodAt_changesOnly (r : List Int) (lag : Nat) (c : Int) :
    ChangesOnly (writeSet .demod) s (demodAt s r lag c) :=
  ((synced_changesOnly _ _ _ _).seq (writeBits_changesOnly (List.length_take_le _ _))
    (vs := [.reg .syncLag, .reg .syncPeak, .buf .bit]) (by decide)).seq (setBitlen_changesOnly _) (by decide)

theorem demodBody_changesOnly : ChangesOnly (writeSet .demod) s (demodBody s) := by
  rcases demodBody_cases s with ⟨_, hbody⟩ | ⟨_, _, hbody⟩ | ⟨_, _, hbody⟩ <;> rw [hbody]
  · exact demodFailed_changesOnly s _
  · exact demodFailed_changesOnly s _
  · exact demodAt_changesOnly s _ _ _

theorem serBody_changesOnly : ChangesOnly (writeSet .ser) s (serBody s) := by
  have hlen := s.regs.len.isLt
  have hbits : (frameBody s ++ msb8 (checksum (frameBody s))).length ≤ 4096 := by
    rw [List.length_append, frameBody_length, msb8_length]
    omega
  exact ((writeBits_changesOnly hbits).seq (setBitlen_changesOnly _) (vs := [.buf .bit, .reg .bitlen])
    (by decide)).seq (setChk_changesOnly _) (by decide)

theorem parseBody_changesOnly : ChangesOnly (writeSet .parse) s (parseBody s) := by
  have hlen := (declaredLen s).isLt
  rw [parseBody]
  split
  · exact (loadFrame_changesOnly _ _ _ _ _ _).seq
      (writePays_changesOnly (by rw [State.bytesAt_length]; omega)) (by decide)
  · exact .refl _ s

theorem ckchkBody_changesOnly : ChangesOnly (writeSet .ckchk) s (ckchkBody s) := by
  rw [ckchkBody]
  dsimp only
  split
  · exact setCkResult_changesOnly 0
  · exact (setCkResult_changesOnly _).seq (setCkOk_changesOnly _) (by decide)

/-- TX's write set holds those of SER and MOD, RX's those of DEMOD and PARSE. -/
theorem bodyOf_changesOnly (i : Instr) : ChangesOnly (writeSet i) s (bodyOf i s).state := by
  cases i with
  | nop => exact .refl _ s
  | mod => exact modBody_changesOnly s
  | demod => exact demodBody_changesOnly s
  | ser => exact serBody_changesOnly s
  | parse => exact parseBody_changesOnly s
  | cksum => exact setCkResult_changesOnly _
  | ckchk => exact ckchkBody_changesOnly s
  | tx => exact (serBody_changesOnly s).seq (modBody_changesOnly _) (by decide)
  | rx => exact (demodBody_changesOnly s).seq (parseBody_changesOnly _) (by decide)

end

theorem exec_changesOnly {i : Instr} {s t : State} (h : exec i s = .next t) : ChangesOnly (writeSet i) s t := by
  rw [exec_eq, Host.Outcome.next.injEq] at h
  exact h ▸ (bodyOf_changesOnly s i).seq (finish_changesOnly _) (by simp)

theorem exec_done {i : Instr} {s t : State} (h : exec i s = .next t) : t.regs.done = true := by
  rw [exec_eq, Host.Outcome.next.injEq] at h
  exact h ▸ rfl

/-- Settles O12: a body changes its write set, and completion STATUS and the sequencer. -/
theorem commandChangesOnlyItsWriteSet : Obligations.CommandChangesOnlyItsWriteSet := by
  unfold Obligations.CommandChangesOnlyItsWriteSet
  intro i s
  obtain ⟨t, ht⟩ := exec_next i s
  have hchanges := exec_changesOnly ht
  exact ⟨t, ht, congrArg State.seq (exec_frame ht), exec_done ht, hchanges.ovr, hchanges.reg, hchanges.buf,
    exec_frame ht⟩

end Sys2Proof.Machine
end

section
/-! What a command reads: from two states that agree on the operands, every command goes on to two states that agree on
the operands (43_sequencing.md R171, 70_reset_and_hazards.md R222, R231). -/

namespace Sys2Proof.Machine

/-- Two states with the same registers, and with the same bytes, bits and samples within the lengths those hold. -/
structure State.SameOperands (s s' : State) : Prop where
  memWf : s.MemWf
  memWf' : s'.MemWf
  regs : s'.regs = s.regs
  pay : ∀ k, k < s.regs.len.toNat → s'.pay k = s.pay k
  bit : ∀ j, j < s.regs.bitlen.toNat → s'.bit j = s.bit j
  samp : ∀ j, j < s.regs.samplen.toNat → s'.samp j = s.samp j

/-! The operand views under a write to another buffer. -/

section
variable (s : State)

theorem State.samp_congr {s t : State} {j : Nat} (h : ∀ a, 0x20000 ≤ a → t.byteAt a = s.byteAt a) :
    t.samp j = s.samp j := by
  rw [State.samp, State.samp, h _ (by omega), h _ (by omega)]

theorem State.pay_writeBits (bs : List Bool) {k : Nat} (hk : k < 256) : (s.writeBits bs).pay k = s.pay k :=
  s.byteAt_writeBits_of_out (by omega)

theorem State.samp_writeBits {bs : List Bool} (h : bs.length ≤ 4096) (j : Nat) :
    (s.writeBits bs).samp j = s.samp j :=
  State.samp_congr fun _ ha => s.byteAt_writeBits_of_out (by omega)

theorem State.bit_writePays {vs : List Byte} (h : vs.length ≤ 256) (j : Nat) : (s.writePays vs).bit j = s.bit j :=
  State.bit_congr (s.byteAt_writePays_of_out (by omega))

theorem State.samp_writePays {vs : List Byte} (h : vs.length ≤ 256) (j : Nat) :
    (s.writePays vs).samp j = s.samp j :=
  State.samp_congr fun _ ha => s.byteAt_writePays_of_out (by omega)

theorem State.pay_writeSamps (vs : List Int) {k : Nat} (hk : k < 256) : (s.writeSamps vs).pay k = s.pay k :=
  s.byteAt_writeSamps_of_out (by omega)

theorem State.bit_writeSamps (vs : List Int) {j : Nat} (hj : j < 8192) : (s.writeSamps vs).bit j = s.bit j :=
  State.bit_congr (s.byteAt_writeSamps_of_out (by omega))

end

namespace State.SameOperands
variable {s s' : State} (h : s.SameOperands s')
include h

theorem symm : s'.SameOperands s where
  memWf := h.memWf'
  memWf' := h.memWf
  regs := h.regs.symm
  pay k hk := (h.pay k (by rwa [← h.regs])).symm
  bit j hj := (h.bit j (by rwa [← h.regs])).symm
  samp j hj := (h.samp j (by rwa [← h.regs])).symm

/-! What the commands take from the operands is the same. -/

theorem n_eq : s'.n = s.n := congrArg (fun r : Regs => r.spb.toNat) h.regs

theorem pays_eq : s'.pays s.regs.len.toNat = s.pays s.regs.len.toNat := by
  rw [State.pays, State.pays, State.bytesAt_eq h.memWf, State.bytesAt_eq h.memWf']
  exact List.map_congr_left fun k hk => h.pay k (List.mem_range.mp hk)

theorem bits_eq : s'.bits s.regs.bitlen.toNat = s.bits s.regs.bitlen.toNat := by
  rw [State.bits_eq h.memWf, State.bits_eq h.memWf']
  exact List.map_congr_left fun j hj => h.bit j (List.mem_range.mp hj)

theorem samps_eq : s'.samps s.regs.samplen.toNat = s.samps s.regs.samplen.toNat := by
  rw [State.samps_eq h.memWf, State.samps_eq h.memWf']
  exact List.map_congr_left fun j hj => h.samp j (List.mem_range.mp hj)

theorem frameBody_eq : frameBody s' = frameBody s := by
  rw [frameBody, h.regs, h.pays_eq, frameBody]

/-! Writes that keep the agreement: a length covers no more than what the write itself gives. -/

theorem after_setRegs {r : Regs} (hlen : r.len = s.regs.len) (hbitlen : r.bitlen.toNat ≤ s.regs.bitlen.toNat)
    (hsamplen : r.samplen = s.regs.samplen) : SameOperands { s with regs := r } { s' with regs := r } where
  memWf := h.memWf
  memWf' := h.memWf'
  regs := rfl
  pay k hk := h.pay k (hlen ▸ hk)
  bit j hj := h.bit j (hj.trans_le hbitlen)
  samp j hj := h.samp j (hsamplen ▸ hj)

theorem after_writeBits {r : Regs} {bs : List Bool} (hbs : bs.length ≤ 4096) (hlen : r.len = s.regs.len)
    (hbitlen : r.bitlen.toNat ≤ bs.length) (hsamplen : r.samplen = s.regs.samplen) :
    SameOperands { s.writeBits bs with regs := r } { s'.writeBits bs with regs := r } where
  memWf := State.memWf_writeBits h.memWf hbs
  memWf' := State.memWf_writeBits h.memWf' hbs
  regs := rfl
  pay k hk := by
    have hk' : k < s.regs.len.toNat := hlen ▸ hk
    have hlt := s.regs.len.isLt
    exact (s'.pay_writeBits bs (by omega)).trans ((h.pay k hk').trans (s.pay_writeBits bs (by omega)).symm)
  bit j hj := by
    have hj' : j < bs.length := hj.trans_le hbitlen
    have hwrite := State.bit_writeBits h.memWf bs j
    have hwrite' := State.bit_writeBits h.memWf' bs j
    rw [dif_pos hj'] at hwrite hwrite'
    exact hwrite'.trans hwrite.symm
  samp j hj := (s'.samp_writeBits hbs j).trans ((h.samp j (hsamplen ▸ hj)).trans (s.samp_writeBits hbs j).symm)

theorem after_writePays {r : Regs} {vs : List Byte} (hvs : vs.length ≤ 256) (hlen : r.len.toNat ≤ vs.length)
    (hbitlen : r.bitlen = s.regs.bitlen) (hsamplen : r.samplen = s.regs.samplen) :
    SameOperands { s.writePays vs with regs := r } { s'.writePays vs with regs := r } where
  memWf := State.memWf_writePays h.memWf hvs
  memWf' := State.memWf_writePays h.memWf' hvs
  regs := rfl
  pay k hk := by
    have hk' : k < vs.length := hk.trans_le hlen
    have hwrite := State.pay_writePays s vs k
    have hwrite' := State.pay_writePays s' vs k
    rw [dif_pos hk'] at hwrite hwrite'
    exact hwrite'.trans hwrite.symm
  bit j hj := (s'.bit_writePays hvs j).trans ((h.bit j (hbitlen ▸ hj)).trans (s.bit_writePays hvs j).symm)
  samp j hj := (s'.samp_writePays hvs j).trans ((h.samp j (hsamplen ▸ hj)).trans (s.samp_writePays hvs j).symm)

theorem after_writeSamps {r : Regs} {vs : List Int} (hvs : vs.length ≤ 65536) (hlen : r.len = s.regs.len)
    (hbitlen : r.bitlen = s.regs.bitlen) (hsamplen : r.samplen.toNat ≤ vs.length) :
    SameOperands { s.writeSamps vs with regs := r } { s'.writeSamps vs with regs := r } where
  memWf := State.memWf_writeSamps h.memWf hvs
  memWf' := State.memWf_writeSamps h.memWf' hvs
  regs := rfl
  pay k hk := by
    have hk' : k < s.regs.len.toNat := hlen ▸ hk
    have hlt := s.regs.len.isLt
    exact (s'.pay_writeSamps vs (by omega)).trans ((h.pay k hk').trans (s.pay_writeSamps vs (by omega)).symm)
  bit j hj := by
    have hj' : j < s.regs.bitlen.toNat := hbitlen ▸ hj
    have hlt := s.regs.bitlen.isLt
    exact (s'.bit_writeSamps vs (by omega)).trans ((h.bit j hj').trans (s.bit_writeSamps vs (by omega)).symm)
  samp j hj := by
    have hj' : j < vs.length := hj.trans_le hsamplen
    have hwrite := State.samp_writeSamps s vs j
    have hwrite' := State.samp_writeSamps s' vs j
    rw [dif_pos hj'] at hwrite hwrite'
    exact hwrite'.trans hwrite.symm

/-! Command bodies. -/

theorem modBody_error : (modBody s').error = (modBody s).error := by
  simp only [modBody, h.regs, h.n_eq]
  split <;> rfl

theorem after_modBody : SameOperands (modBody s).state (modBody s').state := by
  have hcases := modBody_cases s'
  rw [h.regs, h.n_eq, h.bits_eq] at hcases
  rcases modBody_cases s with ⟨hover, hbody⟩ | ⟨hfits, hbody⟩
  · rcases hcases with ⟨_, hbody'⟩ | ⟨hfits', _⟩
    · rw [hbody, hbody']
      exact h
    · omega
  · rcases hcases with ⟨hover', _⟩ | ⟨_, hbody'⟩
    · omega
    · have hwave : (wave s.regs.scheme s.n (Config.preamble ++ s.bits s.regs.bitlen.toNat)).length =
          (8 + s.regs.bitlen.toNat) * s.n := by
        rw [wave_length, List.length_append, State.bits_length]
        rfl
      rw [hbody, hbody']
      simp only [BodyEnd.state, State.setSamplen, State.writeSamps_regs, h.regs]
      exact h.after_writeSamps (by omega) rfl rfl (hwave ▸ toNat_ofNat_le le_rfl)

theorem after_serBody : SameOperands (serBody s) (serBody s') := by
  have hlt := s.regs.len.isLt
  have hlength : (frameBody s ++ msb8 (checksum (frameBody s))).length = 48 + 8 * s.regs.len.toNat := by
    rw [List.length_append, frameBody_length, msb8_length]
    omega
  simp only [serBody, State.setChk, State.setBitlen, State.writeBits_regs, h.frameBody_eq, h.regs]
  exact h.after_writeBits (by omega) rfl (hlength ▸ toNat_ofNat_le le_rfl) rfl

theorem after_demodFailed (p : Nat) : SameOperands (demodFailed s p) (demodFailed s' p) := by
  simp only [demodFailed, State.setBitlen, h.regs]
  exact h.after_setRegs rfl (Nat.zero_le _) rfl

theorem after_demodAt (r : List Int) (lag : Nat) (c : Int) :
    SameOperands (demodAt s r lag c) (demodAt s' r lag c) := by
  simp only [demodAt, State.setBitlen, State.writeBits_regs, h.regs, h.n_eq]
  refine h.after_writeBits ?_ rfl ?_ rfl
  · exact List.length_take_le _ _
  · rw [List.length_take, demodBits_length, Nat.min_comm]
    exact toNat_ofNat_le le_rfl

theorem after_demodBody : SameOperands (demodBody s) (demodBody s') := by
  simp only [demodBody, h.regs, h.n_eq, h.samps_eq]
  split
  · exact h.after_demodFailed 0
  · split
    · exact h.after_demodFailed _
    · exact h.after_demodAt _ _ _

/-- A whole frame within BITLEN is the same frame in both states. -/
theorem sameFrame (hfits : 48 + 8 * (s.bitByte 4).toNat ≤ s.regs.bitlen.toNat) : s.SameFrame s' :=
  ⟨hfits, h.regs ▸ hfits, fun i hi => h.bit i (hi.trans_le hfits)⟩

theorem wellFramed (hframed : s.WellFramed) : s'.WellFramed := by
  have ⟨hfits, _⟩ := hframed
  exact (h.sameFrame hfits).wellFramed_iff.mpr hframed

/-- What PARSE loads is what it stores to PAY and to the frame registers. -/
theorem after_loadFrame (hfits : 48 + 8 * (s.bitByte 4).toNat ≤ s.regs.bitlen.toNat) :
    SameOperands (loadFrame s) (loadFrame s') := by
  have hframe := h.sameFrame hfits
  have hlt := (declaredLen s).isLt
  have hdeclared : declaredLen s' = declaredLen s := hframe.bitByte (by omega)
  have hck : bodyChecksum s' = bodyChecksum s := by
    rw [bodyChecksum, bodyChecksum, hdeclared, State.bits_eq h.memWf, State.bits_eq h.memWf']
    exact congrArg checksum (List.map_congr_left fun i hi =>
      hframe.bits i ((List.mem_range.mp hi).trans_le (Nat.add_le_add_right (by decide) _)))
  have hpayload : s'.bytesAt 0x205 (declaredLen s).toNat = s.bytesAt 0x205 (declaredLen s).toNat := by
    rw [State.bytesAt_eq h.memWf, State.bytesAt_eq h.memWf']
    refine List.map_congr_left fun k hk => ?_
    have hk' : k < (s.bitByte 4).toNat := List.mem_range.mp hk
    have hbyte := hframe.bitByte (i := 5 + k) (by omega)
    rwa [State.bitByte, State.bitByte, ← Nat.add_assoc] at hbyte
  simp only [loadFrame, hdeclared, hck, hpayload, h.regs, hframe.bitByte (i := 0) (by omega),
    hframe.bitByte (i := 1) (by omega), hframe.bitByte (i := 2) (by omega), hframe.bitByte (i := 3) (by omega)]
  refine h.after_writePays ?_ ?_ rfl rfl
  · rw [State.bytesAt_length]
    omega
  · rw [State.bytesAt_length]
    rfl

theorem after_parseBody : SameOperands (parseBody s) (parseBody s') := by
  by_cases hframed : s.WellFramed
  · have ⟨hfits, _⟩ := hframed
    rw [parseBody, parseBody, if_pos ((frameGood_iff h.memWf).mpr hframed),
      if_pos ((frameGood_iff h.memWf').mpr (h.wellFramed hframed))]
    exact h.after_loadFrame hfits
  · rw [parseBody, parseBody, if_neg (mt (frameGood_iff h.memWf).mp hframed),
      if_neg (mt (frameGood_iff h.memWf').mp (mt h.symm.wellFramed hframed))]
    exact h

theorem after_cksumBody : SameOperands (cksumBody s) (cksumBody s') := by
  simp only [cksumBody, State.setCkResult, h.regs, h.bits_eq]
  exact h.after_setRegs rfl le_rfl rfl

theorem after_ckchkBody : SameOperands (ckchkBody s) (ckchkBody s') := by
  simp only [ckchkBody, State.setCkResult, State.setCkOk, h.regs, h.bits_eq]
  split
  · exact h.after_setRegs rfl le_rfl rfl
  · exact h.after_setRegs rfl le_rfl rfl

theorem bodyOf_error (i : Instr) : (bodyOf i s').error = (bodyOf i s).error := by
  cases i with
  | mod => exact h.modBody_error
  | tx => exact h.after_serBody.modBody_error
  | nop | demod | ser | parse | cksum | ckchk | rx => exact (rfl : CmdError.none = CmdError.none)

theorem after_bodyOf (i : Instr) : SameOperands (bodyOf i s).state (bodyOf i s').state := by
  cases i with
  | nop => exact h
  | mod => exact h.after_modBody
  | demod => exact h.after_demodBody
  | ser => exact h.after_serBody
  | parse => exact h.after_parseBody
  | cksum => exact h.after_cksumBody
  | ckchk => exact h.after_ckchkBody
  | tx => exact h.after_serBody.after_modBody
  | rx => exact h.after_demodBody.after_parseBody

/-- The operands do not depend on the sequencer or on STATUS. -/
theorem after_finish (e : CmdError) : SameOperands (s.finish e) (s'.finish e) where
  memWf := h.memWf
  memWf' := h.memWf'
  regs := congrArg (Regs.completeFlags · e) h.regs
  pay := h.pay
  bit := h.bit
  samp := h.samp

theorem after_exec {i : Instr} {t t' : State} (ht : exec i s = .next t) (ht' : exec i s' = .next t') :
    SameOperands t t' := by
  rw [exec_eq, Host.Outcome.next.injEq] at ht ht'
  subst ht ht'
  rw [complete, complete, h.bodyOf_error]
  exact (h.after_bodyOf i).after_finish _

end State.SameOperands

/-- Settles O14: every command takes only operands, and covers with its lengths only what it wrote or what was covered
before. -/
theorem commandsReadOnlyTheirOperands : Obligations.CommandsReadOnlyTheirOperands := by
  unfold Obligations.CommandsReadOnlyTheirOperands
  intro i s s' t t' hm hm' hregs hpay hbit hsamp ht ht'
  have hsame : s.SameOperands s' := ⟨hm, hm', hregs, hpay, hbit, hsamp⟩
  have hafter := hsame.after_exec ht ht'
  exact ⟨hafter.regs, hafter.pay, hafter.bit, hafter.samp⟩

end Sys2Proof.Machine
end

section
/-! A frame over a noiseless ASK channel: RX of the samples TX left (95_test_vectors.md S1; 43_sequencing.md R175,
R176). -/

namespace Sys2Proof.Machine

theorem memWf_exec {i : Instr} {s t : State} (hm : s.MemWf) (h : exec i s = .next t) : t.MemWf := by
  rw [exec_eq, Host.Outcome.next.injEq] at h
  exact h ▸ memWf_bodyOf i hm

theorem pay_exec {i : Instr} {s t : State} (h : exec i s = .next t) (hi : Loc.buf .pay ∉ writeSet i) {k : Nat}
    (hk : k < 256) : t.pay k = s.pay k :=
  (exec_changesOnly h).buf .pay _ hi ((Buffer.pay_holds_iff _).mpr (by omega))

/-! PARSE of a buffer that holds the frame SER built. -/

section
variable {s d : State} (hm : s.MemWf) (hsame : (serDone s).SameFrame d)
include hm hsame

theorem wellFramed_of_sameFrame_serDone : d.WellFramed := hsame.wellFramed_iff.mpr (wellFramed_serDone hm)

omit hm in
theorem bitByte_of_sameFrame_serDone {i : Nat} {v : Byte} (hi : i < 6 + s.regs.len.toNat)
    (hv : (serDone s).bitByte i = v) : d.bitByte i = v := by
  have hlen : (serDone s).bitByte 4 = s.regs.len := serDone_bitByte rfl
  exact (hsame.bitByte (by rwa [hlen])).trans hv

omit hm in
theorem parseDone_len_of_sameFrame_serDone : (parseDone d).regs.len = s.regs.len :=
  bitByte_of_sameFrame_serDone hsame (i := 4) (by omega) (serDone_bitByte rfl)

omit hm in
theorem parseDone_frameHdrWord_of_sameFrame_serDone :
    (parseDone d).regs.frameHdrWord = s.regs.frameHdrWord := by
  have hsrc : (parseDone d).regs.src = s.regs.src :=
    bitByte_of_sameFrame_serDone hsame (i := 0) (by omega) (serDone_bitByte rfl)
  have hdst : (parseDone d).regs.dst = s.regs.dst :=
    bitByte_of_sameFrame_serDone hsame (i := 1) (by omega) (serDone_bitByte rfl)
  have htyp : (parseDone d).regs.typ = s.regs.typ :=
    bitByte_of_sameFrame_serDone hsame (i := 2) (by omega) (serDone_bitByte rfl)
  have hsqn : (parseDone d).regs.sqn = s.regs.sqn :=
    bitByte_of_sameFrame_serDone hsame (i := 3) (by omega) (serDone_bitByte rfl)
  rw [Regs.frameHdrWord, Regs.frameHdrWord, hsrc, hdst, htyp, hsqn]

variable (hd : d.MemWf)
include hd

theorem parseDone_chk_of_sameFrame_serDone : (parseDone d).regs.chk = (serDone s).regs.chk := by
  have hlen : d.bitByte 4 = s.regs.len := parseDone_len_of_sameFrame_serDone hsame
  rw [parseDone_chk hd (wellFramed_of_sameFrame_serDone hm hsame), hlen]
  exact bitByte_of_sameFrame_serDone hsame (by omega) serDone_bitByte_checksum

theorem parseDone_pay_of_sameFrame_serDone {k : Nat} (hk : k < s.regs.len.toNat) : (parseDone d).pay k = s.pay k := by
  have hlen : d.bitByte 4 = s.regs.len := parseDone_len_of_sameFrame_serDone hsame
  rw [parseDone_pay hd (by rwa [hlen])]
  exact bitByte_of_sameFrame_serDone hsame (by omega) (serDone_bitByte_payload hm hk)

end

/-! The round trip. -/

/-- DEMOD of the samples TX left finds the preamble and the frame SER built. -/
theorem ask_demod_of_tx {s t : State} (hm : s.MemWf) (hask : s.regs.scheme = .ask) (hN : 1 ≤ s.n)
    (hfits : (56 + 8 * s.regs.len.toNat) * s.n ≤ 65536) (hthr : s.regs.syncThr.toNat ≤ 8 * s.n * 2 ^ 14)
    (ht : exec .tx s = .next t) :
    (demodEnd t).regs.syncOk = true ∧ (serDone s).SameFrame (demodEnd t) := by
  have hlt := s.regs.len.isLt
  have hbitlen := serDone_bitlen s
  rw [← serDone_waveform_length] at hfits
  obtain ⟨d, hdemod, hsync, _, _, _, _, hlen, hbits⟩ :=
    askDemodRecoversModulatedBits (serDone s) t (memWf_serDone hm) hask hN (by omega) hfits hthr ((exec_tx s).symm.trans ht)
  rw [exec_demod, Host.Outcome.next.injEq] at hdemod
  subst hdemod
  obtain ⟨hframe, _⟩ := wellFramed_serDone hm
  exact ⟨hsync, hframe, hlen ▸ hframe, fun i hi => hbits i (hi.trans_le hframe)⟩

/-- TX changes no frame register but CHK, which takes SER's checksum (43_sequencing.md R175). -/
theorem tx_chk {s t : State} (hfits : (56 + 8 * s.regs.len.toNat) * s.n ≤ 65536) (ht : exec .tx s = .next t) :
    t.regs.chk = (serDone s).regs.chk := by
  rw [← serDone_waveform_length] at hfits
  rw [exec_tx, exec_mod_of_fits hfits, Host.Outcome.next.injEq] at ht
  exact ht ▸ rfl

/-- Settles O52: DEMOD gives back the frame SER built, and PARSE loads it. -/
theorem askRxRecoversTransmittedFrame : Obligations.AskRxRecoversTransmittedFrame := by
  unfold Obligations.AskRxRecoversTransmittedFrame
  intro s t hm hask hN hfits hthr ht
  obtain ⟨hsync, hsame⟩ := ask_demod_of_tx hm hask hN hfits hthr ht
  have hd : (demodEnd t).MemWf := memWf_exec (memWf_exec hm ht) (exec_demod t)
  have hrx : exec .rx t = .next (parseDone (demodEnd t)) :=
    (exec_rx t).trans (exec_parse_of_wellFramed hd (wellFramed_of_sameFrame_serDone hm hsame))
  refine ⟨_, hrx, hsync, rfl, parseDone_frameHdrWord_of_sameFrame_serDone hsame,
    parseDone_len_of_sameFrame_serDone hsame,
    (parseDone_chk_of_sameFrame_serDone hm hsame hd).trans (tx_chk hfits ht).symm, fun k hk => ?_⟩
  by_cases hload : k < s.regs.len.toNat
  · exact parseDone_pay_of_sameFrame_serDone hm hsame hd hload
  · have hlen : (demodEnd t).bitByte 4 = s.regs.len := parseDone_len_of_sameFrame_serDone hsame
    calc (parseDone (demodEnd t)).pay k
        = (demodEnd t).pay k := parseDone_byteAt_of_out (by rw [hlen]; omega)
      _ = t.pay k := pay_exec (exec_demod t) (by decide) hk
      _ = s.pay k := pay_exec ht (by decide) hk

end Sys2Proof.Machine
end

section
/-! Exceptions: which accesses end in a bus error and what such an access does, the error code of a completion, and the
IRQ line (60_exceptions.md R190 to R198). -/

namespace Sys2Proof.Machine

/-! The causes of any access, BE1 to BE3 (60_exceptions.md R191). -/

theorem accessCause_ne_none_iff (size : Size) {a : Nat} (ha : a < 262144) :
    accessCause size a ≠ none ↔
      ((0x038 ≤ a ∧ a ≤ 0x0FF) ∨ (0x00400 ≤ a ∧ a ≤ 0x1FFFF)) ∨ (a ≤ 0x037 ∧ size ≠ .four) ∨
        a % size.bytes ≠ 0 := by
  rcases locate_cases a with ⟨hreg, r, _, hloc⟩ | ⟨b, hb, hloc⟩ | ⟨hlo, hout, hloc⟩
  · have hwidth : a ≤ 0x037 := by omega
    have hmapped : ¬((0x038 ≤ a ∧ a ≤ 0x0FF) ∨ (0x00400 ≤ a ∧ a ≤ 0x1FFFF)) := by omega
    by_cases h4 : size = .four <;> simp [accessCause, hloc, hwidth, hmapped, h4]
  · have hwindow := (exists_holds_iff a).mp ⟨b, hb⟩
    have hregister : ¬ a ≤ 0x037 := by omega
    have hmapped : ¬((0x038 ≤ a ∧ a ≤ 0x0FF) ∨ (0x00400 ≤ a ∧ a ≤ 0x1FFFF)) := by omega
    simp [accessCause, hloc, hregister, hmapped]
  · have hwindow : ¬ ∃ b : Buffer, b.holds a = true := fun ⟨b, hb⟩ => by
      rw [locate_of_holds hb] at hloc
      cases hloc
    rw [exists_holds_iff] at hwindow
    have hunmapped : (0x038 ≤ a ∧ a ≤ 0x0FF) ∨ (0x00400 ≤ a ∧ a ≤ 0x1FFFF) := by omega
    simp [accessCause, hloc, hunmapped]

/-! Reads that end in a bus error. -/

theorem hostRead_of_cause {s : State} {size : Size} {a : Nat} (h : accessCause size a ≠ none) :
    hostRead s size a = (.readError 0, s) := by
  obtain ⟨e, he⟩ := Option.ne_none_iff_exists'.mp h
  rw [hostRead, he]

theorem hostRead_eq_readError_iff (s : State) (size : Size) (a : Nat) (d : Word) :
    (hostRead s size a).1 = .readError d ↔ accessCause size a ≠ none ∧ d = 0 := by
  rcases hostRead_cases s size a with ⟨hc, h⟩ | ⟨_, hc, _, _, h⟩ | ⟨_, hc, _, _, h⟩
  · rw [h, Reply.readError.injEq]
    exact ⟨fun hd => ⟨hc, hd.symm⟩, fun ⟨_, hd⟩ => hd.symm⟩
  · simp [h, hc]
  · simp [h, hc]

/-- Settles O17: a read has no cause beyond those of any access. -/
theorem readBusErrorsAreTheThreeCauses : Obligations.ReadBusErrorsAreTheThreeCauses := by
  unfold Obligations.ReadBusErrorsAreTheThreeCauses
  intro s size a ha
  simp only [hostRead_eq_readError_iff, ← accessCause_ne_none_iff size ha]
  exact ⟨⟨fun ⟨_, hc, _⟩ => hc, fun hc => ⟨0, hc, rfl⟩⟩, fun _ ⟨_, hd⟩ => hd⟩

/-! Writes that end in a bus error. -/

theorem hostWrite_eq_writeError_iff (s : State) (size : Size) (a : Nat) (d : Word) :
    (hostWrite s size a d).1 = .writeError ↔ writeCause s size a d ≠ none := by
  refine ⟨fun herror hc => ?_, fun hc => by rw [hostWrite_of_cause hc]⟩
  rcases hostWrite_cases s size a d with ⟨hc', _⟩ | ⟨_, _, _, _, _, h⟩ | ⟨_, _, _, _, h⟩
  · exact hc' hc
  · rw [h] at herror; cases herror
  · rw [h] at herror; cases herror

theorem writeCause_of_accessCause {s : State} {size : Size} {a : Nat} {d : Word} (h : accessCause size a ≠ none) :
    writeCause s size a d ≠ none := by
  obtain ⟨e, he⟩ := Option.ne_none_iff_exists'.mp h
  simp [writeCause, he]

theorem writeCause_register {s : State} {k : Nat} {r : RegName} {d : Word} (hk : registers[k]? = some r) :
    writeCause s .four (4 * k) d = regWriteCause s r d := by
  simp [writeCause, accessCause_register hk, locate_register hk]

/-- BE5 is the only cause that a buffer adds. -/
theorem writeCause_buffer_ne_none_iff {s : State} {size : Size} {a : Nat} {d : Word} {b : Buffer}
    (hc : accessCause size a = none) (hb : b.holds a = true) :
    writeCause s size a d ≠ none ↔ s.busy = true := by
  simp [writeCause, hc, locate_of_holds hb]

/-! The causes of a register write, BE4 to BE7, at the offsets of the registers (10_state.md R20). -/

theorem RegName.readOnly_iff (r : RegName) :
    r.readOnly = true ↔ r = .id ∨ r = .syncLag ∨ r = .syncPeak ∨ r = .ckResult := by
  cases r <;> decide

theorem RegName.input_iff (r : RegName) :
    r.input = true ↔ r = .cfg ∨ r = .bitlen ∨ r = .samplen ∨ r = .frameHdr ∨ r = .frameLc ∨ r = .syncThr := by
  cases r <;> decide

/-- No register stands at two offsets. -/
theorem register_eq_iff {j k : Nat} {q r : RegName} (hj : registers[j]? = some q) (hk : registers[k]? = some r) :
    r = q ↔ 4 * k = 4 * j := by
  have hnodup : registers.Nodup := by decide
  constructor
  · rintro rfl
    rw [(List.getElem?_inj (lt_of_registers hk) hnodup).mp (hk.trans hj.symm)]
  · intro h
    obtain rfl : k = j := by omega
    exact Option.some.inj (hk.symm.trans hj)

theorem regWriteCause_ne_none_iff (s : State) (r : RegName) (d : Word) :
    regWriteCause s r d ≠ none ↔
      r.readOnly = true ∨ (s.busy = true ∧ r.input = true) ∨ (r = .cfg ∧ ¬ cfgLegal d = true) ∨
        (r = .bitlen ∧ 4096 < d.toNat % 8192) ∨ (r = .samplen ∧ 65536 < d.toNat % 131072) := by
  have hbitlen : (d.extractLsb' 0 13).toNat = d.toNat % 8192 := BitVec.extractLsb'_toNat 0 13 d
  have hsamplen : (d.extractLsb' 0 17).toNat = d.toNat % 131072 := BitVec.extractLsb'_toNat 0 17 d
  rw [Ne, regWriteCause_eq_none_iff, hbitlen, hsamplen, ← Bool.not_eq_true, ← Bool.not_eq_true, ← Nat.not_le,
    ← Nat.not_le]
  tauto

/-- The causes of a register write, by the register's offset (60_exceptions.md R191). -/
theorem regWriteCause_ne_none_iff_offset {s : State} {k : Nat} {r : RegName} (hk : registers[k]? = some r)
    (d : Word) : regWriteCause s r d ≠ none ↔
      (4 * k = 0x000 ∨ 4 * k = 0x02C ∨ 4 * k = 0x030 ∨ 4 * k = 0x034) ∨
      (s.busy = true ∧ (4 * k = 0x004 ∨ 4 * k = 0x018 ∨ 4 * k = 0x01C ∨ 4 * k = 0x020 ∨ 4 * k = 0x024 ∨
        4 * k = 0x028)) ∨
      (4 * k = 0x004 ∧ (d.toNat % 4 = 3 ∨ d.toNat / 65536 % 512 = 0 ∨ 256 < d.toNat / 65536 % 512)) ∨
      (4 * k = 0x018 ∧ 4096 < d.toNat % 8192) ∨ (4 * k = 0x01C ∧ 65536 < d.toNat % 131072) := by
  rw [regWriteCause_ne_none_iff, RegName.readOnly_iff, RegName.input_iff, cfgLegal_iff, not_not,
    register_eq_iff (j := 0) (q := .id) rfl hk, register_eq_iff (j := 1) (q := .cfg) rfl hk,
    register_eq_iff (j := 6) (q := .bitlen) rfl hk, register_eq_iff (j := 7) (q := .samplen) rfl hk,
    register_eq_iff (j := 8) (q := .frameHdr) rfl hk, register_eq_iff (j := 9) (q := .frameLc) rfl hk,
    register_eq_iff (j := 10) (q := .syncThr) rfl hk, register_eq_iff (j := 11) (q := .syncLag) rfl hk,
    register_eq_iff (j := 12) (q := .syncPeak) rfl hk, register_eq_iff (j := 13) (q := .ckResult) rfl hk]

/-- Settles O16: with a cause of BE1 to BE3 both sides hold; without one the write names a register at its offset, with
the causes BE4 to BE7, or a buffer, with BE5. -/
theorem writeBusErrorsAreTheSevenCauses : Obligations.WriteBusErrorsAreTheSevenCauses := by
  unfold Obligations.WriteBusErrorsAreTheSevenCauses
  intro s size a d ha
  have haccess := accessCause_ne_none_iff size ha
  rw [hostWrite_eq_writeError_iff]
  by_cases hc : accessCause size a = none
  · obtain ⟨hmapped, hwidth, haligned⟩ :
        ¬((0x038 ≤ a ∧ a ≤ 0x0FF) ∨ (0x00400 ≤ a ∧ a ≤ 0x1FFFF)) ∧ ¬(a ≤ 0x037 ∧ size ≠ .four) ∧
          ¬ a % size.bytes ≠ 0 := by
      rw [← not_or, ← not_or, ← haccess]
      exact not_not.mpr hc
    simp only [hmapped, hwidth, haligned, false_or]
    rcases locate_cases a with ⟨hreg, r, hr, _⟩ | ⟨b, hb, _⟩ | ⟨_, _, hnone⟩
    · obtain rfl : size = .four := by_contra fun h4 => hwidth ⟨by omega, h4⟩
      have hal : 4 * (a / 4) = a := by
        simp only [Size.bytes] at haligned
        omega
      have hbuffer : ¬ 0x100 ≤ a := by omega
      have hcause := writeCause_register (s := s) (d := d) hr
      have hoffset := regWriteCause_ne_none_iff_offset (s := s) hr d
      rw [hal] at hcause hoffset
      simpa only [hcause, hbuffer, or_false, Nat.reducePow] using hoffset
    · have hwindow := (exists_holds_iff a).mp ⟨b, hb⟩
      rw [writeCause_buffer_ne_none_iff hc hb]
      constructor
      · exact fun hbusy => .inr (.inl ⟨hbusy, by omega⟩)
      · rintro (hro | ⟨hbusy, _⟩ | ⟨hcfg, _⟩ | ⟨hbitlen, _⟩ | ⟨hsamplen, _⟩)
        · omega
        · exact hbusy
        · omega
        · omega
        · omega
    · simp [accessCause, hnone] at hc
  · exact iff_of_true (writeCause_of_accessCause hc) ((haccess.mp hc).imp_right (Or.imp_right Or.inl))

/-! What an access that ends in a bus error does (60_exceptions.md R190). -/

/-- Settles O18: such an access has a cause, and a cause leaves no more than the answer. -/
theorem busErrorChangesNothing : Obligations.BusErrorChangesNothing := by
  unfold Obligations.BusErrorChangesNothing
  constructor
  · intro s size a d rest h ha herror
    exact step_write_refused h ha ((hostWrite_eq_writeError_iff s size a d).mp herror)
  · intro s size a d rest h ha herror
    obtain ⟨hc, _⟩ := (hostRead_eq_readError_iff s size a d).mp herror
    rw [step_read h ha, hostRead_of_cause hc]
    rfl

/-! The error code of a completion (60_exceptions.md R196). -/

theorem CmdError.code_injective : Function.Injective CmdError.code := by
  intro e e' h
  cases e <;> cases e' <;> revert h <;> decide

theorem decodeOp_eq_ok_iff (op : BitVec 8) (i : Instr) : decodeOp op = .ok i ↔ op = opcode i := by
  have hop : (op.setWidth 32).extractLsb' 0 8 = op := by
    apply BitVec.eq_of_toNat_eq
    simp [op.isLt]
  rw [decodeOp, decode_eq_ok_iff, hop]

/-- The error with which the held OP completes: its command's, or ILLEGAL_OP when it has no command. -/
def completionError (op : BitVec 8) (s : State) : CmdError :=
  match decodeOp op with
  | .ok i => (bodyOf i s).error
  | .error _ => .illegalOp

theorem completionError_of_ok {op : BitVec 8} {i : Instr} (h : decodeOp op = .ok i) (s : State) :
    completionError op s = (bodyOf i s).error := by
  rw [completionError, h]

theorem completionError_of_error {op : BitVec 8} {r : Reject} (h : decodeOp op = .error r) (s : State) :
    completionError op s = .illegalOp := by
  rw [completionError, h]

/-- At the sequencer's turn ERR takes the code of the completion (43_sequencing.md R172). -/
theorem step_err {s t : State} {op : BitVec 8} (hs : s.seq = .busy op) (ht : turnOf s = .sequencer)
    (h : step s = .next t) : t.regs.err = (completionError op (afterTurn s)).code := by
  rcases hd : decodeOp op with r | i
  · rw [step_sequencer_illegal ht hs hd, Host.Outcome.next.injEq] at h
    rw [← h, completionError_of_error hd]
    rfl
  · rw [step_sequencer_command ht hs hd, exec_eq, Host.Outcome.next.injEq] at h
    rw [← h, completionError_of_ok hd]
    rfl

/-- MOD's body raises CAPACITY or nothing (40_modem.md R116). -/
theorem modBody_error_eq (s : State) :
    (modBody s).error = if 65536 < (8 + s.regs.bitlen.toNat) * s.n then .capacity else .none := by
  rcases modBody_cases s with ⟨hover, h⟩ | ⟨hfits, h⟩
  · rw [h, if_pos hover]
    rfl
  · rw [h, if_neg (Nat.not_lt.mpr hfits)]
    rfl

/-- TX raises what MOD raises on the frame SER built (43_sequencing.md R175). -/
theorem modBody_serBody_error_eq (s : State) :
    (modBody (serBody s)).error = if 65536 < (56 + 8 * s.regs.len.toNat) * s.n then .capacity else .none := by
  have hlen : (8 + (serBody s).regs.bitlen.toNat) * (serBody s).n = (56 + 8 * s.regs.len.toNat) * s.n :=
    serDone_waveform_length s
  rw [modBody_error_eq, hlen]

theorem bodyOf_error_ne_illegalOp (i : Instr) (s : State) : (bodyOf i s).error ≠ .illegalOp := by
  cases i with
  | mod => rw [bodyOf, modBody_error_eq]; split <;> decide
  | tx => rw [bodyOf, modBody_serBody_error_eq]; split <;> decide
  | nop | demod | ser | parse | cksum | ckchk | rx => exact nofun

theorem bodyOf_error_eq_capacity_iff (i : Instr) (s : State) : (bodyOf i s).error = .capacity ↔
    (i = .mod ∧ 65536 < (8 + s.regs.bitlen.toNat) * s.n) ∨
      (i = .tx ∧ 65536 < (56 + 8 * s.regs.len.toNat) * s.n) := by
  cases i with
  | mod => simp [bodyOf, modBody_error_eq]
  | tx => simp [bodyOf, modBody_serBody_error_eq]
  | nop | demod | ser | parse | cksum | ckchk | rx => simp [bodyOf, BodyEnd.error]

theorem completionError_eq_illegalOp_iff (op : BitVec 8) (s : State) :
    completionError op s = .illegalOp ↔ ∃ r, decodeOp op = .error r := by
  rcases hd : decodeOp op with r | i
  · simp [completionError_of_error hd]
  · simp [completionError_of_ok hd, bodyOf_error_ne_illegalOp]

theorem completionError_eq_capacity_iff (op : BitVec 8) (s : State) : completionError op s = .capacity ↔
    (op = 0x01 ∧ 65536 < (8 + s.regs.bitlen.toNat) * s.n) ∨
      (op = 0x30 ∧ 65536 < (56 + 8 * s.regs.len.toNat) * s.n) := by
  have hmod : op = 0x01 ↔ decodeOp op = .ok .mod := (decodeOp_eq_ok_iff op .mod).symm
  have htx : op = 0x30 ↔ decodeOp op = .ok .tx := (decodeOp_eq_ok_iff op .tx).symm
  rw [hmod, htx]
  rcases hd : decodeOp op with r | i
  · simp [completionError_of_error hd]
  · simp [completionError_of_ok hd, bodyOf_error_eq_capacity_iff]

/-- Settles O13: ERR holds the code of the completion's error, and the three errors have three codes. -/
theorem commandErrorCodesAreTheThree : Obligations.CommandErrorCodesAreTheThree := by
  unfold Obligations.CommandErrorCodesAreTheThree
  intro s t op hbusy hturn hstep
  have hcode (e : CmdError) :
      (completionError op (afterTurn s)).code = e.code ↔ completionError op (afterTurn s) = e :=
    CmdError.code_injective.eq_iff
  rw [step_err hbusy hturn hstep]
  refine ⟨(hcode .illegalOp).trans (completionError_eq_illegalOp_iff op _),
    (hcode .capacity).trans (completionError_eq_capacity_iff op _), ?_⟩
  cases completionError op (afterTurn s) <;> decide

/-! The IRQ line (60_exceptions.md R198). -/

theorem Regs.statusWord_done (r : Regs) (busy : Bool) : (r.statusWord busy).getLsbD 1 = r.done := by
  simp only [Regs.statusWord, BitVec.getLsbD_append]
  simp [flag]

theorem Regs.statusWord_ovr (r : Regs) (busy : Bool) : (r.statusWord busy).getLsbD 5 = r.ovr := by
  simp only [Regs.statusWord, BitVec.getLsbD_append]
  simp [flag]

theorem Regs.irqEnWord_doneIe (r : Regs) : r.irqEnWord.getLsbD 0 = r.doneIe := by
  simp only [Regs.irqEnWord, BitVec.getLsbD_append]
  simp [flag]

theorem Regs.irqEnWord_ovrIe (r : Regs) : r.irqEnWord.getLsbD 1 = r.ovrIe := by
  simp only [Regs.irqEnWord, BitVec.getLsbD_append]
  simp [flag]

/-- Settles O32: bits 1 and 5 of STATUS and bits 0 and 1 of IRQ_EN are the four stored fields of the formula. -/
theorem irqLineFollowsStatusAndEnable : Obligations.IrqLineFollowsStatusAndEnable := by
  unfold Obligations.IrqLineFollowsStatusAndEnable
  intro s
  rw [State.readReg, State.readReg, Regs.statusWord_done, Regs.statusWord_ovr, Regs.irqEnWord_doneIe,
    Regs.irqEnWord_ovrIe, State.irq]

end Sys2Proof.Machine
end

section
/-! The two resets (70_reset_and_hazards.md R220 to R224): the register values both leave, the buffers each makes
unspecified, and the steps that make them. -/

namespace Sys2Proof.Machine

/-! The registers and the IRQ line after a reset (70_reset_and_hazards.md R221). -/

/-- An IDLE block answers the reads of the register window, in the order of the offsets, with the current words. -/
theorem hostRead_registers_idle {t : State} (hs : t.seq = .idle) :
    (List.range 14).map (fun k => (hostRead t .four (4 * k)).1) =
      registers.map (fun r => .readOkay (t.readReg r)) := by
  refine List.ext_getElem (by simp [registers_length]) fun k _ hk => ?_
  rw [List.length_map] at hk
  rw [List.getElem_map, List.getElem_range, List.getElem_map, hostRead_register t (List.getElem?_eq_getElem hk),
    if_neg (by simp [State.runningWriteSet_of_idle hs])]

/-- The register words depend on the registers and the sequencer only. -/
theorem State.readReg_congr {s t : State} (hregs : t.regs = s.regs) (hseq : t.seq = s.seq) :
    t.readReg = s.readReg := by
  funext r
  simp [State.readReg, State.busy, hregs, hseq]

theorem map_readReg_reset : registers.map (fun r => Reply.readOkay (State.reset.readReg r)) =
    [.readOkay 0x4D440001, .readOkay 0x00100000, .readOkay 0, .readOkay 0, .readOkay 0, .readOkay 0, .readOkay 0,
      .readOkay 0, .readOkay 0, .readOkay 0, .readOkay 0x00040000, .readOkay 0, .readOkay 0, .readOkay 0] := by
  decide

/-- Reset clears DONE and OVR, the two sources of IRQ (60_exceptions.md R198). -/
theorem State.irq_of_regs_reset {t : State} (h : t.regs = Regs.reset) : t.irq = false := by
  simp [State.irq, h, Regs.reset]

theorem State.irq_of_rstN_low {s : State} (h : s.rstN = false) : s.irq = false := by
  rw [State.irq, h, Bool.false_and]

/-- Settles O33: all three states are IDLE with the reset registers, which is all that the reads and IRQ depend on. -/
theorem resetRegisterValues : Obligations.ResetRegisterValues := by
  unfold Obligations.ResetRegisterValues
  intro s t ht
  have ⟨hregs, hseq⟩ : t.regs = Regs.reset ∧ t.seq = .idle := by
    rcases ht with rfl | rfl | rfl <;> exact ⟨rfl, rfl⟩
  refine ⟨?_, State.irq_of_regs_reset hregs, hseq⟩
  rw [hostRead_registers_idle hseq, State.readReg_congr (s := State.reset) hregs hseq, map_readReg_reset]

/-! Unspecified buffers (10_state.md R46; log 1, log 3). -/

theorem inBuffers_of_holds {b : Buffer} {a : Nat} (hb : b.holds a = true) : inBuffers a = true := by
  obtain ⟨hlo, hhi⟩ := (b.holds_iff a).mp hb
  exact inBuffers_of_mem hlo hhi

/-- The draw counter of a buffer (log 1). -/
def State.generation (s : State) : Buffer → Nat
  | .pay => s.payGen
  | .bit => s.bitGen
  | .samp => s.sampGen

/-- The draw of a buffer byte is of its own buffer's generation. -/
theorem State.draw_of_holds (s : State) {b : Buffer} {a : Nat} (hb : b.holds a = true) :
    s.draw a = Config.drawByte (s.generation b) a := by
  cases b with
  | pay =>
    rw [Buffer.pay_holds_iff] at hb
    rw [State.draw, if_pos (by omega), State.generation]
  | bit =>
    rw [Buffer.bit_holds_iff] at hb
    rw [State.draw, if_neg (by omega), if_pos (by omega), State.generation]
  | samp =>
    rw [Buffer.samp_holds_iff] at hb
    rw [State.draw, if_neg (by omega), if_neg (by omega), State.generation]

theorem State.byteAt_of_lookup_eq_none {s : State} {b : Buffer} {a : Nat} (hb : b.holds a = true)
    (h : s.mem.lookup a = none) : s.byteAt a = Config.drawByte (s.generation b) a := by
  rw [State.byteAt, h, Option.getD_none, s.draw_of_holds hb]

/-- A buffer becoming unspecified advances its own draw counter only. -/
theorem State.generation_unspecify (s : State) (b c : Buffer) :
    (s.unspecify b).generation c = if b = c then s.generation c + 1 else s.generation c := by
  cases b <;> cases c <;> rfl

/-! The abort of a soft reset (70_reset_and_hazards.md R224). -/

theorem State.generation_unspecifyIfWritten (s : State) (b c : Buffer) :
    (s.unspecifyIfWritten b).generation c =
      if b = c ∧ Loc.buf b ∈ s.runningWriteSet then s.generation c + 1 else s.generation c := by
  by_cases hb : Loc.buf b ∈ s.runningWriteSet <;>
    simp [State.unspecifyIfWritten, hb, State.generation_unspecify]

theorem State.lookup_unspecifyIfWritten (s : State) (b : Buffer) (a : Nat) :
    (s.unspecifyIfWritten b).mem.lookup a =
      if b.holds a = true ∧ Loc.buf b ∈ s.runningWriteSet then none else s.mem.lookup a := by
  by_cases hb : Loc.buf b ∈ s.runningWriteSet <;>
    simp [State.unspecifyIfWritten, hb, Memory.lookup_forget]

/-- Each buffer of the running command's write set takes one new draw. -/
theorem State.generation_abortBuffers (s : State) (b : Buffer) :
    s.abortBuffers.generation b = if Loc.buf b ∈ s.runningWriteSet then s.generation b + 1 else s.generation b := by
  cases b <;> simp [State.abortBuffers, State.generation_unspecifyIfWritten]

/-- No byte of such a buffer stays listed. -/
theorem State.lookup_abortBuffers (s : State) {b : Buffer} {a : Nat} (hb : b.holds a = true)
    (hw : Loc.buf b ∈ s.runningWriteSet) : s.abortBuffers.mem.lookup a = none := by
  cases b <;> simp [State.abortBuffers, State.lookup_unspecifyIfWritten, hb, hw]

/-! The soft reset (70_reset_and_hazards.md R223, 10_state.md R24). -/

/-- A soft reset leaves RST_N, the reply and the environment as they were. -/
theorem State.softReset_frame (s : State) : s.softReset =
    { s with regs := Regs.reset, seq := .idle, mem := s.softReset.mem, payGen := s.softReset.payGen,
             bitGen := s.softReset.bitGen, sampGen := s.softReset.sampGen } := by
  obtain ⟨_, _, hrst, hdraws, hhost, hturns, hreply⟩ := s.abortBuffers_rest
  rw [State.softReset, hrst, hdraws, hhost, hturns, hreply]

/-- A soft reset keeps the bytes of a buffer that the aborted command does not write. -/
theorem State.byteAt_softReset_of_notMem (s : State) {b : Buffer} {a : Nat} (hb : b.holds a = true)
    (hw : Loc.buf b ∉ s.runningWriteSet) : s.softReset.byteAt a = s.byteAt a :=
  s.byteAt_abortBuffers (inBuffers_of_holds hb) fun _ hc => Buffer.holds_unique hb hc ▸ hw

/-- A soft reset gives a byte of a buffer that the aborted command writes a new draw. -/
theorem State.byteAt_softReset_of_mem (s : State) {b : Buffer} {a : Nat} (hb : b.holds a = true)
    (hw : Loc.buf b ∈ s.runningWriteSet) : s.softReset.byteAt a = Config.drawByte (s.generation b + 1) a := by
  have hbyte := State.byteAt_of_lookup_eq_none hb (s.lookup_abortBuffers hb hw)
  rw [s.generation_abortBuffers, if_pos hw] at hbyte
  exact hbyte

/-- CTRL is no input of a command, so no CTRL write is refused, BUSY or not (20_memory.md R74). -/
theorem regWriteCause_ctrl (s : State) (d : Word) : regWriteCause s .ctrl d = none := rfl

theorem step_ctrl_write {s : State} {d : Word} {rest : List HostOp} (h : s.HostAbout (.write .four 0x008 d) rest) :
    step s = .next { (if d.getLsbD 0 then (afterTurn s).softReset else afterTurn s) with
      host := rest, reply := some .writeOkay } :=
  step_register_write_okay (k := 2) (r := .ctrl) rfl h (regWriteCause_ctrl s d)

/-- Settles O34: the write is made in any sequencer state, and bit 0 decides whether it is a soft reset; what that does
to a buffer is what the abort does to it. -/
theorem softResetEffect : Obligations.SoftResetEffect := by
  unfold Obligations.SoftResetEffect
  constructor
  · intro s d rest h hd
    refine ⟨{ (afterTurn s).softReset with host := rest, reply := some .writeOkay }, ?_, ?_,
      State.irq_of_regs_reset rfl, fun b a hb hw => (afterTurn s).byteAt_softReset_of_notMem hb hw,
      fun b a hb hw => ⟨(afterTurn s).lookup_abortBuffers hb hw, ?_⟩⟩
    · rw [step_ctrl_write h, if_pos hd]
    · exact congrArg (fun t : State => { t with host := rest, reply := some .writeOkay }) (afterTurn s).softReset_frame
    · exact (afterTurn s).byteAt_softReset_of_mem hb hw
  · intro s d rest h hd
    rw [step_ctrl_write h, if_neg (Bool.eq_false_iff.mp hd)]
    rfl

/-! RST_N (70_reset_and_hazards.md R220, R222; log 8). -/

/-- The scheduler's next choice, where it has one, says whose turn it is. -/
theorem turnOf_of_turns_cons {s : State} {turn : Turn} {more : List Turn} (h : s.turns = turn :: more) :
    turnOf s = turn := by
  rw [turnOf, h]

/-- The move of the scheduler's next choice is made with the choice taken off. -/
theorem nextMove_of_turns_cons {s : State} {turn : Turn} {more : List Turn} (h : s.turns = turn :: more) :
    nextMove s = moveOf turn { s with turns := more } := by
  rw [nextMove, turnOf_of_turns_cons h, h, List.tail_cons]

theorem hostMove_of_rstN_low {s : State} (h : s.rstN = false) : hostMove s = .made (.next s) := by
  rw [hostMove]
  split
  · rfl
  · simp [h]

theorem State.generation_hardReset (s : State) (level : Bool) (b : Buffer) :
    (s.hardReset level).generation b = s.generation b + 1 := by
  cases b <;> rfl

/-- A hardware reset leaves no buffer byte listed. -/
theorem State.lookup_hardReset (s : State) (level : Bool) {b : Buffer} {a : Nat} (hb : b.holds a = true) :
    (s.hardReset level).mem.lookup a = none := by
  cases b <;> simp [Memory.lookup_forget, hb]

/-- A hardware reset gives every buffer byte a new draw. -/
theorem State.byteAt_hardReset (s : State) (level : Bool) {b : Buffer} {a : Nat} (hb : b.holds a = true) :
    (s.hardReset level).byteAt a = Config.drawByte (s.generation b + 1) a := by
  rw [State.byteAt_of_lookup_eq_none hb (s.lookup_hardReset level hb), State.generation_hardReset]

section
variable {s : State} {more : List Turn}

theorem step_resetLow (h : s.turns = .resetLow :: more) :
    step s = .next (State.hardReset { s with turns := more } false) := by
  rw [step, nextMove_of_turns_cons h, moveOf]

/-- The rise of RST_N is a hardware reset. -/
theorem step_resetHigh (hr : s.rstN = false) (h : s.turns = .resetHigh :: more) :
    step s = .next (State.hardReset { s with turns := more } true) := by
  simp [step, nextMove_of_turns_cons h, moveOf, hr]

/-- While RST_N is 0 a host turn makes no access. -/
theorem step_host_of_rstN_low (hr : s.rstN = false) (h : s.turns = .host :: more) :
    step s = .next { s with turns := more } := by
  rw [step, nextMove_of_turns_cons h, moveOf, hostMove_of_rstN_low (s := { s with turns := more }) hr]

end

/-- Settles O35: the fall and the rise are hardware resets with RST_N at the new level. -/
theorem hardwareResetEffect : Obligations.HardwareResetEffect := by
  unfold Obligations.HardwareResetEffect
  refine ⟨?_, ?_, ?_⟩
  · intro s more hturns
    exact ⟨_, step_resetLow hturns, rfl, rfl, State.irq_of_rstN_low rfl, rfl, rfl⟩
  · intro s more hlow hturns
    exact ⟨State.irq_of_rstN_low hlow, step_host_of_rstN_low hlow hturns⟩
  · intro s more hlow hturns
    refine ⟨_, step_resetHigh hlow hturns, rfl, rfl, rfl, State.irq_of_regs_reset rfl, rfl, rfl, fun b a hb => ?_⟩
    exact ⟨State.lookup_hardReset _ true hb, State.byteAt_hardReset _ true hb⟩

end Sys2Proof.Machine
end
